-- ==== Sys2Proof/Word.lean ====
section
/-! DEFINITION. The word types of AHB-1 and the 32-bit patterns its rules name (00_scope.md R7). -/

namespace Sys2Proof

/-- One byte of the byte view of `BUF` (20_memory.md R45). -/
abbrev Byte := BitVec 8

/-- A RawWord of `BUF` (00_scope.md R5, `RAWWORD_W = 16`). -/
abbrev RawWord := BitVec 16

/-- A `u32` register or operand. -/
abbrev Word := BitVec 32

/-- An IEEE 754 binary32 value as its 32-bit pattern: sign bit 31, exponent bits 30:23 with
bias 127, fraction bits 22:0 (00_scope.md R7). -/
abbrev F32 := BitVec 32

/-- A 40-bit operation word of format W (30_encoding.md R62). -/
abbrev OpWord := BitVec 40

/-- A 2-bit event code of format E (30_encoding.md R61). -/
abbrev EventCode := BitVec 2

/-- `+0.0`. -/
abbrev F32.zero : F32 := 0x00000000#32

/-- `1.0`. -/
abbrev F32.one : F32 := 0x3F800000#32

/-- `2.0`. -/
abbrev F32.two : F32 := 0x40000000#32

/-- `-1.0`. -/
abbrev F32.negOne : F32 := 0xBF800000#32

end Sys2Proof
end

