-- ==== Sys2Proof/Syntax.lean ====
section
/-! DEFINITION. The twelve operations of AHB-1 (30_encoding.md R64), one constructor per row of the
opcode table. -/

namespace Sys2Proof

/-- The synthesis strategy (10_state.md R18): 0 the naive sawtooth, 1 the parabolic sine. -/
inductive Waveform where
  | sawtooth
  | parabolicSine
deriving DecidableEq, Repr

/-- A register number of `RDREG` (10_state.md R24): the fourteen that name a register, and the
others, which read as 0. -/
inductive RegNum where
  | req | cap | fpc | pidx | phase | inc | ctrl | mode | rate | halflen | ovrCnt | errCnt
  | fault | clkp
  | unassigned (n : BitVec 8)
deriving DecidableEq, Repr

/-- The operation set (30_encoding.md R64). Operands are those of R63; `imm` bits that an operation
ignores have no place here. -/
inductive Instr where
  | evtHalf
  | evtFull
  | evtErr
  | start (m : Word)
  | cfgInc (x : F32)
  | cfgWave (w : Waveform)
  | cfgHalflen (n : Word)
  | rdreg (r : RegNum)
  | poll
  | gen
  | pack
  | clr
deriving DecidableEq, Repr

/-- The agent whose port carries an operation (30_encoding.md R64, R65). -/
inductive Agent where
  | irq
  | fg
  | cfg
deriving DecidableEq, Repr

/-- The agent that performs an operation (30_encoding.md R64). -/
def Instr.agent : Instr → Agent
  | .evtHalf => .irq
  | .evtFull => .irq
  | .evtErr => .irq
  | .start _ => .cfg
  | .cfgInc _ => .cfg
  | .cfgWave _ => .cfg
  | .cfgHalflen _ => .cfg
  | .rdreg _ => .cfg
  | .poll => .fg
  | .gen => .fg
  | .pack => .fg
  | .clr => .fg

end Sys2Proof
end

