-- ==== Sys2Proof/WellFormed.lean ====
section
/-! DEFINITION. Which terms of the syntax stand for an operation: every field is of its operand's own
width, so the one check is that a register number of 10_state.md R24 is written by its name. -/

namespace Sys2Proof

/-- `unassigned n` stands for the numbers `0x0E .. 0xFF` only (10_state.md R24). -/
def RegNum.wf : RegNum → Bool
  | .unassigned n => decide (0x0E ≤ n.toNat)
  | _ => true

/-- A well-formed operation: one that some encoding of 30_encoding.md R61 to R63 stands for. -/
def Instr.wf : Instr → Bool
  | .rdreg r => r.wf
  | .evtHalf | .evtFull | .evtErr | .start _ | .cfgInc _ | .cfgWave _ | .cfgHalflen _ => true
  | .poll | .gen | .pack | .clr => true

end Sys2Proof
end

