-- ==== Sys2Proof/Decode.lean ====
section
/-! DEFINITION. Decoding the two formats of 30_encoding.md, port by port, and the encoder. -/

namespace Sys2Proof

/-! ### Fields -/

/-- `op = word[39:32]` (30_encoding.md R62). -/
def opField (w : OpWord) : BitVec 8 := w.extractLsb' 32 8

/-- `imm = word[31:0]` (30_encoding.md R62). -/
def immField (w : OpWord) : Word := w.extractLsb' 0 32

/-- `{op, imm}` (30_encoding.md R62). -/
def opWord (op : BitVec 8) (imm : Word) : OpWord := op ++ imm

/-- `wave` from its bit (10_state.md R18). -/
def Waveform.ofBit (b : Bool) : Waveform := if b then .parabolicSine else .sawtooth

/-- The bit of `wave` (10_state.md R18). -/
def Waveform.toBit : Waveform → Bool
  | .sawtooth => false
  | .parabolicSine => true

/-- The register a number names (10_state.md R24). -/
def RegNum.ofBits (n : BitVec 8) : RegNum :=
  if n = 0x00 then .req
  else if n = 0x01 then .cap
  else if n = 0x02 then .fpc
  else if n = 0x03 then .pidx
  else if n = 0x04 then .phase
  else if n = 0x05 then .inc
  else if n = 0x06 then .ctrl
  else if n = 0x07 then .mode
  else if n = 0x08 then .rate
  else if n = 0x09 then .halflen
  else if n = 0x0A then .ovrCnt
  else if n = 0x0B then .errCnt
  else if n = 0x0C then .fault
  else if n = 0x0D then .clkp
  else .unassigned n

/-- The number of a register (10_state.md R24). -/
def RegNum.toBits : RegNum → BitVec 8
  | .req => 0x00
  | .cap => 0x01
  | .fpc => 0x02
  | .pidx => 0x03
  | .phase => 0x04
  | .inc => 0x05
  | .ctrl => 0x06
  | .mode => 0x07
  | .rate => 0x08
  | .halflen => 0x09
  | .ovrCnt => 0x0A
  | .errCnt => 0x0B
  | .fault => 0x0C
  | .clkp => 0x0D
  | .unassigned n => n

/-! ### Decoding -/

/-- Why a code stands for no operation on the port it arrived on. -/
inductive DecodeError where
  /-- Event code `0b00`: no notification (30_encoding.md R61). -/
  | noEvent
  /-- A word whose `op` is none of the operation set's (30_encoding.md R64, R66). -/
  | illegalOp (op : BitVec 8)
  /-- A sequencer operation on the configuration port, or the reverse (30_encoding.md R65). -/
  | wrongPort (op : BitVec 8)
deriving DecidableEq, Repr

/-- What a decoder answers. -/
inductive Decoded where
  | instr (i : Instr)
  | rejected (why : DecodeError)
deriving DecidableEq, Repr

/-- The event port (30_encoding.md R61). -/
def decodeEvent (ev : EventCode) : Decoded :=
  if ev = 0b01 then .instr .evtHalf
  else if ev = 0b10 then .instr .evtFull
  else if ev = 0b11 then .instr .evtErr
  else .rejected .noEvent

/-- Format W (30_encoding.md R62 to R64): only `op` selects, and of `imm` only what R63 says. -/
def decodeWord (w : OpWord) : Decoded :=
  let op := opField w
  let imm := immField w
  if op = 0x10 then .instr (.start imm)
  else if op = 0x11 then .instr (.cfgInc imm)
  else if op = 0x12 then .instr (.cfgWave (Waveform.ofBit (imm.getLsbD 0)))
  else if op = 0x13 then .instr (.cfgHalflen imm)
  else if op = 0x14 then .instr (.rdreg (RegNum.ofBits (imm.extractLsb' 0 8)))
  else if op = 0x20 then .instr .poll
  else if op = 0x21 then .instr .gen
  else if op = 0x22 then .instr .pack
  else if op = 0x23 then .instr .clr
  else .rejected (.illegalOp op)

/-- A word decoded on the port of one agent (30_encoding.md R65). -/
def decodeOn (who : Agent) (w : OpWord) : Decoded :=
  match decodeWord w with
  | .instr i => if i.agent = who then .instr i else .rejected (.wrongPort (opField w))
  | .rejected e => .rejected e

/-- The configuration port: `op` in `0x10 .. 0x14` only (30_encoding.md R65, R66). -/
def decodeConfig (w : OpWord) : Decoded := decodeOn .cfg w

/-- The foreground sequencer: `op` in `0x20 .. 0x23` only (30_encoding.md R65). -/
def decodeSequencer (w : OpWord) : Decoded := decodeOn .fg w

/-! ### Encoding -/

/-- An operation as it stands on its port: the formats are told apart by the port, never by their
bits (30_encoding.md R60). -/
inductive Code where
  | event (ev : EventCode)
  | word (w : OpWord)
deriving DecidableEq, Repr

/-- Decoding of either format. -/
def decode : Code → Decoded
  | .event ev => decodeEvent ev
  | .word w => decodeWord w

/-- The encoding of an operation, ignored bits 0 (30_encoding.md R61 to R64). -/
def encode : Instr → Code
  | .evtHalf => .event 0b01
  | .evtFull => .event 0b10
  | .evtErr => .event 0b11
  | .start m => .word (opWord 0x10 m)
  | .cfgInc x => .word (opWord 0x11 x)
  | .cfgWave w => .word (opWord 0x12 ((BitVec.ofBool w.toBit).setWidth 32))
  | .cfgHalflen n => .word (opWord 0x13 n)
  | .rdreg r => .word (opWord 0x14 (r.toBits.setWidth 32))
  | .poll => .word (opWord 0x20 0)
  | .gen => .word (opWord 0x21 0)
  | .pack => .word (opWord 0x22 0)
  | .clr => .word (opWord 0x23 0)

/-- The word of an operation in a trace (30_encoding.md R62, R69): its own word in format W; for an
event the notation-only words `0x01`, `0x02`, `0x03`. -/
def traceWord (i : Instr) : OpWord :=
  match encode i with
  | .word w => w
  | .event ev => opWord (ev.setWidth 8) 0

/-- The instruction read from the `nbits`-bit number `w` as the opcode table numbers bits: a code
of format E on the event port where the row has at most 8 bits, else a word of format W. -/
def decodeTableWord (nbits w : Nat) : Option Instr :=
  let code := if nbits ≤ 8 then Code.event (BitVec.ofNat 2 w) else Code.word (BitVec.ofNat 40 w)
  match decode code with
  | .instr i => some i
  | .rejected _ => none

end Sys2Proof
end

