-- ==== Sys2Proof/Config.lean ====
section
/-! DEFINITION. What an implementation of AHB-1 fixes (00_scope.md R5) and the free values, which
the spec leaves open. A free value has no body: nothing can be proved of it. -/

namespace Sys2Proof

/-- A row of the Mode Table (10_state.md R31). `depth32` is `bit_depth`: false for 16, true for 32. -/
structure ModeConfig where
  mode : Word
  depth32 : Bool
  clockParams : Word
  actualSampleRate : F32
deriving DecidableEq, Repr

/-- The open parameters of a run (00_scope.md R5): `BLOCK_SIZE` and `MODE_TABLE`; `N_MODES` is the
table's length. -/
structure Params where
  blockSize : Nat
  modeTable : List ModeConfig
deriving DecidableEq, Repr

namespace Config

/-- The spec's `TEST_TABLE` (95_test_vectors.md section 0): a table for test vectors, no real
device's (92_eei_decisions.md D14). -/
def testTable : List ModeConfig :=
  [ { mode := 0, depth32 := false, clockParams := 0, actualSampleRate := 0x473B8000#32 },
    { mode := 1, depth32 := true, clockParams := 0, actualSampleRate := 0x473B8000#32 },
    { mode := 2, depth32 := false, clockParams := 0, actualSampleRate := 0x472C4400#32 } ]

/-- The parameters of `State.reset`: `BLOCK_SIZE` at the spec's default 128 (R5) and `TEST_TABLE`.
DESIGN CHOICE (log 1), unsafe only for a statement about `State.reset` itself: statements about
every state hold for every parameter. -/
def defaultParams : Params := { blockSize := 128, modeTable := testTable }

/-- The arithmetic step that produced a NaN, for `freeNaN`. -/
inductive FloatOp where
  | add | sub | mul | div | floor
deriving DecidableEq, Repr

/-- FREE VALUE. Sign and payload of a NaN result: IEEE 754 fixes neither (log 8). Safe: no
reachable state holds a NaN (41_oscillator.md R108). -/
opaque freeNaN : FloatOp → F32 → F32 → BitVec 32

/-- FREE VALUE. What the engine reads from a word of `BUF` that nothing has written since reset
number `boot` (93_implementation_defined.md U1, log 5). Safe. -/
opaque freeBufWord : (boot : Nat) → (addr : Nat) → RawWord

/-- FREE VALUE. The 16-bit quantizer on a non-finite sample (42_packer.md R130, log 7). Safe. -/
opaque freeQuant16 : F32 → BitVec 16

/-- FREE VALUE. The 32-bit quantizer on a non-finite sample (42_packer.md R130, log 7). Safe. -/
opaque freeQuant32 : F32 → BitVec 32

end Config

end Sys2Proof
end

