-- ==== Sys2Proof/Machine/Binary32.lean ====
section
/-! DEFINITION. IEEE 754 binary32 arithmetic, correctly rounded to nearest, ties to even, subnormals
kept (00_scope.md R7, R8; 41_oscillator.md R101).

Every finite binary32 value is an integer multiple of `2^-149`, so the exact value of a pattern is
held as that integer (`scaled`), an exact result as an integer with a further power of two, and one
function (`roundScaled`) rounds. Infinities, NaNs and the signs of zeros follow the standard
(PRESUMED, log 9); no reachable state of AHB-1 holds an infinity or a NaN (41_oscillator.md R108). -/

namespace Sys2Proof.Machine

/-! ### Fields and classes of a pattern -/

/-- The sign bit (R7). -/
def fsign (a : F32) : Bool := a.msb

/-- Exponent and fraction as one number: the pattern without its sign (R7). -/
def fmag (a : F32) : Nat := a.toNat % 2 ^ 31

/-- The exponent field (R7). -/
def fexp (a : F32) : Nat := fmag a / 2 ^ 23

/-- The fraction field (R7). -/
def ffrac (a : F32) : Nat := fmag a % 2 ^ 23

/-- Exponent field not `0xFF` (R8). -/
def isFinite (a : F32) : Bool := fexp a != 255

/-- Exponent field `0xFF`, fraction not 0 (R7). -/
def isNaN (a : F32) : Bool := fexp a == 255 && ffrac a != 0

/-- Exponent field `0xFF`, fraction 0 (R7). -/
def isInf (a : F32) : Bool := fexp a == 255 && ffrac a == 0

/-- The magnitude that exponent and fraction stand for, as a multiple of `2^-149`; exponent 0 is a
zero or a subnormal (R7). -/
def magValue (mag : Nat) : Nat :=
  if mag / 2 ^ 23 = 0 then mag % 2 ^ 23 else (2 ^ 23 + mag % 2 ^ 23) * 2 ^ (mag / 2 ^ 23 - 1)

/-- The magnitude of a finite pattern as a multiple of `2^-149` (R7). -/
def scaledMag (a : F32) : Nat := magValue (fmag a)

/-- The exact value of a finite pattern as a multiple of `2^-149`: `real(a) = scaled a / 2^149`
(R8). -/
def scaled (a : F32) : Int := if fsign a then -(scaledMag a : Int) else (scaledMag a : Int)

/-! ### Rounding -/

/-- `n / 2^k` rounded to the nearest integer, ties to even. -/
def roundHalfEven (n k : Nat) : Nat :=
  let q := n / 2 ^ k
  let r := n % 2 ^ k
  if 2 ^ k < 2 * r then q + 1
  else if 2 * r = 2 ^ k ∧ q % 2 = 1 then q + 1
  else q

/-- The pattern of a sign and of exponent and fraction as one number; a magnitude beyond the largest
finite one becomes an infinity (R8). -/
def assemble (neg : Bool) (mag : Nat) : F32 :=
  BitVec.ofNat 32 ((if neg then 2 ^ 31 else 0) + min mag 0x7F800000)

/-- The position of the last significand bit of the value `n * 2^-(149+k)`, counted from `n`'s own
bit 0: 24 significant bits, but never below the unit `2^-149`. -/
def roundShift (n k : Nat) : Nat := max k (n.log2 - 23)

/-- Exponent and fraction, as one number, of the value nearest `n * 2^-(149+k)`: a significand that
rounds up to `2^24` carries into the exponent. -/
def roundMag (n k : Nat) : Nat :=
  (roundShift n k - k) * 2 ^ 23 + roundHalfEven n (roundShift n k)

/-- The binary32 pattern nearest `n * 2^-(149+k)` with the given sign (R8). -/
def roundScaled (neg : Bool) (n k : Nat) : F32 := assemble neg (roundMag n k)

/-- The pattern nearest the integer `z` times `2^-149`; `zneg` is the sign of an exact zero. -/
def roundInt (zneg : Bool) (z : Int) : F32 :=
  if z = 0 then assemble zneg 0 else roundScaled (decide (z < 0)) z.natAbs 0

/-! ### Operations -/

/-- A NaN result: exponent field `0xFF` and the quiet bit set, the rest free (log 8). -/
def nanResult (op : Config.FloatOp) (a b : F32) : F32 := Config.freeNaN op a b ||| 0x7FC00000#32

/-- `a` with its sign bit flipped. -/
def fneg (a : F32) : F32 := a ^^^ 0x80000000#32

/-- `a` with bit 31 cleared (R8). -/
def fabs (a : F32) : F32 := a &&& 0x7FFFFFFF#32

/-- The sum, a NaN of the step `op` where the standard has one. -/
def faddAs (op : Config.FloatOp) (a b : F32) : F32 :=
  if isNaN a || isNaN b then nanResult op a b
  else if isInf a then (if isInf b && fsign a != fsign b then nanResult op a b else a)
  else if isInf b then b
  else roundInt (fsign a && fsign b) (scaled a + scaled b)

/-- `fadd(a, b)` (R8). -/
def fadd (a b : F32) : F32 := faddAs .add a b

/-- `fsub(a, b)` (R8): the sum with `b`'s sign flipped. -/
def fsub (a b : F32) : F32 := faddAs .sub a (fneg b)

/-- `fmul(a, b)` (R8). -/
def fmul (a b : F32) : F32 :=
  let neg := fsign a != fsign b
  if isNaN a || isNaN b then nanResult .mul a b
  else if isInf a || isInf b then
    (if fmag a = 0 ∨ fmag b = 0 then nanResult .mul a b else assemble neg 0x7F800000)
  else roundScaled neg (scaledMag a * scaledMag b) 149

/-- The quotient `x / y` in units of `2^-151`, its last bit set where the division is not exact. -/
def stickyQuotient (x y : Nat) : Nat :=
  2 * (x * 2 ^ 150 / y) + (if x * 2 ^ 150 % y = 0 then 0 else 1)

/-- `fdiv(a, b)` (R8), which the host uses (40_mode_config.md R90). -/
def fdiv (a b : F32) : F32 :=
  let neg := fsign a != fsign b
  if isNaN a || isNaN b then nanResult .div a b
  else if isInf a then (if isInf b then nanResult .div a b else assemble neg 0x7F800000)
  else if isInf b then assemble neg 0
  else if fmag b = 0 then
    (if fmag a = 0 then nanResult .div a b else assemble neg 0x7F800000)
  else roundScaled neg (stickyQuotient (scaledMag a) (scaledMag b)) 2

/-- `ffloor(a)`: the largest integral binary32 value not greater than `a` (R8). -/
def ffloor (a : F32) : F32 :=
  if isNaN a then nanResult .floor a a
  else if isInf a || fmag a = 0 then a
  else roundInt (fsign a) (scaled a / 2 ^ 149 * 2 ^ 149)

/-! ### Comparisons: false when either operand is a NaN (R8) -/

/-- The order of the non-NaN patterns: both zeros are 0. -/
def forder (a : F32) : Int := if fsign a then -(fmag a : Int) else (fmag a : Int)

/-- `a >=f b` (R8). -/
def fge (a b : F32) : Bool := !isNaN a && !isNaN b && decide (forder b ≤ forder a)

/-- `a =f b` (R8). -/
def feq (a b : F32) : Bool := !isNaN a && !isNaN b && decide (forder a = forder b)

/-- `a >f b` (R8). -/
def fgt (a b : F32) : Bool := !isNaN a && !isNaN b && decide (forder b < forder a)

/-! ### Truncation of an exact product -/

/-- `trunc(real(s) * f)`: the exact product truncated toward zero (00_scope.md R8 `trunc`). -/
def truncScaled (s : F32) (f : Nat) : Int := (scaled s * f).tdiv (2 ^ 149)

end Sys2Proof.Machine
end

