-- ==== Sys2Proof/Machine/State.lean ====
section
/-! DEFINITION. The state of AHB-1 and of its environment as plain data (10_state.md), and the
state after reset (70_reset_and_hazards.md R200). -/

namespace Sys2Proof.Machine

/-- The hand-off flag's three values (10_state.md R11). `0b11` is not a legal value
(93_implementation_defined.md U5) and has no constructor. -/
inductive Request where
  | idle
  | pendingFirstHalf
  | pendingSecondHalf
deriving DecidableEq, Repr

/-- One half of the DoubleBuffer (10_state.md R30). -/
inductive Half where
  | first
  | second
deriving DecidableEq, Repr

/-- The causes of a fault (60_exceptions.md R170); their codes are `Cause.code`. -/
inductive Cause where
  | badMode
  | badLength
  | illegalOp
  | badOperand
  | badState
deriving DecidableEq, Repr

/-- What rules the Streaming Engine's moves (60_exceptions.md R185 to R189). -/
inductive EngineMode where
  /-- Before `START`: it transmits nothing (R185). -/
  | stopped
  /-- It follows R186. -/
  | streaming
  /-- The spec leaves its behaviour open: after a transfer error (R189), with a `halflen` other
  than `K*B` (R186), or after a reset while it was transmitting (70_reset_and_hazards.md R201). -/
  | unspecified
deriving DecidableEq, Repr

/-- The Streaming Engine as environment (10_state.md R33, 60_exceptions.md R185 to R190). -/
structure Engine where
  mode : EngineMode
  /-- The word address in `BUF` of the word it transmits next (10_state.md R33). While `mode` is
  `unspecified` the spec gives it no value; what it then holds is a DESIGN CHOICE (log 20), and no
  transition reads it. -/
  txPtr : Nat
  /-- The transmit stream so far, in read order (20_memory.md R58). -/
  stream : List RawWord
deriving DecidableEq, Repr

/-- One transition of the total order of 20_memory.md R50, as the environment and the scheduler
choose it (30_encoding.md R69: one line of a trace). -/
inductive Stimulus where
  /-- The engine presents a code on the event port (30_encoding.md R61). -/
  | event (ev : EventCode)
  /-- A word is presented on the configuration port (30_encoding.md R62). -/
  | config (w : OpWord)
  /-- The foreground sequencer takes its turn (43_handoff.md R144). -/
  | fg
  /-- The engine transmits one word by its contract (60_exceptions.md R186). -/
  | tx
  /-- An engine whose behaviour the spec leaves open transmits the word at address `p`
  (60_exceptions.md R189: any `tx_ptr`). -/
  | txAt (p : Nat)
  /-- The platform asserts reset (60_exceptions.md R190). -/
  | reset
deriving DecidableEq, Repr

/-- `BUF` in its byte view (20_memory.md R45): word `a` is bytes `2a` (bits 7:0) and `2a+1`
(bits 15:8). Addresses rise strictly; a byte nothing has written is not listed and has no value. -/
abbrev Memory := List Host.Cell

/-- The machine's state: 10_state.md R10, and after it the environment's and the model's own fields
(INVENTORY.md, State). -/
structure State where
  /-- The parameters of the run; nothing writes them (00_scope.md R5, 10_state.md R31). -/
  params : Params
  /-- The hand-off flag (R11). -/
  req : Request
  /-- The half captured by the last taken `POLL` (R12). -/
  cap : Request
  /-- The foreground sequencer's program counter (R13). -/
  fpc : BitVec 2
  /-- The index of the next word `PACK` writes within the half (R14). -/
  pidx : Word
  /-- The block register file `BLK[0..B-1]` (R15). -/
  blk : List F32
  /-- The phase accumulator (R16). -/
  phase : F32
  /-- The increment per sample (R17). -/
  inc : F32
  /-- The synthesis strategy (R18). -/
  wave : Waveform
  /-- The active bit depth: false for 16, true for 32 (R18). -/
  depth32 : Bool
  /-- `START` has completed (R18). -/
  running : Bool
  /-- The selected AudioMode index (R19). -/
  mode : Word
  /-- The selected row's actual sample rate (R19). -/
  rate : F32
  /-- The selected row's opaque clock parameters (R19). -/
  clkp : Word
  /-- The length in RawWords of one half of the buffer (R20). -/
  halflen : Word
  /-- Notifications that overwrote a request (R21). -/
  ovrCnt : Word
  /-- Transfer-error notifications (R22). -/
  errCnt : Word
  /-- The code of the first fault since reset; 0 is none (R23). -/
  fault : BitVec 4
  /-- The DoubleBuffer memory `BUF` (R30). -/
  mem : Memory
  /-- The Streaming Engine, environment (R33). -/
  engine : Engine
  /-- What the last transition drove on the read-data output (R34: no register; log 3). -/
  rdata : Option Word
  /-- The transitions to come (log 2). -/
  schedule : List Stimulus
  /-- How many resets the platform has asserted since power-up (log 13). -/
  boots : Nat
deriving DecidableEq, Repr

/-- Why the machine stops with a fault of the model's own. The spec's faults are no stops: they are
next states with `fault` written (60_exceptions.md R171, log 14). -/
inductive Fault where
  /-- Raised by `PACK` and by the engine's read for a word address outside `BUF`'s `0 .. 8*B-1`.
  20_memory.md R47: no operation reaches one in a run. Safe (log 10). -/
  | noSuchBufWord (addr : Nat)
  /-- Raised by `PACK` for an index outside the packed block. 10_state.md R35 (c): no run reaches
  one. Safe (log 10). -/
  | noSuchSample (index : Nat)
deriving DecidableEq, Repr

/-- Why the machine refuses to go on. -/
inductive Refusal where
  /-- Raised by `exec` for an instruction that has no meaning yet. Safe. -/
  | notModelled (mnemonic : String)
  /-- Raised when the engine is to follow R186 while the spec leaves its behaviour open
  (93_implementation_defined.md U4, U11: refuse). Safe (log 12). -/
  | engineUnspecified
  /-- Raised when the engine is to break its contract while R186 rules it
  (60_exceptions.md R190: no move in the model). Safe (log 12). -/
  | engineContract
deriving DecidableEq, Repr

/-- The engine before `START` (60_exceptions.md R185). `txPtr` is a DESIGN CHOICE (log 11): R33
gives it a value only at `START`. -/
def Engine.atReset : Engine := { mode := .stopped, txPtr := 0, stream := [] }

/-- The state after reset for given parameters (70_reset_and_hazards.md R200). `BLK` is a DESIGN
CHOICE, unsafe (log 4); `BUF` lists nothing (log 5). -/
def State.resetWith (p : Params) : State where
  params := p
  req := .idle
  cap := .idle
  fpc := 0
  pidx := 0
  blk := List.replicate p.blockSize F32.zero
  phase := F32.zero
  inc := F32.zero
  wave := .sawtooth
  depth32 := false
  running := false
  mode := 0
  rate := F32.zero
  clkp := 0
  halflen := 0
  ovrCnt := 0
  errCnt := 0
  fault := 0
  mem := []
  engine := Engine.atReset
  rdata := none
  schedule := []
  boots := 0

/-- The machine right after reset (70_reset_and_hazards.md R200), with the default parameters
(log 1). -/
def State.reset : State := State.resetWith Config.defaultParams

end Sys2Proof.Machine
end

