-- ==== Sys2Proof/Machine/Ops.lean ====
section
/-! DEFINITION. The shared operations of the meanings: taking a fault and the one way out of it
(60_exceptions.md R171, R173; 70_reset_and_hazards.md R200), and what enables each agent
(00_scope.md R6). -/

namespace Sys2Proof.Machine

/-- The outcome of a transition. -/
abbrev Result := Host.Outcome State Fault Refusal

/-- The next state of an outcome that has one. -/
def nextState : Result → Option State
  | .next s => some s
  | .fault _ => none
  | .refused _ => none

/-- The code of a cause (60_exceptions.md R170). -/
def Cause.code : Cause → BitVec 4
  | .badMode => 1
  | .badLength => 2
  | .illegalOp => 3
  | .badOperand => 4
  | .badState => 5

/-- Fault entry (60_exceptions.md R171): `fault` takes the code, nothing else is written; no
handler, no saved program counter, no mode change. -/
def raise (c : Cause) (s : State) : Result := .next { s with fault := c.code }

/-- The block is halted (60_exceptions.md R171). -/
def State.halted (s : State) : Bool := s.fault != 0

/-- The engine after the platform's reset: stopped stays stopped; what it does otherwise no source
says (70_reset_and_hazards.md R201). That `txPtr` then keeps its value is a DESIGN CHOICE (log 20). -/
def Engine.afterReset (e : Engine) : Engine :=
  { e with mode := if e.mode = .stopped then .stopped else .unspecified }

/-- Reset at any time (70_reset_and_hazards.md R200), the only return from a fault (60_exceptions.md
R173): every register at its reset value, `BUF` unspecified afresh (log 13). The parameters, the
transitions to come and the engine are not AHB-1's to reset (R201). -/
def platformReset (s : State) : State :=
  { State.resetWith s.params with
    engine := s.engine.afterReset
    schedule := s.schedule
    boots := s.boots + 1 }

/-- An operation of `IRQ` or `CFG` acts unless the block is halted (60_exceptions.md R171: "every
event code ... is ignored", "every configuration word is ignored"). -/
def unlessHalted (s : State) (act : Result) : Result :=
  if s.fault = 0 then act else .next s

/-- An operation of `FG` acts when `running = 1`, `fault = 0` and `fpc` is its slot (43_handoff.md
R144); otherwise `FG` has no transition (log 15). -/
def inSlot (slot : BitVec 2) (s : State) (act : Result) : Result :=
  if s.running = true ∧ s.fault = 0 ∧ s.fpc = slot then act else .next s

end Sys2Proof.Machine
end

