-- ==== Sys2Proof/Machine/Flags.lean ====
section
/-! DEFINITION. The flag and counter computations: the hand-off flag and its overwrite counter
(43_handoff.md R141, R142), the saturating increment (00_scope.md R8). -/

namespace Sys2Proof.Machine

/-- `satinc(c)` with `CNT_W = 32` (00_scope.md R8). -/
def satinc (c : Word) : Word := if c.toNat < 2 ^ 32 - 1 then c + 1 else c

/-- `ovr_cnt` after a completion notification (R141, R142): counted when a request was still
unconsumed. -/
def overwriteCount (s : State) : Word := if s.req = .idle then s.ovrCnt else satinc s.ovrCnt

/-- A completion notification: count an overwrite, write the pending value "regardless of current
state" (43_handoff.md R140). One atomic transition. -/
def notify (pending : Request) (s : State) : State :=
  { s with req := pending, ovrCnt := overwriteCount s }

/-- The 2-bit encoding of the flag (10_state.md R11). -/
def Request.toBits : Request → BitVec 2
  | .idle => 0b00
  | .pendingFirstHalf => 0b01
  | .pendingSecondHalf => 0b10

/-- The request of the refill that follows one: FirstHalf first, then the other half each time
(70_reset_and_hazards.md R213 (d)). -/
def Request.successor : Request → Request
  | .idle => .pendingFirstHalf
  | .pendingFirstHalf => .pendingSecondHalf
  | .pendingSecondHalf => .pendingFirstHalf

/-- The half a pending request names (10_state.md R11). -/
def Request.half? : Request → Option Half
  | .idle => none
  | .pendingFirstHalf => some .first
  | .pendingSecondHalf => some .second

end Sys2Proof.Machine
end

