-- ==== Sys2Proof/Machine/Operands.lean ====
section
/-! DEFINITION. The operand forms: the Mode Table lookup (40_mode_config.md R80), the register
numbers of `RDREG` (10_state.md R24), the check of an increment (40_mode_config.md R86), and the
parameters a `PACK` step computes from the state (42_packer.md R121, R122). -/

namespace Sys2Proof.Machine

/-- `lookup(m)` (40_mode_config.md R80): row `m`, if `m < N_MODES`. -/
def lookup (p : Params) (m : Word) : Option ModeConfig := p.modeTable[m.toNat]?

/-- `CTRL`: `wave` at bit 0, `depth32` at bit 1, `running` at bit 2, the rest 0 (10_state.md R18). -/
def ctrlWord (wave depth32 running : Bool) : Word :=
  (0#29 ++ (BitVec.ofBool running ++ (BitVec.ofBool depth32 ++ BitVec.ofBool wave)))

/-- The 32-bit value of a register number (10_state.md R24); a number not in the table reads 0. -/
def State.readReg (s : State) : RegNum → Word
  | .req => s.req.toBits.setWidth 32
  | .cap => s.cap.toBits.setWidth 32
  | .fpc => s.fpc.setWidth 32
  | .pidx => s.pidx
  | .phase => s.phase
  | .inc => s.inc
  | .ctrl => ctrlWord s.wave.toBit s.depth32 s.running
  | .mode => s.mode
  | .rate => s.rate
  | .halflen => s.halflen
  | .ovrCnt => s.ovrCnt
  | .errCnt => s.errCnt
  | .fault => s.fault.setWidth 32
  | .clkp => s.clkp
  | .unassigned _ => 0

/-- A finite binary32 value greater than zero (40_mode_config.md R86). -/
def isIncrement (x : F32) : Bool := isFinite x && fgt x F32.zero

/-- `K`, RawWords per sample (42_packer.md R121). -/
def wordsPerSample (depth32 : Bool) : Nat := if depth32 then 4 else 2

/-- `K*B`, the words one `PACK` writes (42_packer.md R121). -/
def State.halfWords (s : State) : Nat := wordsPerSample s.depth32 * s.params.blockSize

/-- `base`, the first word of the destination half (42_packer.md R122): the pseudocode of R124 gives
`halflen` for every value of `cap` but `PendingFirstHalf`. -/
def State.packBase (s : State) : Nat := if s.cap = .pendingFirstHalf then 0 else s.halflen.toNat

/-- The word address a `PACK` step writes (42_packer.md R124). -/
def State.packAddr (s : State) : Nat := s.packBase + s.pidx.toNat

/-- A row as 10_state.md R31 constrains it. -/
def rowOk (index : Nat) (r : ModeConfig) : Bool :=
  decide (r.mode.toNat = index) && isIncrement r.actualSampleRate

/-- The rows from `index` on as 10_state.md R31 constrains them. -/
def rowsOk : Nat → List ModeConfig → Bool
  | _, [] => true
  | index, r :: rs => rowOk index r && rowsOk (index + 1) rs

/-- The parameters as 00_scope.md R5 and 10_state.md R31 constrain them. -/
def paramsOk (p : Params) : Bool :=
  decide (1 ≤ p.blockSize) && decide (1 ≤ p.modeTable.length) && rowsOk 0 p.modeTable

end Sys2Proof.Machine
end

