-- ==== Sys2Proof/Machine/Configuration.lean ====
section
/-! DEFINITION. The operations of the configuration port (40_mode_config.md). -/

namespace Sys2Proof.Machine

/-- The engine's start (60_exceptions.md R185): `tx_ptr <- 0`, and from then on it follows R186;
with a `halflen` other than `K*B` its behaviour is open (R186, log 12). The stream goes on. -/
def Engine.started (e : Engine) (halflen halfWords : Nat) : Engine :=
  { e with mode := if halflen = halfWords then .streaming else .unspecified, txPtr := 0 }

/-- `START` after its checks (R84): the ModeConfig latch, `running`, the engine's start. -/
def latchMode (m : Word) (row : ModeConfig) (s : State) : State :=
  { s with
    mode := m
    depth32 := row.depth32
    rate := row.actualSampleRate
    clkp := row.clockParams
    running := true
    engine := s.engine.started s.halflen.toNat
      (wordsPerSample row.depth32 * s.params.blockSize) }

/-- `START m` (R84): `BAD_STATE` is tested before `BAD_MODE` (60_exceptions.md R176). -/
def execStart (m : Word) (s : State) : Result :=
  unlessHalted s
    (if s.running then raise .badState s
     else
      match lookup s.params m with
      | none => raise .badMode s
      | some row => .next (latchMode m row s))

/-- `CFG.INC x` (R86). -/
def execCfgInc (x : F32) (s : State) : Result :=
  unlessHalted s (if isIncrement x then .next { s with inc := x } else raise .badOperand s)

/-- `CFG.WAVE w` (R87). -/
def execCfgWave (w : Waveform) (s : State) : Result := unlessHalted s (.next { s with wave := w })

/-- `CFG.HALFLEN n` (R88): any `n` is accepted. -/
def execCfgHalflen (n : Word) (s : State) : Result :=
  unlessHalted s (if s.running then raise .badState s else .next { s with halflen := n })

/-- `RDREG r` (R89): drives the read-data output; it executes while the block is halted too. -/
def execRdreg (r : RegNum) (s : State) : Result := .next { s with rdata := some (s.readReg r) }

end Sys2Proof.Machine
end

