-- ==== Sys2Proof/Machine/Handoff.lean ====
section
/-! DEFINITION. The Buffer Hand-off (43_handoff.md): the three notifications of `IRQ`, and `POLL`
and `CLR` of `FG`. -/

namespace Sys2Proof.Machine

/-- `EVT.HALF` (R141). It reads neither `running` nor `fpc`. -/
def execEvtHalf (s : State) : Result := unlessHalted s (.next (notify .pendingFirstHalf s))

/-- `EVT.FULL` (R142). -/
def execEvtFull (s : State) : Result := unlessHalted s (.next (notify .pendingSecondHalf s))

/-- `EVT.ERR` (R143): the error is counted, nothing else changes. -/
def execEvtErr (s : State) : Result :=
  unlessHalted s (.next { s with errCnt := satinc s.errCnt })

/-- `POLL` (R145): not taken, no bit of state changes; taken, the pending half is captured. -/
def execPoll (s : State) : Result :=
  inSlot 0 s (if s.req = .idle then .next s else .next { s with cap := s.req, fpc := 1 })

/-- `CLR` (R146): the write of `Idle` is unconditional. -/
def execClr (s : State) : Result := inSlot 3 s (.next { s with req := .idle, fpc := 0 })

end Sys2Proof.Machine
end

