-- ==== Sys2Proof/Machine/Oscillator.lean ====
section
/-! DEFINITION. The Oscillator and its operation `GEN` (41_oscillator.md). -/

namespace Sys2Proof.Machine

/-- `saw(p)` (R103). -/
def saw (p : F32) : F32 := fsub (fmul F32.two p) F32.one

/-- The triangle wave of `psin` (R104). -/
def triangle (p : F32) : F32 := fsub (fmul F32.two (fabs (saw p))) F32.one

/-- The parabolic shaping `t * (2 - |t|)` of `psin` (R104). -/
def shape (t : F32) : F32 := fmul t (fsub F32.two (fabs t))

/-- `psin(p)` (R104). -/
def psin (p : F32) : F32 := shape (triangle p)

/-- `wrap(q)` (R105). -/
def wrap (q : F32) : F32 := fsub q (ffloor q)

/-- One advance of the phase (R102). -/
def advance (inc p : F32) : F32 := wrap (fadd p inc)

/-- The sample at a phase under a strategy (R102). -/
def sampleAt : Waveform → F32 → F32
  | .sawtooth, p => saw p
  | .parabolicSine, p => psin p

/-- `n` samples from phase `p`, each taken before its advance (R102, R106). -/
def genSamples (wave : Waveform) (inc : F32) : Nat → F32 → List F32
  | 0, _ => []
  | n + 1, p => sampleAt wave p :: genSamples wave inc n (advance inc p)

/-- The phase after `n` advances (R102). -/
def phaseAfter (inc : F32) : Nat → F32 → F32
  | 0, p => p
  | n + 1, p => phaseAfter inc n (advance inc p)

/-- `GEN` (R102): one atomic transition; `phase`, `inc` and `wave` are read once. -/
def execGen (s : State) : Result :=
  inSlot 1 s (.next
    { s with
      blk := genSamples s.wave s.inc s.params.blockSize s.phase
      phase := phaseAfter s.inc s.params.blockSize s.phase
      fpc := 2 })

end Sys2Proof.Machine
end

