-- ==== Sys2Proof/Machine/Memory.lean ====
section
/-! DEFINITION. The named operations over `BUF` (20_memory.md). Bytes are kept at strictly rising
addresses; a word is two bytes, the low one first (20_memory.md R45, log 6). -/

namespace Sys2Proof.Machine

/-- The byte at an address, if anything has written it. -/
def Memory.readByte : Memory → Nat → Option Byte
  | [], _ => none
  | c :: m, a => if c.1 = a then some c.2 else Memory.readByte m a

/-- One byte written, the addresses kept rising. -/
def Memory.writeByte : Memory → Nat → Byte → Memory
  | [], a, v => [(a, v)]
  | c :: m, a, v =>
    if a < c.1 then (a, v) :: c :: m
    else if a = c.1 then (a, v) :: m
    else c :: Memory.writeByte m a v

/-- The address of the low byte (bits 7:0) of word `a` (R45). -/
def lowByteAddr (a : Nat) : Nat := 2 * a

/-- The address of the high byte (bits 15:8) of word `a` (R45). -/
def highByteAddr (a : Nat) : Nat := 2 * a + 1

/-- `MemRead(a, 1)` (00_scope.md R8), if word `a` has been written. -/
def Memory.readWord (m : Memory) (a : Nat) : Option RawWord :=
  match Memory.readByte m (highByteAddr a), Memory.readByte m (lowByteAddr a) with
  | some hi, some lo => some (hi ++ lo)
  | _, _ => none

/-- `MemWrite(a, 1, v)` (00_scope.md R8). -/
def Memory.writeWord (m : Memory) (a : Nat) (v : RawWord) : Memory :=
  Memory.writeByte (Memory.writeByte m (lowByteAddr a) (v.extractLsb' 0 8))
    (highByteAddr a) (v.extractLsb' 8 8)

/-- The canonical form: addresses strictly rising. An unlisted byte has no value, so no entry can
equal what an unlisted address reads as. -/
def Memory.wf : Memory → Bool
  | [] => true
  | [_] => true
  | c :: d :: m => decide (c.1 < d.1) && Memory.wf (d :: m)

/-- Every listed byte is below `n`. -/
def Memory.below (n : Nat) (m : Memory) : Bool := m.all (fun c => decide (c.1 < n))

/-- `BUF_WORDS = 8*B` (00_scope.md R5). -/
def bufWords (p : Params) : Nat := 8 * p.blockSize

/-- What the engine's `MemRead` returns (20_memory.md R50 (c)); a word nothing has written since the
last reset is a FREE VALUE (93_implementation_defined.md U1, log 5). -/
def State.transmitWord (s : State) (a : Nat) : RawWord :=
  (Memory.readWord s.mem a).getD (Config.freeBufWord s.boots a)

end Sys2Proof.Machine
end

