-- ==== Sys2Proof/Machine/Packer.lean ====
section
/-! DEFINITION. The Sample Packer and its operation `PACK` (42_packer.md). -/

namespace Sys2Proof.Machine

/-- `q16(s)` (R125, R129): the low 16 bits of the truncated exact product; a FREE VALUE for a
non-finite sample (R130, log 7). -/
def q16 (s : F32) : BitVec 16 :=
  if isFinite s then BitVec.ofInt 16 (truncScaled s 32767) else Config.freeQuant16 s

/-- `q32(s)` (R126, R129); a FREE VALUE for a non-finite sample (R130, log 7). -/
def q32 (s : F32) : BitVec 32 :=
  if isFinite s then BitVec.ofInt 32 (truncScaled s 2147483647) else Config.freeQuant32 s

/-- `msb(s)` (R126). -/
def msbWord (s : F32) : RawWord := (q32 s).extractLsb' 16 16

/-- `lsb(s)` (R126). -/
def lsbWord (s : F32) : RawWord := (q32 s).extractLsb' 0 16

/-- The word at position `j` of the frame of a sample (R127). -/
def frameWord (depth32 : Bool) (s : F32) (j : Nat) : RawWord :=
  if depth32 then (if j % 2 = 0 then msbWord s else lsbWord s) else q16 s

/-- `pack_words` (R127), the whole list. -/
def packWords (depth32 : Bool) (blk : List F32) : List RawWord :=
  blk.flatMap fun x =>
    if depth32 then [msbWord x, lsbWord x, msbWord x, lsbWord x] else [q16 x, q16 x]

/-- Word `n` of `pack_words` (R127): sample `n div K`, position `n mod K`. -/
def packWord (blk : List F32) (depth32 : Bool) (n : Nat) : Option RawWord :=
  match blk[n / wordsPerSample depth32]? with
  | some x => some (frameWord depth32 x (n % wordsPerSample depth32))
  | none => none

/-- The end of a `PACK` step (R124): the next index, or the next slot after the last word. -/
def packAdvance (s : State) : State :=
  if s.pidx.toNat + 1 = s.halfWords then { s with pidx := 0, fpc := 3 }
  else { s with pidx := s.pidx + 1 }

/-- The write of a `PACK` step (R124). An index outside the block and an address outside `BUF` are
faults of the model's own (log 10): no run reaches one (20_memory.md R47). -/
def packStore (s : State) : Result :=
  if s.halfWords ≤ s.pidx.toNat then .fault (.noSuchSample s.pidx.toNat)
  else
    match packWord s.blk s.depth32 s.pidx.toNat with
    | none => .fault (.noSuchSample s.pidx.toNat)
    | some w =>
      if s.packAddr < bufWords s.params then
        .next (packAdvance { s with mem := Memory.writeWord s.mem s.packAddr w })
      else .fault (.noSuchBufWord s.packAddr)

/-- `PACK`, one word step (R124), with the length check of its first step (R123). -/
def execPack (s : State) : Result :=
  inSlot 2 s
    (if s.pidx = 0 ∧ s.halflen.toNat ≠ s.halfWords then raise .badLength s else packStore s)

end Sys2Proof.Machine
end

