-- ==== Sys2Proof/Machine/Dispatch.lean ====
section
/-! DEFINITION. Every operation of 30_encoding.md R64 and its meaning. -/

namespace Sys2Proof.Machine

def exec (i : Instr) (s : State) : Host.Outcome State Fault Refusal :=
  match i with
  | .evtHalf => Sys2Proof.Machine.execEvtHalf s
  | .evtFull => Sys2Proof.Machine.execEvtFull s
  | .evtErr => Sys2Proof.Machine.execEvtErr s
  | .start m => Sys2Proof.Machine.execStart m s
  | .cfgInc x => Sys2Proof.Machine.execCfgInc x s
  | .cfgWave w => Sys2Proof.Machine.execCfgWave w s
  | .cfgHalflen n => Sys2Proof.Machine.execCfgHalflen n s
  | .rdreg r => Sys2Proof.Machine.execRdreg r s
  | .poll => Sys2Proof.Machine.execPoll s
  | .gen => Sys2Proof.Machine.execGen s
  | .pack => Sys2Proof.Machine.execPack s
  | .clr => Sys2Proof.Machine.execClr s

end Sys2Proof.Machine
end

