-- ==== Sys2Proof/Machine/Agents.lean ====
section
/-! DEFINITION. The agents' transitions (00_scope.md R6), each the performance of one scheduled
stimulus, and the placing of an operation as the next one to run. -/

namespace Sys2Proof.Machine

/-- `SEQ_ROM` (10_state.md R32). -/
def seqRom (slot : BitVec 2) : OpWord :=
  if slot = 0 then 0x2000000000
  else if slot = 1 then 0x2100000000
  else if slot = 2 then 0x2200000000
  else 0x2300000000

/-- `IRQ`: the operation of a presented event code, in the same transition (60_exceptions.md R174);
`0b00` is no notification and no transition (30_encoding.md R61). -/
def irqTurn (ev : EventCode) (s : State) : Result :=
  match decodeEvent ev with
  | .instr i => exec i s
  | .rejected _ => .next s

/-- The engine once it has presented a code itself: after a transfer error the spec leaves its
behaviour open, `tx_ptr` too (60_exceptions.md R189). That `txPtr` then keeps its value is a DESIGN
CHOICE (log 20), and so is that a completion code out of contract leaves mode and `txPtr` alone, the
engine going on under R186 (60_exceptions.md R190; log 21). -/
def Engine.afterEvent (ev : EventCode) (e : Engine) : Engine :=
  { e with mode := if ev = 0b11 ∧ e.mode = .streaming then .unspecified else e.mode }

/-- The engine presents an event code, and `IRQ` acts on it. -/
def eventTurn (ev : EventCode) (s : State) : Result :=
  irqTurn ev { s with engine := s.engine.afterEvent ev }

/-- `CFG`: the operation of a presented word. Every other word raises `ILLEGAL_OP`, and is ignored
while the block is halted (30_encoding.md R66). -/
def configTurn (w : OpWord) (s : State) : Result :=
  match decodeConfig w with
  | .instr i => exec i s
  | .rejected _ => unlessHalted s (raise .illegalOp s)

/-- `FG`: it fetches `SEQ_ROM[fpc]` and performs that operation (43_handoff.md R144). -/
def fgTurn (s : State) : Result :=
  match decodeSequencer (seqRom s.fpc) with
  | .instr i => exec i s
  | .rejected _ => .next s

/-- The half being transmitted (10_state.md R33). It says nothing of an engine whose `mode` is
`unspecified` (log 20). -/
def State.txHalf (s : State) : Half :=
  if s.engine.txPtr < s.halflen.toNat then .first else .second

/-- The engine's own part of `ENG.tx` (60_exceptions.md R186): the word at `tx_ptr` goes out, and
`tx_ptr` goes round the two halves. -/
def txAdvance (s : State) : State :=
  { s with
    engine :=
      { s.engine with
        txPtr := (s.engine.txPtr + 1) % (2 * s.halflen.toNat)
        stream := s.engine.stream ++ [s.transmitWord s.engine.txPtr] } }

/-- The code `ENG.tx` emits at its new `tx_ptr`, `0b00` for none (60_exceptions.md R186). -/
def boundaryEvent (halflen ptr : Nat) : EventCode :=
  if ptr = halflen then 0b01 else if ptr = 0 then 0b10 else 0b00

/-- `ENG.tx` (60_exceptions.md R186), `IRQ` acting on the code it emits in the same transition
(60_exceptions.md R174; log 11). -/
def txTurn (s : State) : Result :=
  match s.engine.mode with
  | .stopped => .next s
  | .unspecified => .refused .engineUnspecified
  | .streaming =>
    if s.engine.txPtr < bufWords s.params then
      irqTurn (boundaryEvent s.halflen.toNat (txAdvance s).engine.txPtr) (txAdvance s)
    else .fault (.noSuchBufWord s.engine.txPtr)

/-- A word transmitted by an engine whose behaviour the spec leaves open: any `tx_ptr`
(60_exceptions.md R189; log 12). The events it presents are stimuli of their own. That `txPtr` then
holds `p`, the address of the word just sent, is a DESIGN CHOICE (log 20). -/
def txAtTurn (p : Nat) (s : State) : Result :=
  match s.engine.mode with
  | .unspecified =>
    if p < bufWords s.params then
      .next { s with
        engine := { s.engine with txPtr := p, stream := s.engine.stream ++ [s.transmitWord p] } }
    else .fault (.noSuchBufWord p)
  | .stopped => .refused .engineContract
  | .streaming => .refused .engineContract

/-- One stimulus performed. -/
def perform (x : Stimulus) (s : State) : Result :=
  match x with
  | .event ev => eventTurn ev s
  | .config w => configTurn w s
  | .fg => fgTurn s
  | .tx => txTurn s
  | .txAt p => txAtTurn p s
  | .reset => .next (platformReset s)

/-- The next stimulus: the head of the schedule, and with nothing scheduled a turn of `FG`
(log 2). -/
def nextStimulus (s : State) : Stimulus := s.schedule.headD .fg

/-- The state a transition starts from: its stimulus taken, the read-data output not driven
(log 3). -/
def beginTransition (s : State) : State := { s with schedule := s.schedule.tail, rdata := none }

/-- One transition of the total order of 20_memory.md R50. -/
def transition (s : State) : Result := perform (nextStimulus s) (beginTransition s)

/-- The state in which an operation's agent is enabled and the operation is the next to be presented
or fetched: format E on the event port, the sequencer's words as the slot `fpc` selects, every other
word on the configuration port (30_encoding.md R65; log 16). -/
def place (c : Code) (s : State) : State :=
  match c with
  | .event ev => { s with fault := 0, schedule := .event ev :: s.schedule }
  | .word w =>
    match decodeSequencer w with
    | .instr _ =>
      { s with
        running := true
        fault := 0
        fpc := (opField w).extractLsb' 0 2
        schedule := .fg :: s.schedule }
    | .rejected _ =>
      match decodeConfig w with
      | .instr (.rdreg _) => { s with schedule := .config w :: s.schedule }
      | _ => { s with fault := 0, schedule := .config w :: s.schedule }

/-- The code of a number whose bits the opcode table counts (`decodeTableWord`). -/
def tableCode (nbits w : Nat) : Code :=
  if nbits ≤ 8 then .event (BitVec.ofNat 2 w) else .word (BitVec.ofNat 40 w)

end Sys2Proof.Machine
end

