-- ==== Sys2Proof/Machine/Step.lean ====
section
/-! DEFINITION. One step of the machine: one transition of the total order of 20_memory.md R50. -/

namespace Sys2Proof.Machine

/-- The step: the scheduled transition (Machine/Agents.lean). -/
def step (s : State) : Host.Outcome State Fault Refusal := transition s

/-- `s` with the operation of `nbits` bits `w` as the one the next step performs (log 16). -/
def State.withFetchWord (s : State) (nbits w : Nat) : State := place (tableCode nbits w) s

end Sys2Proof.Machine
end

