-- ==== Sys2Proof/Machine/Trace.lean ====
section
/-! DEFINITION. The trace notation of 30_encoding.md R69 and R70 as stimuli: what a test or a claim
writes to schedule an operation, and the host's duty of 40_mode_config.md R90. -/

namespace Sys2Proof.Machine

/-- The stimulus that makes an operation's agent perform it (R69): `irq:` and `cfg:` lines present
its code; an `fg:` line is a turn of the sequencer, whose slot decides the operation. -/
def Stimulus.ofInstr (i : Instr) : Stimulus :=
  match i.agent, encode i with
  | .fg, _ => .fg
  | _, .event ev => .event ev
  | _, .word w => .config w

/-- `fg: pack.all` (R70): `K*B` turns. -/
def packAll (s : State) : List Stimulus := List.replicate s.halfWords .fg

/-- The turns of `fg: refill` (R70, 43_handoff.md R150): one if the `POLL` is not taken, else
`K*B + 3`. -/
def refillTurns (s : State) : Nat := if s.req = .idle then 1 else s.halfWords + 3

/-- `fg: refill` (R70). -/
def refill (s : State) : List Stimulus := List.replicate (refillTurns s) .fg

/-- The turns a pass under way still takes (43_handoff.md R150): the rest of its `PACK`, and `GEN`
before it, and its `CLR`. -/
def turnsLeft (s : State) : Nat :=
  if s.fpc = 1 then s.halfWords + 2
  else if s.fpc = 2 then s.halfWords - s.pidx.toNat + 1
  else if s.fpc = 3 then 1
  else 0

/-- `eng: tx n` (R70); each word's event acts in its own transition. -/
def engTx (n : Nat) : List Stimulus := List.replicate n .tx

/-- `cfg: cfg.tone f` (R70): the increment is one binary32 division, made by the host from register
`rate` (40_mode_config.md R90). -/
def cfgTone (f rate : F32) : Instr := .cfgInc (fdiv f rate)

/-- The start-up order of 70_reset_and_hazards.md R202 for mode row `row` of index `m`. -/
def bootTrace (b : Nat) (m : Word) (row : ModeConfig) (w : Waveform) (f : F32) : List Stimulus :=
  [ .ofInstr (.cfgHalflen (BitVec.ofNat 32 (wordsPerSample row.depth32 * b))),
    .ofInstr (.cfgWave w),
    .ofInstr (cfgTone f row.actualSampleRate),
    .ofInstr (.start m) ]

end Sys2Proof.Machine
end

