-- ==== Sys2Proof/Safety.lean ====
section
/-! DEFINITION. What a good state and a safe run are: the invariants of 10_state.md R35, the
alternation of 70_reset_and_hazards.md R213, and the outcome 60_exceptions.md R171 asks a model to
treat as a failure. -/

namespace Sys2Proof.Machine

/-- A run that has succeeded so far: the block is not halted (60_exceptions.md R171: "a halted state
... is never a final state of a successful run"). -/
def successful (s : State) : Prop := s.fault = 0

/-- The register view by number, as the table of 10_state.md R24 writes it: what the decoding and the
register names of `RDREG` are held against. -/
def registerValue (s : State) (n : Nat) : Nat :=
  match n with
  | 0x00 => s.req.toBits.toNat
  | 0x01 => s.cap.toBits.toNat
  | 0x02 => s.fpc.toNat
  | 0x03 => s.pidx.toNat
  | 0x04 => s.phase.toNat
  | 0x05 => s.inc.toNat
  | 0x06 =>
    (if s.wave = .parabolicSine then 1 else 0) + (if s.depth32 then 2 else 0) +
      (if s.running then 4 else 0)
  | 0x07 => s.mode.toNat
  | 0x08 => s.rate.toNat
  | 0x09 => s.halflen.toNat
  | 0x0A => s.ovrCnt.toNat
  | 0x0B => s.errCnt.toNat
  | 0x0C => s.fault.toNat
  | 0x0D => s.clkp.toNat
  | _ => 0

/-- A phase: finite and `0 <= p < 1` (10_state.md R35 (d)). -/
def unitPhase (p : F32) : Bool := isFinite p && fge p F32.zero && fgt F32.one p

/-- A sample in the Packer's domain: finite and `-1 <= x <= 1` (10_state.md R35 (f)). -/
def inUnitRange (x : F32) : Bool := isFinite x && fge x F32.negOne && fge F32.one x

/-- The control invariants: 10_state.md R35 (b) and (c), and what makes `PACK` write inside `BUF`
(20_memory.md R41, R47), with the memory's canonical form and the parameters' constraints. R35 (a) is
the type of `req`. -/
structure ControlInv (s : State) : Prop where
  /-- 00_scope.md R5, 10_state.md R31. -/
  params_ok : paramsOk s.params = true
  /-- The memory's canonical form. -/
  mem_wf : Memory.wf s.mem = true
  /-- Nothing is written outside `BUF` (20_memory.md R41). -/
  mem_below : Memory.below (2 * bufWords s.params) s.mem = true
  /-- A poll pass is under way only while the block runs (43_handoff.md R144). -/
  busy_running : s.fpc ≠ 0 → s.running = true
  /-- R35 (b). -/
  busy_captured : s.fpc ≠ 0 → s.cap ≠ .idle
  /-- R35 (c): `pidx` is 0 outside `PACK`. -/
  pidx_zero : s.fpc ≠ 2 → s.pidx = 0
  /-- R35 (c): `pidx < K*B`. -/
  pidx_lt : s.pidx.toNat < s.halfWords
  /-- A `PACK` past its first step has passed the length check (42_packer.md R123). -/
  packing_length : s.pidx ≠ 0 → s.halflen.toNat = s.halfWords
  /-- `GEN` has written all of `BLK` before `PACK` reads it (10_state.md R15). -/
  blk_length : s.fpc = 2 → s.blk.length = s.params.blockSize
  /-- Codes 6 to 15 are never produced (60_exceptions.md R170). -/
  fault_code : s.fault.toNat ≤ 5
  /-- A pass serves a request that stays pending until its `CLR` (43_handoff.md R146, R149). -/
  busy_pending : s.fpc ≠ 0 → s.req ≠ .idle
  /-- The engine follows R186 only after `START` and with `halflen = K*B`, its pointer inside the two
  halves (60_exceptions.md R185, R186). -/
  engine_ok : s.engine.mode = .streaming →
    s.running = true ∧ s.halflen.toNat = s.halfWords ∧ s.engine.txPtr < 2 * s.halflen.toNat

/-- The numeric invariants: 10_state.md R35 (d), (e), (f). -/
structure NumericInv (s : State) : Prop where
  /-- R35 (d). -/
  phase_ok : unitPhase s.phase = true
  /-- R35 (e). -/
  inc_ok : s.inc = F32.zero ∨ isIncrement s.inc = true
  /-- R35 (f): what `PACK` reads. -/
  blk_ok : s.fpc = 2 → ∀ x ∈ s.blk, inUnitRange x = true

/-- A run in which every refill has met its deadline so far (70_reset_and_hazards.md R213 (a) to (d)),
after `START`, the engine free of errors. -/
structure SafeRun (s : State) : Prop where
  control : ControlInv s
  /-- The engine is error-free and follows R186. -/
  streaming : s.engine.mode = .streaming
  /-- The block is not halted. -/
  live : s.fault = 0
  /-- R213 (a): no request was lost. -/
  no_overwrite : s.ovrCnt = 0
  /-- A request for FirstHalf means the engine transmits SecondHalf (10_state.md R11). -/
  first_free : s.req = .pendingFirstHalf → s.txHalf = .second
  /-- A request for SecondHalf means the engine transmits FirstHalf (10_state.md R11). -/
  second_free : s.req = .pendingSecondHalf → s.txHalf = .first
  /-- R213 (c): a pass serves the one outstanding request. -/
  pass_serves : s.fpc ≠ 0 → s.cap = s.req
  /-- R213 (d): a request that waits for its `POLL` is for the half after the last one captured. -/
  waiting_follows : s.fpc = 0 → s.req ≠ .idle → s.req = s.cap.successor
  /-- R213 (d): with every request served, the half being transmitted is the one whose completion will
  request the half after the last one captured. -/
  served_follows : s.req = .idle → (s.txHalf = .first ↔ s.cap.successor = .pendingFirstHalf)

/-- The engine's next word crosses a half boundary (60_exceptions.md R186). -/
def crossesBoundary (s : State) : Prop :=
  boundaryEvent s.halflen.toNat (txAdvance s).engine.txPtr ≠ 0b00

/-- The premise of 70_reset_and_hazards.md R213 for one transition: a completion event comes only
from the engine's own boundary and finds the previous request served, nothing else presents an
event code, and no reset is asserted. -/
def onTime (s : State) : Prop :=
  match nextStimulus s with
  | .tx => crossesBoundary s → s.req = .idle
  | .event ev => ev = 0b00
  | .reset => False
  | .config _ => True
  | .fg => True
  | .txAt _ => True

/-! ### A run and what it has produced (70_reset_and_hazards.md R213 (d), (e); 20_memory.md R58) -/

/-- The next transition is `FG`'s, enabled, at a slot (43_handoff.md R144). -/
def fgPerforms (slot : BitVec 2) (s : State) : Bool :=
  decide (nextStimulus s = .fg ∧ s.running = true ∧ s.fault = 0 ∧ s.fpc = slot)

/-- What the transitions of a run have captured and generated, oldest first. -/
structure History where
  /-- `cap` after each taken `POLL`: the refills in order. -/
  refills : List Request
  /-- `BLK` after each `GEN`: the consecutive blocks. -/
  blocks : List (List F32)
deriving DecidableEq, Repr

/-- Nothing yet. -/
def History.empty : History := { refills := [], blocks := [] }

/-- The history after the transition from `s` to `t`. -/
def History.record (h : History) (s t : State) : History where
  refills :=
    if fgPerforms 0 s && decide (s.req ≠ .idle) then h.refills ++ [t.cap] else h.refills
  blocks := if fgPerforms 1 s then h.blocks ++ [t.blk] else h.blocks

/-- A safe run right after `START` with nothing requested or served yet (60_exceptions.md R185). -/
structure JustStarted (s : State) : Prop where
  safe : SafeRun s
  nothing_requested : s.req = .idle
  nothing_served : s.cap = .idle
  at_first_word : s.engine.txPtr = 0

/-- A run of transitions from `s`, each on time and raising no fault, with its history. -/
inductive OnTimeRun (s : State) : History → State → Prop where
  | start : OnTimeRun s .empty s
  | step {h : History} {t u : State} (run : OnTimeRun s h t) (timely : onTime t)
      (move : Sys2Proof.Machine.step t = .next u) (live : u.fault = 0) :
      OnTimeRun s (h.record t u) u

/-- How many halves have gone out since the stream held `start` words. -/
def halvesSent (start : Nat) (s : State) : Nat :=
  (s.engine.stream.length - start) / s.halflen.toNat

/-- The first word of the half that block `k` of a run goes to (R213 (d)). -/
def halfBase (k : Nat) (s : State) : Nat := if k % 2 = 0 then 0 else s.halflen.toNat

/-- How the stream, `BUF` and the blocks of a safe run hang together, `start` words having been sent
before its `START` (R213 (e)): half `k + 2` of the stream is block `k`. -/
structure StreamInv (start : Nat) (blocks : List (List F32)) (s : State) : Prop where
  started : start ≤ s.engine.stream.length
  position : s.engine.txPtr = (s.engine.stream.length - start) % (2 * s.halflen.toNat)
  /-- Every half sent has requested one block; the last may still wait for its `GEN`. -/
  counted :
    blocks.length + (if s.req ≠ .idle ∧ (s.fpc = 0 ∨ s.fpc = 1) then 1 else 0) =
      halvesSent start s
  full : ∀ b ∈ blocks, b.length = s.params.blockSize
  current : s.fpc = 2 → blocks.getLast? = some s.blk
  /-- From the third half on, what has been sent is what the blocks pack to. -/
  sent :
    s.engine.stream.drop (start + 2 * s.halflen.toNat) <+:
      blocks.flatMap (packWords s.depth32)
  /-- The half being transmitted holds the block before the last one requested. -/
  sending : ∀ k b, k + 2 = halvesSent start s → blocks[k]? = some b →
    ∀ j, j < s.halflen.toNat →
      Memory.readWord s.mem (halfBase k s + j) = (packWords s.depth32 b)[j]?
  /-- The other half holds the words of the last block that `PACK` has written so far. -/
  refilled : ∀ k b, k + 1 = halvesSent start s → blocks[k]? = some b →
    ∀ j, j < (if s.fpc = 2 then s.pidx.toNat else s.halflen.toNat) →
      Memory.readWord s.mem (halfBase k s + j) = (packWords s.depth32 b)[j]?

end Sys2Proof.Machine
end

