-- ==== Sys2Proof/Certificates/Slice0/Obligations.lean ====
section
/-! DEFINITION. The statements for the provers. Each docstring names the rule of spec/ it formalises,
or says that it is the model's own. Every statement about a state holds for every state that meets its
hypotheses, reached by a run or not. -/

open Sys2Proof Sys2Proof.Machine

/-! ### Reset -/

/-- 70_reset_and_hazards.md R200, the registers the spec gives a value: for every choice of the
parameters, and so for `State.reset`. `BLK`, `BUF` and the model's own fields are not in it. -/
def Obligations.ResetRegistersHoldSpecValues : Prop :=
  (∀ p : Params,
    (State.resetWith p).req = .idle ∧ (State.resetWith p).cap = .idle ∧
    (State.resetWith p).fpc = 0 ∧ (State.resetWith p).pidx = 0 ∧
    (State.resetWith p).phase = F32.zero ∧ (State.resetWith p).inc = F32.zero ∧
    (State.resetWith p).wave = .sawtooth ∧ (State.resetWith p).depth32 = false ∧
    (State.resetWith p).running = false ∧ (State.resetWith p).mode = 0 ∧
    (State.resetWith p).rate = F32.zero ∧ (State.resetWith p).clkp = 0 ∧
    (State.resetWith p).halflen = 0 ∧ (State.resetWith p).ovrCnt = 0 ∧
    (State.resetWith p).errCnt = 0 ∧ (State.resetWith p).fault = 0 ∧
    ∀ n : BitVec 8, (State.resetWith p).readReg (RegNum.ofBits n) = 0) ∧
  ∃ p : Params, paramsOk p = true ∧ State.reset = State.resetWith p

/-- 70_reset_and_hazards.md R200, 60_exceptions.md R173, R190: a reset the platform asserts in any
state, a halted one included, leaves every register that the spec gives a reset value at that value,
and `BUF` with no word that counts as written. The parameters of the run stay. -/
def Obligations.PlatformResetRestoresRegisters : Prop :=
  ∀ (s : State) (xs : List Stimulus), s.schedule = .reset :: xs →
    ∃ t, step s = .next t ∧ t.schedule = xs ∧ t.params = s.params ∧
      t.req = .idle ∧ t.cap = .idle ∧ t.fpc = 0 ∧ t.pidx = 0 ∧ t.phase = F32.zero ∧
      t.inc = F32.zero ∧ t.wave = .sawtooth ∧ t.depth32 = false ∧ t.running = false ∧
      t.mode = 0 ∧ t.rate = F32.zero ∧ t.clkp = 0 ∧ t.halflen = 0 ∧ t.ovrCnt = 0 ∧
      t.errCnt = 0 ∧ t.fault = 0 ∧ ∀ a, Memory.readByte t.mem a = none

/-- 10_state.md R35: the invariants hold at reset, for all parameters the spec allows and at
`State.reset`. -/
def Obligations.InvariantsHoldAtReset : Prop :=
  (∀ p : Params, paramsOk p = true →
    ControlInv (State.resetWith p) ∧ NumericInv (State.resetWith p)) ∧
  ControlInv State.reset ∧ NumericInv State.reset

/-! ### The notifications -/

/-- 43_handoff.md R141. The equation leaves every other register, `BUF` and the engine as they were;
`running` and `fpc` are not read. -/
def Obligations.EvtHalfRequestsFirstHalf : Prop :=
  decodeEvent 0b01 = .instr .evtHalf ∧
  ∀ s : State, s.fault = 0 →
    exec .evtHalf s = .next
      { s with
        req := .pendingFirstHalf
        ovrCnt :=
          if s.req ≠ .idle ∧ s.ovrCnt.toNat < 2 ^ 32 - 1 then s.ovrCnt + 1 else s.ovrCnt }

/-- 43_handoff.md R142. -/
def Obligations.EvtFullRequestsSecondHalf : Prop :=
  decodeEvent 0b10 = .instr .evtFull ∧
  ∀ s : State, s.fault = 0 →
    exec .evtFull s = .next
      { s with
        req := .pendingSecondHalf
        ovrCnt :=
          if s.req ≠ .idle ∧ s.ovrCnt.toNat < 2 ^ 32 - 1 then s.ovrCnt + 1 else s.ovrCnt }

/-- 43_handoff.md R143: the error is counted and nothing else of AHB-1 changes. -/
def Obligations.EvtErrOnlyCounts : Prop :=
  decodeEvent 0b11 = .instr .evtErr ∧
  ∀ s : State, s.fault = 0 →
    exec .evtErr s = .next
      { s with errCnt := if s.errCnt.toNat < 2 ^ 32 - 1 then s.errCnt + 1 else s.errCnt }

/-- 43_handoff.md R147, the complete transition table of `req`, and "No other operation writes
`req`". -/
def Obligations.RequestTransitionTable : Prop :=
  ∀ (i : Instr) (s t : State), s.fault = 0 → exec i s = .next t →
    (i = .evtHalf → t.req = .pendingFirstHalf) ∧
    (i = .evtFull → t.req = .pendingSecondHalf) ∧
    (i = .clr → s.running = true → s.fpc = 3 → t.req = .idle) ∧
    (i = .clr → ¬(s.running = true ∧ s.fpc = 3) → t.req = s.req) ∧
    (i ≠ .evtHalf → i ≠ .evtFull → i ≠ .clr → t.req = s.req)

/-- 43_handoff.md R149: a completion event at any point between the taken `POLL` of a pass and its
`CLR` (before `GEN`, before any `PACK` step, before `CLR`) is counted and writes its pending value; the
remaining turns of the pass serve the capture and not that value, write no byte outside the captured
half, and end with the `CLR` erasing it. A pass that still packs meets the control invariants and has
the length `PACK` asks for. -/
def Obligations.NotificationDuringRefillIsLost : Prop :=
  ∀ (s : State) (ev : EventCode) (xs : List Stimulus),
    s.running = true → s.fault = 0 → s.fpc ≠ 0 → s.req ≠ .idle →
    (s.fpc ≠ 3 → ControlInv s ∧ s.halflen.toNat = s.halfWords) →
    (ev = 0b01 ∨ ev = 0b10) →
    s.schedule = .event ev :: (List.replicate (turnsLeft s) .fg ++ xs) →
    ∃ t u, step s = .next t ∧ Host.Core.run Sys2Proof.core (turnsLeft s) t = .next u ∧
      t.req = (if ev = 0b01 then .pendingFirstHalf else .pendingSecondHalf) ∧ t.cap = s.cap ∧
      t.ovrCnt = (if s.ovrCnt.toNat < 2 ^ 32 - 1 then s.ovrCnt + 1 else s.ovrCnt) ∧
      u.req = .idle ∧ u.cap = s.cap ∧ u.fpc = 0 ∧ u.ovrCnt = t.ovrCnt ∧ u.schedule = xs ∧
      ∀ a, a < 2 * (if s.cap = .pendingFirstHalf then 0 else s.halflen.toNat) ∨
          2 * ((if s.cap = .pendingFirstHalf then 0 else s.halflen.toNat) + s.halfWords) ≤ a →
        Memory.readByte u.mem a = Memory.readByte s.mem a

/-! ### The foreground sequence -/

/-- 43_handoff.md R145, and its place in `SEQ_ROM`. Not taken, no bit of state changes. -/
def Obligations.PollCapturesPendingRequest : Prop :=
  (∀ imm : Word, decodeSequencer (opWord 0x20 imm) = .instr .poll) ∧ seqRom 0 = 0x2000000000 ∧
  ∀ s : State, s.running = true → s.fault = 0 → s.fpc = 0 →
    exec .poll s = .next (if s.req = .idle then s else { s with cap := s.req, fpc := 1 })

/-- 43_handoff.md R146, and its place in `SEQ_ROM`: the write of `Idle` is unconditional. -/
def Obligations.ClrWritesIdle : Prop :=
  (∀ imm : Word, decodeSequencer (opWord 0x23 imm) = .instr .clr) ∧ seqRom 3 = 0x2300000000 ∧
  ∀ s : State, s.running = true → s.fault = 0 → s.fpc = 3 →
    exec .clr s = .next { s with req := .idle, fpc := 0 }

/-- 41_oscillator.md R102, R106: sample `i` is the waveform at the phase after `i` advances, and the
phase after the block is the phase after `B` advances. Nothing but `BLK`, `phase` and `fpc` changes. -/
def Obligations.GenProducesBlock : Prop :=
  (∀ imm : Word, decodeSequencer (opWord 0x21 imm) = .instr .gen) ∧ seqRom 1 = 0x2100000000 ∧
  ∀ s : State, s.running = true → s.fault = 0 → s.fpc = 1 →
    ∃ t, exec .gen s = .next t ∧ t.blk.length = s.params.blockSize ∧
      (∀ i, i < s.params.blockSize →
        t.blk[i]? = some
          (match s.wave with
           | .sawtooth => saw ((fun p => wrap (fadd p s.inc))^[i] s.phase)
           | .parabolicSine => psin ((fun p => wrap (fadd p s.inc))^[i] s.phase))) ∧
      t.phase = (fun p => wrap (fadd p s.inc))^[s.params.blockSize] s.phase ∧
      t = { s with blk := t.blk, phase := t.phase, fpc := 2 }

/-- 42_packer.md R121, R122, R124, R127: one step writes word `pidx` of the packed block at
`base + pidx` and moves to the next word, or to `CLR` after the last. Every byte outside that word and
every other register stay. The hypotheses are those under which the step is inside the block and
inside `BUF`. -/
def Obligations.PackWritesOneWord : Prop :=
  (∀ imm : Word, decodeSequencer (opWord 0x22 imm) = .instr .pack) ∧ seqRom 2 = 0x2200000000 ∧
  ∀ (s : State) (K : Nat), K = (if s.depth32 then 4 else 2) →
    s.running = true → s.fault = 0 → s.fpc = 2 → Memory.wf s.mem = true →
    s.blk.length = s.params.blockSize → s.pidx.toNat < K * s.params.blockSize →
    (s.pidx = 0 → s.halflen.toNat = K * s.params.blockSize) →
    s.packAddr < 8 * s.params.blockSize →
    s.packAddr = (if s.cap = .pendingFirstHalf then 0 else s.halflen.toNat) + s.pidx.toNat ∧
    ∃ t x, exec .pack s = .next t ∧ s.blk[s.pidx.toNat / K]? = some x ∧
      Memory.readWord t.mem s.packAddr = some
        (if s.depth32 then
           (if s.pidx.toNat % 4 = 0 ∨ s.pidx.toNat % 4 = 2 then (q32 x).extractLsb' 16 16
            else (q32 x).extractLsb' 0 16)
         else q16 x) ∧
      (∀ a, a ≠ lowByteAddr s.packAddr → a ≠ highByteAddr s.packAddr →
        Memory.readByte t.mem a = Memory.readByte s.mem a) ∧
      t = { s with
            mem := t.mem
            pidx := if s.pidx.toNat + 1 = K * s.params.blockSize then 0 else s.pidx + 1
            fpc := if s.pidx.toNat + 1 = K * s.params.blockSize then 3 else 2 }

/-- 42_packer.md R123: a wrong `halflen` at the first step raises `BAD_LENGTH`; `fpc`, `pidx`, `req`
and `BUF` stay. -/
def Obligations.PackChecksLength : Prop :=
  ∀ s : State, s.running = true → s.fault = 0 → s.fpc = 2 → s.pidx = 0 →
    s.halflen.toNat ≠ (if s.depth32 then 4 else 2) * s.params.blockSize →
    exec .pack s = .next { s with fault := 2 }

/-- The model's own stop (log 10): an index outside the packed block is no step of `PACK`. No state
that meets the invariants has one. -/
def Obligations.PackStopsOutsideBlock : Prop :=
  ∀ s : State, s.running = true → s.fault = 0 → s.fpc = 2 →
    (if s.depth32 then 4 else 2) * s.params.blockSize ≤ s.pidx.toNat → s.pidx ≠ 0 →
    exec .pack s = .fault (.noSuchSample s.pidx.toNat)

/-- 43_handoff.md R144: when `running = 0` or `fault != 0`, `FG` has no transition, whichever operation
`SEQ_ROM` names; and an operation outside its slot does nothing. -/
def Obligations.SequencerNeedsRunningAndSlot : Prop :=
  (∀ s : State, s.running = false ∨ s.fault ≠ 0 → fgTurn s = .next s) ∧
  ∀ (i : Instr) (s : State), i.agent = .fg →
    decodeSequencer (seqRom s.fpc) ≠ .instr i → exec i s = .next s

/-- 43_handoff.md R150: a taken poll pass with nothing else scheduled is `K*B + 3` turns and ends with
`req = Idle`, `cap` the request, the named half holding the packed new block, the phase advanced by
one block, and everything else unchanged. -/
def Obligations.PollPassRefillsHalf : Prop :=
  ∀ s : State, ControlInv s → s.running = true → s.fault = 0 → s.fpc = 0 → s.req ≠ .idle →
    s.halflen.toNat = s.halfWords → s.schedule = [] →
    ∃ t, Host.Core.run Sys2Proof.core (s.halfWords + 3) s = .next t ∧
      t = { s with
            req := .idle
            cap := s.req
            blk := genSamples s.wave s.inc s.params.blockSize s.phase
            phase := phaseAfter s.inc s.params.blockSize s.phase
            mem := t.mem
            rdata := none } ∧
      (∀ n, n < s.halfWords →
        Memory.readWord t.mem ((if s.req = .pendingFirstHalf then 0 else s.halflen.toNat) + n) =
          packWord (genSamples s.wave s.inc s.params.blockSize s.phase) s.depth32 n) ∧
      ∀ a, a < 2 * (if s.req = .pendingFirstHalf then 0 else s.halflen.toNat) ∨
          2 * ((if s.req = .pendingFirstHalf then 0 else s.halflen.toNat) + s.halfWords) ≤ a →
        Memory.readByte t.mem a = Memory.readByte s.mem a

/-! ### The configuration port -/

/-- 40_mode_config.md R84, 60_exceptions.md R176: `START` latches its row and starts the engine at
word 0; a second `START` raises `BAD_STATE`, tested first; an index outside the table raises
`BAD_MODE`. With `halflen = K*B` the engine then follows R186 (60_exceptions.md R185). That this holds also
of an engine a reset left open is the model's choice (log 12), and so is that the stream of words sent goes
on over a `START` (log 11). -/
def Obligations.StartLatchesMode : Prop :=
  (∀ m : Word, decodeConfig (opWord 0x10 m) = .instr (.start m)) ∧
  ∀ (s : State) (m : Word), s.fault = 0 →
    (s.running = true → exec (.start m) s = .next { s with fault := 5 }) ∧
    (s.running = false → s.params.modeTable.length ≤ m.toNat →
      exec (.start m) s = .next { s with fault := 1 }) ∧
    (s.running = false → ∀ row, s.params.modeTable[m.toNat]? = some row →
      ∃ e : Engine, e.txPtr = 0 ∧ e.stream = s.engine.stream ∧
        (s.halflen.toNat = (if row.depth32 then 4 else 2) * s.params.blockSize →
          e.mode = .streaming) ∧
        exec (.start m) s = .next
          { s with
            mode := m
            depth32 := row.depth32
            rate := row.actualSampleRate
            clkp := row.clockParams
            running := true
            engine := e })

/-- 40_mode_config.md R86: the increment is written if it is finite and greater than zero, else
`BAD_OPERAND` is raised; legal before and after `START`. -/
def Obligations.CfgIncChecksIncrement : Prop :=
  (∀ x : F32, decodeConfig (opWord 0x11 x) = .instr (.cfgInc x)) ∧
  ∀ (s : State) (x : F32), s.fault = 0 →
    exec (.cfgInc x) s = .next
      (if isFinite x = true ∧ fgt x F32.zero = true then { s with inc := x }
       else { s with fault := 4 })

/-- 40_mode_config.md R86, the accepted patterns by number: `0x00000001` to `0x7F7FFFFF` and no
other. -/
def Obligations.IncrementPatternsAccepted : Prop :=
  ∀ (s : State) (x : F32), s.fault = 0 →
    (1 ≤ x.toNat ∧ x.toNat ≤ 0x7F7FFFFF → exec (.cfgInc x) s = .next { s with inc := x }) ∧
    (¬(1 ≤ x.toNat ∧ x.toNat ≤ 0x7F7FFFFF) → exec (.cfgInc x) s = .next { s with fault := 4 })

/-- 40_mode_config.md R87: `wave` takes `imm[0]`, the other bits of `imm` are ignored, and `phase` is
not touched. -/
def Obligations.CfgWaveSelectsStrategy : Prop :=
  ∀ imm : Word, ∃ w : Waveform,
    decodeConfig (opWord 0x12 imm) = .instr (.cfgWave w) ∧
    (w = .sawtooth ↔ imm.getLsbD 0 = false) ∧
    ∀ s : State, s.fault = 0 → exec (.cfgWave w) s = .next { s with wave := w }

/-- 40_mode_config.md R88: any length is accepted before `START`; after it, `BAD_STATE`. -/
def Obligations.CfgHalflenBeforeStartOnly : Prop :=
  (∀ n : Word, decodeConfig (opWord 0x13 n) = .instr (.cfgHalflen n)) ∧
  ∀ (s : State) (n : Word), s.fault = 0 →
    exec (.cfgHalflen n) s = .next
      (if s.running then { s with fault := 5 } else { s with halflen := n })

/-- 40_mode_config.md R89, 10_state.md R24: `RDREG` drives the value the register table gives
`imm[7:0]` (a number not in the table reads 0), ignores `imm[31:8]`, writes no state, and executes while
the block is halted too. -/
def Obligations.RdregReadsRegisterTable : Prop :=
  ∀ imm : Word, ∃ r : RegNum,
    decodeConfig (opWord 0x14 imm) = .instr (.rdreg r) ∧
    ∀ s : State, ∃ v : Word, exec (.rdreg r) s = .next { s with rdata := some v } ∧
      v.toNat = registerValue s (imm.toNat % 256)

/-! ### Faults and the halted state -/

/-- 60_exceptions.md R171: while `fault != 0` every operation but `RDREG` is ignored, every event code,
every configuration word but `RDREG`'s, legal or not, and every turn of `FG`. -/
def Obligations.HaltedBlockIgnoresOperations : Prop :=
  ∀ s : State, s.fault ≠ 0 →
    (∀ i : Instr, (∀ r, i ≠ .rdreg r) → exec i s = .next s) ∧
    (∀ ev : EventCode, irqTurn ev s = .next s) ∧
    (∀ w : OpWord, opField w ≠ 0x14 → configTurn w s = .next s) ∧
    fgTurn s = .next s

/-- 60_exceptions.md R170, R171: an operation that writes `fault` writes nothing else, does so only
when there was no fault, and only with the cause, and in the case, of R170's table. -/
def Obligations.FaultsArePreciseAndByTable : Prop :=
  ∀ (i : Instr) (s t : State), exec i s = .next t → t.fault ≠ s.fault →
    s.fault = 0 ∧ t = { s with fault := t.fault } ∧
    ((t.fault = 1 ∧ ∃ m, i = .start m ∧ s.running = false ∧
        s.params.modeTable.length ≤ m.toNat) ∨
     (t.fault = 2 ∧ i = .pack ∧ s.fpc = 2 ∧ s.pidx = 0 ∧ s.halflen.toNat ≠ s.halfWords) ∨
     (t.fault = 4 ∧ ∃ x, i = .cfgInc x ∧ ¬(isFinite x = true ∧ fgt x F32.zero = true)) ∨
     (t.fault = 5 ∧ s.running = true ∧ ((∃ m, i = .start m) ∨ ∃ n, i = .cfgHalflen n)))

/-- 30_encoding.md R66: a configuration word whose `op` is not `0x10` to `0x14` raises `ILLEGAL_OP` and
changes nothing else; a halted block ignores it. -/
def Obligations.IllegalWordRaisesIllegalOp : Prop :=
  ∀ (s : State) (w : OpWord) (xs : List Stimulus), s.schedule = .config w :: xs →
    opField w ≠ 0x10 → opField w ≠ 0x11 → opField w ≠ 0x12 → opField w ≠ 0x13 →
    opField w ≠ 0x14 →
    step s = .next
      { s with
        fault := if s.fault = 0 then 3 else s.fault
        schedule := xs
        rdata := none }

/-- 60_exceptions.md R173, 10_state.md R35 (g) and (h): once non-zero, `fault` is changed only by
reset, and so is `running`, once 1. -/
def Obligations.FaultAndRunningAreSticky : Prop :=
  ∀ s t : State, nextStimulus s ≠ .reset → step s = .next t →
    (s.fault ≠ 0 → t.fault = s.fault) ∧ (s.running = true → t.running = true)

/-! ### The transition -/

/-- A word on the configuration port that decodes runs as its operation; the step takes the stimulus
and leaves the read-data output undriven (log 2, log 3). -/
def Obligations.StepRunsConfigurationWord : Prop :=
  ∀ (s : State) (w : OpWord) (i : Instr) (xs : List Stimulus),
    s.schedule = .config w :: xs → decodeConfig w = .instr i →
    i.wf = true ∧ step s = exec i { s with schedule := xs, rdata := none }

/-- A presented event code that decodes runs as its operation, in the same transition
(60_exceptions.md R174); after an error of its own the engine's behaviour is open (R189, log 12), and
that its `txPtr` is left as it was is the model's choice (log 20). So is that a completion code leaves
the engine as it was, in contract or out of it (log 21). -/
def Obligations.StepRunsEventCode : Prop :=
  ∀ (s : State) (ev : EventCode) (i : Instr) (xs : List Stimulus),
    s.schedule = .event ev :: xs → decodeEvent ev = .instr i →
    step s = exec i
      { s with
        schedule := xs
        rdata := none
        engine :=
          { s.engine with
            mode :=
              if i = .evtErr ∧ s.engine.mode = .streaming then .unspecified
              else s.engine.mode } }

/-- 43_handoff.md R144: a turn of `FG`, scheduled or with nothing scheduled (log 2), runs the operation
of `SEQ_ROM[fpc]`: `POLL`, `GEN`, `PACK`, `CLR` at 0, 1, 2, 3. -/
def Obligations.StepRunsSequencerSlot : Prop :=
  ∀ s : State, (s.schedule = [] ∨ ∃ xs, s.schedule = .fg :: xs) →
    (s.fpc = 0 → step s = exec .poll { s with schedule := s.schedule.tail, rdata := none }) ∧
    (s.fpc = 1 → step s = exec .gen { s with schedule := s.schedule.tail, rdata := none }) ∧
    (s.fpc = 2 → step s = exec .pack { s with schedule := s.schedule.tail, rdata := none }) ∧
    (s.fpc = 3 → step s = exec .clr { s with schedule := s.schedule.tail, rdata := none })

/-- The placing of a table word (log 16): whatever the state, the next step runs the operation the word
decodes to, on the placed state less its stimulus. Of the engine nothing is said for `EVT.ERR`; that a
placed `EVT.HALF` or `EVT.FULL` leaves it as it was is the model's choice too (log 21). -/
def Obligations.PlacedTableWordRunsNext : Prop :=
  ∀ (s : State) (nbits w : Nat) (i : Instr), decodeTableWord nbits w = some i →
    ∃ e : Engine, (i ≠ .evtErr → e = s.engine) ∧
      step (s.withFetchWord nbits w) =
        exec i { (s.withFetchWord nbits w) with
                 schedule := s.schedule, rdata := none, engine := e }

/-! ### Encoding -/

/-- 30_encoding.md R61 to R64: decoding the encoding of a well-formed operation gives it back, with
every operand at every value its field admits. -/
def Obligations.DecodeEncodeRoundTrip : Prop :=
  ∀ i : Instr, i.wf = true → decode (encode i) = .instr i

/-- 30_encoding.md R63, R64: what a word decodes to is well-formed and encodes back to the word with
the ignored bits of its operation cleared; no two operations share a word. -/
def Obligations.EncodeDecodeClearsIgnoredBits : Prop :=
  ∀ (w : OpWord) (i : Instr), decodeWord w = .instr i →
    i.wf = true ∧
    encode i = .word
      (if opField w = 0x12 then w &&& 0xFF00000001#40
       else if opField w = 0x14 then w &&& 0xFF000000FF#40
       else if (opField w).toNat < 0x20 then w
       else w &&& 0xFF00000000#40)

/-- 30_encoding.md R64, R65, R66: which words a port accepts. -/
def Obligations.PortsAcceptTheirOperations : Prop :=
  ∀ w : OpWord,
    ((∃ i, decodeConfig w = .instr i) ↔ 0x10 ≤ (opField w).toNat ∧ (opField w).toNat ≤ 0x14) ∧
    ((∃ i, decodeSequencer w = .instr i) ↔
      0x20 ≤ (opField w).toNat ∧ (opField w).toNat ≤ 0x23)

/-- Words written out in 95_test_vectors.md V5.1 decode to the operations it names. -/
def Obligations.SpecWordsDecode : Prop :=
  decodeWord 0x1300000200 = .instr (.cfgHalflen 512) ∧
  decodeWord 0x113C162FC9 = .instr (.cfgInc 0x3C162FC9) ∧
  decodeWord 0x12FFFFFFFE = .instr (.cfgWave .sawtooth) ∧
  decodeWord 0x140000000C = .instr (.rdreg .fault) ∧
  decodeWord 0x1000000002 = .instr (.start 2) ∧
  decodeWord 0x2200000000 = .instr .pack ∧
  decodeEvent 0b10 = .instr .evtFull

/-! ### Ownership and invariants -/

/-- 10_state.md R36: what each agent's operations may write. `IRQ` writes `req` only to a pending value
and alone counts; `FG` writes `req` only to `Idle`; `CFG` alone writes the configuration. -/
def Obligations.SingleWriterDiscipline : Prop :=
  ∀ (i : Instr) (s t : State), exec i s = .next t →
    (i.agent = .irq →
      t = { s with req := t.req, ovrCnt := t.ovrCnt, errCnt := t.errCnt } ∧
      (t.req = s.req ∨ t.req = .pendingFirstHalf ∨ t.req = .pendingSecondHalf)) ∧
    (i.agent = .fg →
      t = { s with
            req := t.req, cap := t.cap, fpc := t.fpc, pidx := t.pidx, blk := t.blk,
            phase := t.phase, mem := t.mem, fault := t.fault } ∧
      (t.req = s.req ∨ t.req = .idle)) ∧
    (i.agent = .cfg →
      t = { s with
            inc := t.inc, wave := t.wave, depth32 := t.depth32, running := t.running,
            mode := t.mode, rate := t.rate, clkp := t.clkp, halflen := t.halflen,
            fault := t.fault, rdata := t.rdata, engine := t.engine })

/-- 10_state.md R36, 20_memory.md R57: over one step, only `PACK` and a reset write `BUF`: every byte
reads as before unless the turn is `FG`'s at slot 2 or a reset. -/
def Obligations.OnlyPackWritesBuf : Prop :=
  ∀ s t : State, step s = .next t → nextStimulus s ≠ .reset →
    ¬(nextStimulus s = .fg ∧ s.fpc = 2) →
    ∀ a, Memory.readByte t.mem a = Memory.readByte s.mem a

/-- 10_state.md R31, R34: the parameters are constants of a run. -/
def Obligations.ParametersAreConstant : Prop :=
  ∀ s t : State, step s = .next t → t.params = s.params

/-- The memory's canonical form (log 5, log 6) is kept by every step. -/
def Obligations.StepKeepsMemoryCanonical : Prop :=
  ∀ s t : State, Memory.wf s.mem = true → step s = .next t → Memory.wf t.mem = true

/-- 10_state.md R35 (b), (c), with what the model adds to make them inductive: every step keeps the
control invariants. -/
def Obligations.StepKeepsControlInvariant : Prop :=
  ∀ s t : State, ControlInv s → step s = .next t → ControlInv t

/-- 10_state.md R35 (d), (e), (f), 41_oscillator.md R107, R108: every step keeps the phase in `[0, 1)`,
the increment zero or finite and positive, and the block within `[-1, 1]`; no NaN and no infinity ever
appears. -/
def Obligations.StepKeepsNumericInvariant : Prop :=
  ∀ s t : State, NumericInv s → step s = .next t → NumericInv t

/-- 20_memory.md R47: from a state that meets the control invariants every transition of AHB-1's
agents, of an engine that follows its contract, and of the platform answers a next state. What can stop
is a move of the engine alone (log 10, log 12), said exactly: `tx` of an engine whose behaviour is open,
a word out of contract, and a word of an open engine from outside `BUF`. -/
def Obligations.InvariantStatesStopOnlyAtOpenEngineMoves : Prop :=
  ∀ s : State, ControlInv s →
    (∃ t, step s = .next t) ∨
    (nextStimulus s = .tx ∧ s.engine.mode = .unspecified ∧
      step s = .refused .engineUnspecified) ∨
    ∃ p, nextStimulus s = .txAt p ∧
      ((s.engine.mode ≠ .unspecified ∧ step s = .refused .engineContract) ∨
       (s.engine.mode = .unspecified ∧ 8 * s.params.blockSize ≤ p ∧
         step s = .fault (.noSuchBufWord p)))

/-- 70_reset_and_hazards.md R213 (a), (c), (d): while every refill meets its deadline and no fault is
raised, no request is lost, the flag, the capture and the half being transmitted stay in step, and each
request is for the half after the one last captured. -/
def Obligations.OnTimeStepKeepsSafeRun : Prop :=
  ∀ s t : State, SafeRun s → onTime s → step s = .next t → t.fault = 0 → SafeRun t

/-- 70_reset_and_hazards.md R213 (b), the central invariant: in a safe run a `PACK` step writes no
byte of the half being transmitted. -/
def Obligations.SafePackSparesTransmittedHalf : Prop :=
  ∀ s t : State, SafeRun s → s.fpc = 2 → exec .pack s = .next t →
    ∀ a, (if s.txHalf = .first then a < s.halflen.toNat
          else s.halflen.toNat ≤ a ∧ a < 2 * s.halflen.toNat) →
      Memory.readWord t.mem a = Memory.readWord s.mem a

/-- 60_exceptions.md R185: a first `START` with `halflen = K*B` begins a safe run, with nothing
requested and the engine at word 0. -/
def Obligations.StartBeginsSafeRun : Prop :=
  ∀ (s : State) (m : Word) (row : ModeConfig), ControlInv s → s.fault = 0 → s.running = false →
    s.req = .idle → s.cap = .idle → s.ovrCnt = 0 → s.params.modeTable[m.toNat]? = some row →
    s.halflen.toNat = (if row.depth32 then 4 else 2) * s.params.blockSize →
    ∃ t, exec (.start m) s = .next t ∧ JustStarted t ∧
      StreamInv s.engine.stream.length [] t

/-- 70_reset_and_hazards.md R213 (d): in a run of transitions on time from `START`, the captured
requests alternate FirstHalf, SecondHalf, FirstHalf, .... -/
def Obligations.RefillsAlternateInSafeRun : Prop :=
  ∀ (s t : State) (h : History), JustStarted s → OnTimeRun s h t →
    ∀ i r, h.refills[i]? = some r →
      r = if i % 2 = 0 then .pendingFirstHalf else .pendingSecondHalf

/-- 70_reset_and_hazards.md R213 (e), 20_memory.md R58: every transition on time keeps what ties the
stream, `BUF` and the consecutive blocks together. -/
def Obligations.OnTimeStepKeepsStreamInvariant : Prop :=
  ∀ (start : Nat) (h : History) (s t : State), SafeRun s → StreamInv start h.blocks s → onTime s →
    step s = .next t → t.fault = 0 → StreamInv start (h.record s t).blocks t

/-- 70_reset_and_hazards.md R213 (e), 20_memory.md R58: in a run of transitions on time from `START`,
what the engine has sent from the third half on is the beginning of the concatenated `pack_words` of
the consecutive blocks `GEN` has produced. -/
def Obligations.SafeRunStreamsConsecutiveBlocks : Prop :=
  ∀ (s t : State) (h : History), JustStarted s → OnTimeRun s h t →
    t.engine.stream.drop (s.engine.stream.length + 2 * s.halflen.toNat) <+:
      h.blocks.flatMap (packWords s.depth32)

/-- 70_reset_and_hazards.md R213, last sentence, R210, R211: without the premise the properties fail.
In a safe run the engine crosses its boundary while a pass is still at `PACK`: the request is counted as
lost, and the pass's next `PACK` step writes a word of the half now being transmitted, with no fault. -/
def Obligations.LateRefillBreaksSafeRun : Prop :=
  ∃ s t u : State, SafeRun s ∧ s.fpc = 2 ∧ nextStimulus s = .tx ∧ crossesBoundary s ∧ ¬onTime s ∧
    step s = .next t ∧ t.fault = 0 ∧ t.ovrCnt = 1 ∧ t.txHalf = .first ∧
    t.fpc = 2 ∧ nextStimulus t = .fg ∧ t.packAddr < t.halflen.toNat ∧
    step t = .next u ∧ u.fault = 0 ∧
    Memory.readWord u.mem t.packAddr ≠ Memory.readWord t.mem t.packAddr

/-! ### The engine -/

/-- 60_exceptions.md R186: one word goes out from `tx_ptr`, which then goes round the two halves; at
`halflen` `EVT.HALF` acts, at 0 `EVT.FULL`, in the same transition (log 11). The word of a written
address is what `BUF` holds. -/
def Obligations.EngineTransmitsAndNotifies : Prop :=
  ∀ (s : State) (xs : List Stimulus), s.schedule = .tx :: xs → s.engine.mode = .streaming →
    0 < s.halflen.toNat → s.engine.txPtr < 2 * s.halflen.toNat →
    2 * s.halflen.toNat ≤ 8 * s.params.blockSize →
    ∃ (w : RawWord) (u : State),
      (∀ v, Memory.readWord s.mem s.engine.txPtr = some v → w = v) ∧
      u = { s with
            schedule := xs
            rdata := none
            engine :=
              { mode := .streaming
                txPtr := (s.engine.txPtr + 1) % (2 * s.halflen.toNat)
                stream := s.engine.stream ++ [w] } } ∧
      (u.engine.txPtr = s.halflen.toNat → step s = exec .evtHalf u) ∧
      (u.engine.txPtr = 0 → step s = exec .evtFull u) ∧
      (u.engine.txPtr ≠ s.halflen.toNat → u.engine.txPtr ≠ 0 → step s = .next u)

/-- 60_exceptions.md R186: exactly `halflen` words lie between consecutive completion events. The
engine alone, started at the head of a half, sends the half's words. Before its last word no event
acts: after each `n < halflen` words `req` and both counters are as they were and `tx_ptr` has moved
by `n`. With its last word one event acts: `EVT.HALF` after FirstHalf, `EVT.FULL` after SecondHalf. -/
def Obligations.OneEventPerHalfTransmitted : Prop :=
  ∀ (s : State) (xs : List Stimulus), s.engine.mode = .streaming → s.fault = 0 →
    0 < s.halflen.toNat → 2 * s.halflen.toNat ≤ 8 * s.params.blockSize →
    s.schedule = List.replicate s.halflen.toNat .tx ++ xs →
    (s.engine.txPtr = 0 ∨ s.engine.txPtr = s.halflen.toNat) →
    (∀ n, n < s.halflen.toNat →
      ∃ u, Host.Core.run Sys2Proof.core n s = .next u ∧ u.req = s.req ∧ u.ovrCnt = s.ovrCnt ∧
        u.errCnt = s.errCnt ∧ u.engine.txPtr = s.engine.txPtr + n ∧
        u.engine.stream.length = s.engine.stream.length + n) ∧
    ∃ t, Host.Core.run Sys2Proof.core s.halflen.toNat s = .next t ∧ t.schedule = xs ∧
      t.engine.stream.length = s.engine.stream.length + s.halflen.toNat ∧
      t.ovrCnt = (if s.req ≠ .idle ∧ s.ovrCnt.toNat < 2 ^ 32 - 1 then s.ovrCnt + 1
                  else s.ovrCnt) ∧
      (s.engine.txPtr = 0 →
        t.req = .pendingFirstHalf ∧ t.engine.txPtr = s.halflen.toNat) ∧
      (s.engine.txPtr = s.halflen.toNat →
        t.req = .pendingSecondHalf ∧ t.engine.txPtr = 0)

/-! ### Arithmetic -/

/-- 00_scope.md R8 `fadd`. Below half a unit beyond the largest finite magnitude,
`(2^25 - 1) * 2^252` in units of `2^-149`, the sum is finite, no finite binary32 value is nearer the
exact sum, and where another is as near the result has an even last fraction bit. From there on, where
the rounded magnitude exceeds the largest finite one, it is the infinity of the exact sum's sign. -/
def Obligations.AdditionIsCorrectlyRounded : Prop :=
  ∀ a b : F32, isFinite a = true → isFinite b = true →
    (|scaled a + scaled b| < (2 ^ 25 - 1) * 2 ^ 252 →
      isFinite (fadd a b) = true ∧
      ∀ c : F32, isFinite c = true →
        |scaled (fadd a b) - (scaled a + scaled b)| ≤ |scaled c - (scaled a + scaled b)| ∧
        (|scaled (fadd a b) - (scaled a + scaled b)| = |scaled c - (scaled a + scaled b)| →
          scaled c ≠ scaled (fadd a b) → (fadd a b).getLsbD 0 = false)) ∧
    ((2 ^ 25 - 1) * 2 ^ 252 ≤ |scaled a + scaled b| →
      fadd a b = if scaled a + scaled b < 0 then 0xFF800000#32 else 0x7F800000#32)

/-- 00_scope.md R8 `fmul`, in units of `2^-298`: nearest, ties to even, and the infinity of the exact
product's sign from half a unit beyond the largest finite magnitude. -/
def Obligations.MultiplicationIsCorrectlyRounded : Prop :=
  ∀ a b : F32, isFinite a = true → isFinite b = true →
    (|scaled a * scaled b| < (2 ^ 25 - 1) * 2 ^ 252 * 2 ^ 149 →
      isFinite (fmul a b) = true ∧
      ∀ c : F32, isFinite c = true →
        |scaled (fmul a b) * 2 ^ 149 - scaled a * scaled b| ≤
          |scaled c * 2 ^ 149 - scaled a * scaled b| ∧
        (|scaled (fmul a b) * 2 ^ 149 - scaled a * scaled b| =
            |scaled c * 2 ^ 149 - scaled a * scaled b| →
          scaled c ≠ scaled (fmul a b) → (fmul a b).getLsbD 0 = false)) ∧
    ((2 ^ 25 - 1) * 2 ^ 252 * 2 ^ 149 ≤ |scaled a * scaled b| →
      fmul a b = if scaled a * scaled b < 0 then 0xFF800000#32 else 0x7F800000#32)

/-- 00_scope.md R8 `fdiv` by a non-zero value, which the host uses (40_mode_config.md R90), cleared of
the division: nearest, ties to even (a subnormal quotient can be one), and the infinity of the exact
quotient's sign from half a unit beyond the largest finite magnitude. -/
def Obligations.DivisionIsCorrectlyRounded : Prop :=
  ∀ a b : F32, isFinite a = true → isFinite b = true → scaled b ≠ 0 →
    (|scaled a * 2 ^ 149| < (2 ^ 25 - 1) * 2 ^ 252 * |scaled b| →
      isFinite (fdiv a b) = true ∧
      ∀ c : F32, isFinite c = true →
        |scaled (fdiv a b) * scaled b - scaled a * 2 ^ 149| ≤
          |scaled c * scaled b - scaled a * 2 ^ 149| ∧
        (|scaled (fdiv a b) * scaled b - scaled a * 2 ^ 149| =
            |scaled c * scaled b - scaled a * 2 ^ 149| →
          scaled c ≠ scaled (fdiv a b) → (fdiv a b).getLsbD 0 = false)) ∧
    ((2 ^ 25 - 1) * 2 ^ 252 * |scaled b| ≤ |scaled a * 2 ^ 149| →
      fdiv a b = if scaled a * scaled b < 0 then 0xFF800000#32 else 0x7F800000#32)

/-- 41_oscillator.md R105: the wrap is exact, lies in `[0, 1)`, is never `-0.0`, and is `+0.0` when
the argument is integral. -/
def Obligations.WrapIsFractionalPart : Prop :=
  ∀ q : F32, isFinite q = true → 0 ≤ scaled q →
    isFinite (wrap q) = true ∧ scaled (wrap q) = scaled q % 2 ^ 149 ∧
    wrap q ≠ 0x80000000#32 ∧ (2 ^ 149 ∣ scaled q → wrap q = F32.zero)

/-- 41_oscillator.md R103, R104, R107: at every phase in `[0, 1)` either strategy gives a finite sample
within `[-1, 1]`, the sawtooth less than 1. -/
def Obligations.SamplesStayInRange : Prop :=
  ∀ p : F32, unitPhase p = true →
    inUnitRange (saw p) = true ∧ fgt F32.one (saw p) = true ∧ inUnitRange (psin p) = true

/-- 41_oscillator.md R109: with the reset increment `+0.0` a `GEN` fills `BLK` with one sample and
leaves the phase. -/
def Obligations.GenWithZeroIncrementIsConstant : Prop :=
  ∀ s : State, s.running = true → s.fault = 0 → s.fpc = 1 → s.inc = F32.zero →
    s.phase.toNat < 0x3F800000 →
    exec .gen s = .next
      { s with
        blk := List.replicate s.params.blockSize
          (match s.wave with
           | .sawtooth => saw s.phase
           | .parabolicSine => psin s.phase)
        fpc := 2 }

/-- 41_oscillator.md R111: for a finite increment of at least `2^24` the phase is `+0.0` after the first
advance. -/
def Obligations.LargeIncrementClearsPhase : Prop :=
  ∀ p inc : F32, unitPhase p = true → isFinite inc = true → fge inc 0x4B800000#32 = true →
    wrap (fadd p inc) = F32.zero

/-- 42_packer.md R125, R128: for a sample in `[-1, 1]` the 16-bit word read as a signed integer is the
exact scaled value cut toward zero, in `-32767 .. 32767`. -/
def Obligations.Quantizer16TruncatesTowardZero : Prop :=
  ∀ x : F32, inUnitRange x = true →
    |(q16 x).toInt| ≤ 32767 ∧
    |(q16 x).toInt| * 2 ^ 149 ≤ |scaled x * 32767| ∧
    |scaled x * 32767| < (|(q16 x).toInt| + 1) * 2 ^ 149 ∧
    0 ≤ (q16 x).toInt * scaled x

/-- 42_packer.md R126, R128: the same of the 32-bit word, in `-2147483647 .. 2147483647`. -/
def Obligations.Quantizer32TruncatesTowardZero : Prop :=
  ∀ x : F32, inUnitRange x = true →
    |(q32 x).toInt| ≤ 2147483647 ∧
    |(q32 x).toInt| * 2 ^ 149 ≤ |scaled x * 2147483647| ∧
    |scaled x * 2147483647| < (|(q32 x).toInt| + 1) * 2 ^ 149 ∧
    0 ≤ (q32 x).toInt * scaled x

/-- 42_packer.md R129: outside `[-1, 1]` nothing is clamped: the truncated integer is kept modulo the
word size. -/
def Obligations.QuantizersWrapWithoutClamp : Prop :=
  ∀ x : F32, isFinite x = true →
    ∃ z16 z32 : Int,
      (|z16| * 2 ^ 149 ≤ |scaled x * 32767| ∧ |scaled x * 32767| < (|z16| + 1) * 2 ^ 149 ∧
        0 ≤ z16 * scaled x ∧ ((q16 x).toNat : Int) = z16 % 2 ^ 16) ∧
      (|z32| * 2 ^ 149 ≤ |scaled x * 2147483647| ∧
        |scaled x * 2147483647| < (|z32| + 1) * 2 ^ 149 ∧
        0 ≤ z32 * scaled x ∧ ((q32 x).toNat : Int) = z32 % 2 ^ 32)
end

