-- ==== Sys2Proof/Laws/Binary32.lean ====
section
/-! SUPPORT. What the rounding of Machine/Binary32.lean does, said once: the value of a magnitude, its
order, rounding's exactness, monotonicity and error. -/

namespace Sys2Proof.Machine

/-! ### Values of magnitudes -/

/-- A magnitude is its exponent field and its fraction field. -/
theorem mag_split (b : Nat) : b = b / 2 ^ 23 * 2 ^ 23 + b % 2 ^ 23 := by omega

theorem magValue_subnormal {b : Nat} (h : b < 2 ^ 23) : magValue b = b := by
  have h0 : b / 2 ^ 23 = 0 := by omega
  rw [magValue, if_pos h0]; omega

theorem magValue_normal {b : Nat} (h : 2 ^ 23 ≤ b) :
    magValue b = (2 ^ 23 + b % 2 ^ 23) * 2 ^ (b / 2 ^ 23 - 1) := by
  have h0 : b / 2 ^ 23 ≠ 0 := by omega
  rw [magValue, if_neg h0]

/-- A significand `m` at the exponent `e` above the unit is the magnitude `e * 2^23 + m`. -/
theorem magValue_significand {e m : Nat} (hm : m ≤ 2 ^ 24) (he : e ≠ 0 → 2 ^ 23 ≤ m) :
    magValue (e * 2 ^ 23 + m) = m * 2 ^ e := by
  by_cases hlt : m < 2 ^ 23
  · have he0 : e = 0 := by by_contra h; exact absurd (he h) (by omega)
    subst he0
    rw [show 0 * 2 ^ 23 + m = m by omega, magValue_subnormal hlt]; simp
  · rw [magValue_normal (by omega)]
    by_cases htop : m = 2 ^ 24
    · have h1 : (e * 2 ^ 23 + m) / 2 ^ 23 = e + 2 := by omega
      have h2 : (e * 2 ^ 23 + m) % 2 ^ 23 = 0 := by omega
      rw [h1, h2, htop, show e + 2 - 1 = e + 1 by omega, pow_succ]; ring
    · have h1 : (e * 2 ^ 23 + m) / 2 ^ 23 = e + 1 := by omega
      have h2 : (e * 2 ^ 23 + m) % 2 ^ 23 = m - 2 ^ 23 := by omega
      rw [h1, h2, show e + 1 - 1 = e by omega, show 2 ^ 23 + (m - 2 ^ 23) = m by omega]

/-- Every magnitude is a significand of at most 24 bits at an exponent above the unit. -/
theorem magnitude_significand (b : Nat) :
    ∃ e m, b = e * 2 ^ 23 + m ∧ m < 2 ^ 24 ∧ (e ≠ 0 → 2 ^ 23 ≤ m) ∧ magValue b = m * 2 ^ e := by
  by_cases h : b < 2 ^ 23
  · exact ⟨0, b, by omega, by omega, by simp, by rw [magValue_subnormal h]; simp⟩
  · have hb : b = (b / 2 ^ 23 - 1) * 2 ^ 23 + (2 ^ 23 + b % 2 ^ 23) := by omega
    exact ⟨b / 2 ^ 23 - 1, 2 ^ 23 + b % 2 ^ 23, hb, by omega, by omega,
      by rw [magValue_normal (by omega)]⟩

theorem magValue_lt_succ (b : Nat) : magValue b < magValue (b + 1) := by
  obtain ⟨e, m, hb, hm, he, hv⟩ := magnitude_significand b
  have h1 : magValue (b + 1) = (m + 1) * 2 ^ e := by
    rw [show b + 1 = e * 2 ^ 23 + (m + 1) by omega]
    exact magValue_significand (by omega) (fun h => by have := he h; omega)
  rw [hv, h1]
  exact Nat.mul_lt_mul_of_pos_right (Nat.lt_succ_self m) (Nat.two_pow_pos e)

/-- The order of magnitudes is the order of their values. -/
theorem magValue_strictMono : StrictMono magValue := strictMono_nat_of_lt_succ magValue_lt_succ

theorem magValue_le_iff {b c : Nat} : magValue b ≤ magValue c ↔ b ≤ c :=
  magValue_strictMono.le_iff_le

theorem magValue_lt_iff {b c : Nat} : magValue b < magValue c ↔ b < c :=
  magValue_strictMono.lt_iff_lt

/-! ### Fields of an assembled pattern -/

theorem fmag_lt (a : F32) : fmag a < 2 ^ 31 := Nat.mod_lt _ (by decide)

theorem fmag_assemble (neg : Bool) (mag : Nat) :
    fmag (assemble neg mag) = min mag 0x7F800000 := by
  cases neg <;> simp [fmag, assemble, BitVec.toNat_ofNat]

theorem fsign_assemble (neg : Bool) (mag : Nat) : fsign (assemble neg mag) = neg := by
  have := Nat.min_le_right mag 0x7F800000
  cases neg <;> simp [fsign, assemble, BitVec.msb_eq_decide, BitVec.toNat_ofNat] <;> omega

theorem isFinite_iff (a : F32) : isFinite a = true ↔ fmag a < 0x7F800000 := by
  have := fmag_lt a
  simp only [isFinite, fexp, bne_iff_ne, ne_eq]
  constructor <;> intro h <;> omega

theorem not_isNaN_of_isFinite {a : F32} (h : isFinite a = true) : isNaN a = false := by
  simp only [isFinite, bne_iff_ne, ne_eq] at h
  simp [isNaN, h]

theorem not_isInf_of_isFinite {a : F32} (h : isFinite a = true) : isInf a = false := by
  simp only [isFinite, bne_iff_ne, ne_eq] at h
  simp [isInf, h]

/-! ### Rounding to an integer -/

theorem roundHalfEven_zero (k : Nat) : roundHalfEven 0 k = 0 := by
  simp [roundHalfEven]

/-- A multiple of `2^k` rounds to its quotient. -/
theorem roundHalfEven_mul (m k : Nat) : roundHalfEven (m * 2 ^ k) k = m := by
  have := Nat.two_pow_pos k
  simp [roundHalfEven]
  omega

/-- The error is at most half the spacing. -/
theorem roundHalfEven_error (n k : Nat) :
    2 * (roundHalfEven n k * 2 ^ k) ≤ 2 * n + 2 ^ k ∧
      2 * n ≤ 2 * (roundHalfEven n k * 2 ^ k) + 2 ^ k := by
  have hp := Nat.two_pow_pos k
  have hd := Nat.div_add_mod n (2 ^ k)
  have hm := Nat.mod_lt n hp
  simp only [roundHalfEven]
  split_ifs <;> (try rw [Nat.add_mul]) <;> rw [Nat.mul_comm (n / 2 ^ k)] <;> omega

/-- A tie goes to the even quotient. -/
theorem roundHalfEven_tie {n k : Nat} (h : 2 * (n % 2 ^ k) = 2 ^ k) :
    roundHalfEven n k % 2 = 0 := by
  simp only [roundHalfEven]
  split_ifs <;> omega

theorem roundHalfEven_mono {n n' : Nat} (k : Nat) (h : n ≤ n') :
    roundHalfEven n k ≤ roundHalfEven n' k := by
  have hp := Nat.two_pow_pos k
  have hq : n / 2 ^ k ≤ n' / 2 ^ k := Nat.div_le_div_right h
  by_cases heq : n / 2 ^ k = n' / 2 ^ k
  · have hd := Nat.div_add_mod n (2 ^ k)
    have hd' := Nat.div_add_mod n' (2 ^ k)
    have hr : n % 2 ^ k ≤ n' % 2 ^ k := by rw [heq] at hd; omega
    simp only [roundHalfEven, heq]
    split_ifs <;> omega
  · simp only [roundHalfEven]
    split_ifs <;> omega

/-! ### Rounding to binary32 -/

theorem le_roundShift (n k : Nat) : k ≤ roundShift n k := Nat.le_max_left _ _

theorem lt_pow_roundShift (n k : Nat) : n < 2 ^ (roundShift n k + 24) := by
  rcases Nat.eq_zero_or_pos n with h | h
  · subst h; exact Nat.two_pow_pos _
  · refine lt_of_lt_of_le (Nat.lt_log2_self (n := n)) (Nat.pow_le_pow_right (by decide) ?_)
    have := Nat.le_max_right k (n.log2 - 23)
    unfold roundShift
    omega

theorem pow_roundShift_le {n k : Nat} (h : k < roundShift n k) : 2 ^ (roundShift n k + 23) ≤ n := by
  have hsh : roundShift n k = n.log2 - 23 := by unfold roundShift at *; omega
  have hn : n ≠ 0 := by
    rintro rfl
    simp [roundShift] at h
  have hlog : roundShift n k + 23 = n.log2 := by omega
  rw [hlog]
  exact Nat.log2_self_le hn

theorem significand_le (n k : Nat) : roundHalfEven n (roundShift n k) ≤ 2 ^ 24 := by
  have hlt := lt_pow_roundShift n k
  have hp := Nat.two_pow_pos (roundShift n k)
  have h : n / 2 ^ roundShift n k < 2 ^ 24 := by
    rw [Nat.div_lt_iff_lt_mul hp, ← pow_add, Nat.add_comm]; exact hlt
  simp only [roundHalfEven]
  split_ifs <;> omega

theorem le_significand {n k : Nat} (h : k < roundShift n k) :
    2 ^ 23 ≤ roundHalfEven n (roundShift n k) := by
  have hle := roundHalfEven_mono (roundShift n k) (pow_roundShift_le h)
  rwa [pow_add, Nat.mul_comm, roundHalfEven_mul] at hle

/-- The value of the rounded magnitude. -/
theorem magValue_roundMag (n k : Nat) :
    magValue (roundMag n k) = roundHalfEven n (roundShift n k) * 2 ^ (roundShift n k - k) := by
  refine magValue_significand (significand_le n k) (fun h => le_significand (k := k) ?_)
  have := le_roundShift n k
  omega

theorem magValue_roundMag_mul (n k : Nat) :
    magValue (roundMag n k) * 2 ^ k =
      roundHalfEven n (roundShift n k) * 2 ^ roundShift n k := by
  rw [magValue_roundMag, Nat.mul_assoc, ← pow_add, Nat.sub_add_cancel (le_roundShift n k)]

/-- A value that is a binary32 magnitude rounds to itself. -/
theorem roundMag_exact (b k : Nat) : roundMag (magValue b * 2 ^ k) k = b := by
  obtain ⟨e, m, hb, hm, he, hv⟩ := magnitude_significand b
  have hN : magValue b * 2 ^ k = m * 2 ^ (e + k) := by rw [hv, Nat.mul_assoc, ← pow_add]
  have hsh : roundShift (magValue b * 2 ^ k) k = e + k := by
    rw [hN]
    rcases Nat.eq_zero_or_pos m with h0 | hpos
    · have : e = 0 := by by_contra h; have := he h; omega
      subst this; subst h0; simp [roundShift]
    · have hlog : (m * 2 ^ (e + k)).log2 = m.log2 + (e + k) := by
        rw [Nat.log2_eq_iff (by positivity)]
        have h1 := Nat.log2_self_le (show m ≠ 0 by omega)
        have h2 := Nat.lt_log2_self (n := m)
        constructor
        · rw [pow_add]; exact Nat.mul_le_mul_right _ h1
        · rw [show m.log2 + (e + k) + 1 = (m.log2 + 1) + (e + k) by omega, pow_add _ (m.log2 + 1)]
          exact Nat.mul_lt_mul_of_pos_right h2 (Nat.two_pow_pos _)
      have hml : m.log2 < 24 := (Nat.log2_lt (by omega)).2 hm
      unfold roundShift
      rw [hlog]
      by_cases h : e = 0
      · omega
      · have h23 := he h
        have : 23 ≤ m.log2 := (Nat.le_log2 (by omega)).2 h23
        omega
  unfold roundMag
  rw [hsh, hN, roundHalfEven_mul, Nat.add_sub_cancel]
  exact hb.symm

theorem roundShift_mono {n n' : Nat} (k : Nat) (h : n ≤ n') : roundShift n k ≤ roundShift n' k := by
  have : n.log2 ≤ n'.log2 := by
    rcases Nat.eq_zero_or_pos n with h0 | hpos
    · subst h0; simp
    · rw [Nat.le_log2 (by omega)]
      exact le_trans (Nat.log2_self_le (by omega)) h
  unfold roundShift
  omega

/-- Rounding is monotone. -/
theorem roundMag_mono {n n' : Nat} (k : Nat) (h : n ≤ n') : roundMag n k ≤ roundMag n' k := by
  rw [← magValue_le_iff]
  rcases Nat.eq_or_lt_of_le (roundShift_mono k h) with heq | hlt
  · rw [magValue_roundMag, magValue_roundMag, heq]
    exact Nat.mul_le_mul_right _ (roundHalfEven_mono _ h)
  · rw [magValue_roundMag, magValue_roundMag]
    have hk := le_roundShift n k
    calc roundHalfEven n (roundShift n k) * 2 ^ (roundShift n k - k)
        ≤ 2 ^ 24 * 2 ^ (roundShift n k - k) := Nat.mul_le_mul_right _ (significand_le n k)
      _ = 2 ^ 23 * 2 ^ (roundShift n k - k + 1) := by rw [pow_succ]; ring
      _ ≤ 2 ^ 23 * 2 ^ (roundShift n' k - k) :=
          Nat.mul_le_mul_left _ (Nat.pow_le_pow_right (by decide) (by omega))
      _ ≤ _ := Nat.mul_le_mul_right _ (le_significand (by omega))

/-- A value at most a binary32 magnitude rounds to at most that magnitude. -/
theorem roundMag_le {n k b : Nat} (h : n ≤ magValue b * 2 ^ k) : roundMag n k ≤ b := by
  have := roundMag_mono k h
  rwa [roundMag_exact] at this

/-- A value at least a binary32 magnitude rounds to at least that magnitude. -/
theorem le_roundMag {n k b : Nat} (h : magValue b * 2 ^ k ≤ n) : b ≤ roundMag n k := by
  have := roundMag_mono k h
  rwa [roundMag_exact] at this

/-- Every integer multiple of the unit with at most 24 significant bits is a magnitude's value: it
rounds to itself. -/
theorem magValue_roundMag_significand {m : Nat} (e : Nat) (hm : m < 2 ^ 24) :
    magValue (roundMag (m * 2 ^ e) 0) = m * 2 ^ e := by
  have hsh : roundShift (m * 2 ^ e) 0 ≤ e := by
    rcases Nat.eq_zero_or_pos m with h | h
    · subst h; simp [roundShift]
    · have : (m * 2 ^ e).log2 < 24 + e :=
        (Nat.log2_lt (by positivity)).2
          (by rw [pow_add]; exact Nat.mul_lt_mul_of_pos_right hm (Nat.two_pow_pos e))
      unfold roundShift
      omega
  have hv := magValue_roundMag_mul (m * 2 ^ e) 0
  rw [pow_zero, Nat.mul_one] at hv
  rw [hv]
  generalize roundShift (m * 2 ^ e) 0 = sh at hsh
  have hsplit : m * 2 ^ e = m * 2 ^ (e - sh) * 2 ^ sh := by
    rw [Nat.mul_assoc, ← pow_add, Nat.sub_add_cancel hsh]
  rw [hsplit, roundHalfEven_mul]

/-! ### Nearest, ties to even -/

/-- Among the multiples of the spacing, the rounded one is nearest, and on a tie it is even. -/
theorem roundHalfEven_nearest (n k j : Nat) :
    |(roundHalfEven n k * 2 ^ k : Int) - n| ≤ |(j * 2 ^ k : Int) - n| ∧
      (|(roundHalfEven n k * 2 ^ k : Int) - n| = |(j * 2 ^ k : Int) - n| →
        j ≠ roundHalfEven n k → roundHalfEven n k % 2 = 0) := by
  have hp := Nat.two_pow_pos k
  have he := roundHalfEven_error n k
  have hd := Nat.div_add_mod n (2 ^ k)
  have hmod := Nat.mod_lt n hp
  have htie := @roundHalfEven_tie n k
  have hdef : roundHalfEven n k = n / 2 ^ k ∨ roundHalfEven n k = n / 2 ^ k + 1 := by
    simp only [roundHalfEven]; split_ifs <;> simp
  have hcast : (2 ^ k : Int) = ((2 ^ k : Nat) : Int) := by push_cast; rfl
  rw [hcast]
  generalize 2 ^ k = u at *
  generalize n / u = q at *
  generalize n % u = r at *
  generalize roundHalfEven n k = m at *
  have hcases : j = m ∨ j + 1 ≤ m ∨ m + 1 ≤ j := by omega
  rcases hcases with h | h | h
  · subst h; exact ⟨le_refl _, fun _ h => absurd rfl h⟩
  · have h1 : (j + 1) * u ≤ m * u := Nat.mul_le_mul_right u h
    rw [Nat.add_mul] at h1
    have hq : u * q = q * u := Nat.mul_comm _ _
    have hm1 : m * u = q * u ∨ m * u = q * u + u := by
      rcases hdef with h | h <;> rw [h]
      · exact .inl rfl
      · right; ring
    zify at h1 he hd hmod hm1 hq ⊢
    generalize (m : Int) * u = M at *
    generalize (j : Int) * u = J at *
    generalize (q : Int) * u = Q at *
    constructor
    · rw [abs_le]; rw [abs_of_nonpos (by omega : J - n ≤ 0)]; constructor <;> omega
    · intro heq _
      rw [abs_of_nonpos (by omega : J - n ≤ 0)] at heq
      have hh : 2 * r = u := by
        rcases abs_cases (M - n) with ⟨h2, _⟩ | ⟨h2, _⟩ <;> omega
      exact_mod_cast htie hh
  · have h1 : (m + 1) * u ≤ j * u := Nat.mul_le_mul_right u h
    rw [Nat.add_mul] at h1
    have hq : u * q = q * u := Nat.mul_comm _ _
    have hm1 : m * u = q * u ∨ m * u = q * u + u := by
      rcases hdef with h | h <;> rw [h]
      · exact .inl rfl
      · right; ring
    zify at h1 he hd hmod hm1 hq ⊢
    generalize (m : Int) * u = M at *
    generalize (j : Int) * u = J at *
    generalize (q : Int) * u = Q at *
    constructor
    · rw [abs_le]; rw [abs_of_nonneg (by omega : 0 ≤ J - n)]; constructor <;> omega
    · intro heq _
      rw [abs_of_nonneg (by omega : 0 ≤ J - n)] at heq
      have hh : 2 * r = u := by
        rcases abs_cases (M - n) with ⟨h2, _⟩ | ⟨h2, _⟩ <;> omega
      exact_mod_cast htie hh

theorem roundMag_parity (n k : Nat) :
    roundMag n k % 2 = roundHalfEven n (roundShift n k) % 2 := by
  unfold roundMag
  omega

/-- Correct rounding (00_scope.md R8): no binary32 magnitude is nearer the exact value than the
rounded one, and where another is as near, the rounded one has an even last fraction bit. -/
theorem roundMag_nearest (n k b : Nat) :
    |(magValue (roundMag n k) * 2 ^ k : Int) - n| ≤ |(magValue b * 2 ^ k : Int) - n| ∧
      (|(magValue (roundMag n k) * 2 ^ k : Int) - n| = |(magValue b * 2 ^ k : Int) - n| →
        b ≠ roundMag n k → roundMag n k % 2 = 0) := by
  have hR : (magValue (roundMag n k) * 2 ^ k : Int) =
      (roundHalfEven n (roundShift n k) : Int) * 2 ^ roundShift n k := by
    exact_mod_cast magValue_roundMag_mul n k
  obtain ⟨e, m, hb, hm, he, hv⟩ := magnitude_significand b
  have hV : (magValue b * 2 ^ k : Int) = (m : Int) * 2 ^ (e + k) := by
    rw [pow_add, ← mul_assoc]; exact_mod_cast congrArg (· * 2 ^ k) hv
  rw [roundMag_parity, hR]
  by_cases hmul : roundShift n k ≤ e + k
  · obtain ⟨d, hd⟩ := Nat.exists_eq_add_of_le hmul
    have hj : (magValue b * 2 ^ k : Int) = ((m * 2 ^ d : Nat) : Int) * 2 ^ roundShift n k := by
      rw [hV, hd, pow_add]; push_cast; ring
    have h := roundHalfEven_nearest n (roundShift n k) (m * 2 ^ d)
    rw [hj]
    refine ⟨h.1, fun heq hne => h.2 heq ?_⟩
    intro hcon
    apply hne
    apply magValue_strictMono.injective
    have h2 : (magValue b * 2 ^ k : Int) = magValue (roundMag n k) * 2 ^ k := by
      rw [hj, hR, hcon]
    have hpos : (2 ^ k : Int) ≠ 0 := by positivity
    exact_mod_cast mul_right_cancel₀ hpos h2
  · have hsh : k < roundShift n k := by omega
    have hle := pow_roundShift_le hsh
    have hlt : m * 2 ^ (e + k) < 2 ^ (roundShift n k + 23) := by
      calc m * 2 ^ (e + k) < 2 ^ 24 * 2 ^ (e + k) :=
            Nat.mul_lt_mul_of_pos_right hm (Nat.two_pow_pos _)
        _ ≤ 2 ^ (roundShift n k + 23) := by
            rw [← pow_add]; exact Nat.pow_le_pow_right (by decide) (by omega)
    have h := (roundHalfEven_nearest n (roundShift n k) (2 ^ 23)).1
    have hL : (((2 ^ 23 : Nat) : Int) * 2 ^ roundShift n k) =
        ((2 ^ (roundShift n k + 23) : Nat) : Int) := by
      push_cast; rw [pow_add]; ring
    rw [hL] at h
    have hstrict : |((2 ^ (roundShift n k + 23) : Nat) : Int) - n| <
        |(magValue b * 2 ^ k : Int) - n| := by
      have h1 : ((m * 2 ^ (e + k) : Nat) : Int) < ((2 ^ (roundShift n k + 23) : Nat) : Int) := by
        exact_mod_cast hlt
      have h2 : ((2 ^ (roundShift n k + 23) : Nat) : Int) ≤ n := by exact_mod_cast hle
      rw [hV, show (m : Int) * 2 ^ (e + k) = ((m * 2 ^ (e + k) : Nat) : Int) by push_cast; rfl]
      rw [abs_of_nonpos (by omega), abs_of_nonpos (by omega)]
      omega
    exact ⟨le_trans h hstrict.le, fun heq => absurd heq (ne_of_lt (lt_of_le_of_lt h hstrict))⟩

/-- The overflow of 00_scope.md R8: rounding leaves the finite magnitudes exactly from half a unit beyond
the largest of them. -/
theorem roundMag_overflow (n k : Nat) :
    0x7F800000 ≤ roundMag n k ↔ (2 ^ 25 - 1) * 2 ^ 252 * 2 ^ k ≤ n := by
  have hmax : magValue 0x7F7FFFFF = (2 ^ 24 - 1) * 2 ^ 253 := by decide +kernel
  have htop : magValue 0x7F800000 = 2 ^ 24 * 2 ^ 253 := by decide +kernel
  have hp := Nat.two_pow_pos k
  have hunit : ((2 : Int) ^ 252 * 2 ^ k) = ((2 ^ 252 * 2 ^ k : Nat) : Int) := by push_cast; rfl
  have hhalf : (2 ^ 25 - 1) * 2 ^ 252 * 2 ^ k = (2 ^ 25 - 1) * (2 ^ 252 * 2 ^ k) := by ring
  have hM : magValue 0x7F7FFFFF * 2 ^ k = (2 ^ 25 - 2) * (2 ^ 252 * 2 ^ k) := by rw [hmax]; ring
  have hT : magValue 0x7F800000 * 2 ^ k = 2 ^ 25 * (2 ^ 252 * 2 ^ k) := by rw [htop]; ring
  have hu : 0 < 2 ^ 252 * 2 ^ k := Nat.mul_pos (Nat.two_pow_pos _) hp
  rw [hhalf]
  generalize 2 ^ 252 * 2 ^ k = u at *
  have hR : ∀ {x y : Nat}, x ≤ y → magValue x * 2 ^ k ≤ magValue y * 2 ^ k := fun h =>
    Nat.mul_le_mul_right _ (magValue_le_iff.2 h)
  constructor
  · intro hge
    by_contra hlt
    have h1 := hR hge
    have h2 := (roundMag_nearest n k 0x7F7FFFFF).1
    by_cases hn : n ≤ magValue 0x7F7FFFFF * 2 ^ k
    · have := roundMag_le hn
      omega
    · rw [hT] at h1
      have hM' : (magValue 0x7F7FFFFF * 2 ^ k : Int) = ((2 ^ 25 - 2) * u : Nat) := by
        rw [← hM]; push_cast; rfl
      rw [hM'] at h2
      rw [hM] at hn
      rw [show (magValue (roundMag n k) * 2 ^ k : Int) =
        ((magValue (roundMag n k) * 2 ^ k : Nat) : Int) by push_cast; rfl] at h2
      generalize magValue (roundMag n k) * 2 ^ k = R at *
      rw [abs_of_nonneg (by omega), abs_of_nonpos (by omega)] at h2
      omega
  · intro hn
    by_contra hlt
    have h1 := hR (show roundMag n k ≤ 0x7F7FFFFF by omega)
    by_cases hbig : magValue 0x7F800000 * 2 ^ k ≤ n
    · have := le_roundMag hbig
      omega
    · have h2 := roundMag_nearest n k 0x7F800000
      have hT' : (magValue 0x7F800000 * 2 ^ k : Int) = (2 ^ 25 * u : Nat) := by
        rw [← hT]; push_cast; rfl
      rw [hT'] at h2
      rw [hT] at hbig
      rw [hM] at h1
      have hcast : (magValue (roundMag n k) * 2 ^ k : Int) =
        ((magValue (roundMag n k) * 2 ^ k : Nat) : Int) := by push_cast; rfl
      rw [hcast] at h2
      have hle := h2.1
      rw [abs_of_nonpos (by omega), abs_of_nonneg (by omega)] at hle
      have heven := h2.2 (by rw [abs_of_nonpos (by omega), abs_of_nonneg (by omega)]; omega)
        (by omega)
      have hRM : magValue (roundMag n k) * 2 ^ k = magValue 0x7F7FFFFF * 2 ^ k := by
        rw [hM]; omega
      have := magValue_strictMono.injective (Nat.eq_of_mul_eq_mul_right hp hRM)
      omega

end Sys2Proof.Machine
end

