-- ==== Sys2Proof/Laws/Arithmetic.lean ====
section
/-! SUPPORT. One lemma per binary32 operation on finite operands: its exact value, rounded; what
rounding keeps of a sign and of a bound; comparisons as comparisons of exact values. -/

namespace Sys2Proof.Machine

/-! ### Exact values -/

theorem scaled_eq (a : F32) :
    scaled a = if fsign a then -(scaledMag a : Int) else (scaledMag a : Int) := rfl

theorem natAbs_scaled (a : F32) : (scaled a).natAbs = scaledMag a := by
  unfold scaled; split <;> simp

theorem scaledMag_lt_of_isFinite {a : F32} (h : isFinite a = true) :
    scaledMag a < magValue 0x7F800000 :=
  magValue_lt_iff.2 ((isFinite_iff a).1 h)

theorem scaledMag_le_of_isFinite {a : F32} (h : isFinite a = true) :
    scaledMag a ≤ magValue 0x7F7FFFFF :=
  magValue_le_iff.2 (by have := (isFinite_iff a).1 h; omega)

theorem magValue_one : magValue 0x3F800000 = 2 ^ 149 := by decide +kernel
theorem magValue_two : magValue 0x40000000 = 2 ^ 150 := by decide +kernel
theorem magValue_max : magValue 0x7F7FFFFF = (2 ^ 24 - 1) * 2 ^ 253 := by decide +kernel
theorem magValue_zero : magValue 0 = 0 := by decide +kernel

theorem scaled_zero : scaled F32.zero = 0 := by decide +kernel
theorem scaled_one : scaled F32.one = 2 ^ 149 := by decide +kernel
theorem scaled_two : scaled F32.two = 2 ^ 150 := by decide +kernel
theorem scaled_negOne : scaled F32.negOne = -2 ^ 149 := by decide +kernel

/-! ### Sign operations -/

theorem fmag_fneg (a : F32) : fmag (fneg a) = fmag a := by
  have h : (fneg a).setWidth 31 = a.setWidth 31 := by
    unfold fneg; ext i hi; interval_cases i <;> simp
  have := congrArg BitVec.toNat h
  simpa [fmag] using this

theorem fsign_fneg (a : F32) : fsign (fneg a) = !fsign a := by
  rw [fsign, fneg, BitVec.msb_xor, show (0x80000000#32).msb = true from by decide, Bool.xor_true]
  rfl

theorem fmag_fabs (a : F32) : fmag (fabs a) = fmag a := by
  have h : (fabs a).setWidth 31 = a.setWidth 31 := by
    unfold fabs; ext i hi; interval_cases i <;> simp
  have := congrArg BitVec.toNat h
  simpa [fmag] using this

theorem fsign_fabs (a : F32) : fsign (fabs a) = false := by
  rw [fsign, fabs, BitVec.msb_and, show (0x7FFFFFFF#32).msb = false from by decide, Bool.and_false]

theorem isFinite_fneg {a : F32} (h : isFinite a = true) : isFinite (fneg a) = true := by
  rw [isFinite_iff, fmag_fneg]; exact (isFinite_iff a).1 h

theorem isFinite_fabs {a : F32} (h : isFinite a = true) : isFinite (fabs a) = true := by
  rw [isFinite_iff, fmag_fabs]; exact (isFinite_iff a).1 h

theorem scaled_fneg (a : F32) : scaled (fneg a) = -scaled a := by
  unfold scaled scaledMag
  rw [fsign_fneg, fmag_fneg]
  cases fsign a <;> simp

theorem scaled_fabs (a : F32) : scaled (fabs a) = |scaled a| := by
  unfold scaled scaledMag
  rw [fsign_fabs, fmag_fabs]
  cases fsign a <;> simp

/-! ### The operations on finite operands -/

theorem fadd_of_isFinite {a b : F32} (ha : isFinite a = true) (hb : isFinite b = true) :
    fadd a b = roundInt (fsign a && fsign b) (scaled a + scaled b) := by
  simp [fadd, faddAs, not_isNaN_of_isFinite ha, not_isNaN_of_isFinite hb,
    not_isInf_of_isFinite ha, not_isInf_of_isFinite hb]

theorem fsub_of_isFinite {a b : F32} (ha : isFinite a = true) (hb : isFinite b = true) :
    fsub a b = roundInt (fsign a && !fsign b) (scaled a - scaled b) := by
  have hb' := isFinite_fneg hb
  simp [fsub, faddAs, not_isNaN_of_isFinite ha, not_isNaN_of_isFinite hb',
    not_isInf_of_isFinite ha, not_isInf_of_isFinite hb', scaled_fneg, fsign_fneg, sub_eq_add_neg]

theorem fmul_of_isFinite {a b : F32} (ha : isFinite a = true) (hb : isFinite b = true) :
    fmul a b = roundScaled (fsign a != fsign b) (scaledMag a * scaledMag b) 149 := by
  simp [fmul, not_isNaN_of_isFinite ha, not_isNaN_of_isFinite hb,
    not_isInf_of_isFinite ha, not_isInf_of_isFinite hb]

theorem ffloor_of_isFinite {a : F32} (ha : isFinite a = true) (h0 : fmag a ≠ 0) :
    ffloor a = roundInt (fsign a) (scaled a / 2 ^ 149 * 2 ^ 149) := by
  simp [ffloor, not_isNaN_of_isFinite ha, not_isInf_of_isFinite ha, h0]

/-! ### What rounding keeps -/

theorem isFinite_assemble {neg : Bool} {mag : Nat} (h : mag < 0x7F800000) :
    isFinite (assemble neg mag) = true := by
  rw [isFinite_iff, fmag_assemble]; omega

theorem scaledMag_assemble {neg : Bool} {mag : Nat} (h : mag < 0x7F800000) :
    scaledMag (assemble neg mag) = magValue mag := by
  unfold scaledMag
  rw [fmag_assemble, Nat.min_eq_left (by omega)]

theorem scaled_assemble {neg : Bool} {mag : Nat} (h : mag < 0x7F800000) :
    scaled (assemble neg mag) = if neg then -(magValue mag : Int) else (magValue mag : Int) := by
  rw [scaled_eq, fsign_assemble, scaledMag_assemble h]

/-- Rounding stays within a finite magnitude that bounds the exact value. -/
theorem roundScaled_within {neg : Bool} {n k b : Nat} (hb : b < 0x7F800000)
    (h : n ≤ magValue b * 2 ^ k) :
    isFinite (roundScaled neg n k) = true ∧ scaledMag (roundScaled neg n k) ≤ magValue b := by
  have hr : roundMag n k ≤ b := roundMag_le h
  refine ⟨isFinite_assemble (by omega), ?_⟩
  rw [roundScaled, scaledMag_assemble (by omega)]
  exact magValue_le_iff.2 hr

/-- Rounding an integer stays between a finite value and its negation that bound it. -/
theorem roundInt_within {zneg : Bool} {z : Int} {b : Nat} (hb : b < 0x7F800000)
    (h : z.natAbs ≤ magValue b) :
    isFinite (roundInt zneg z) = true ∧ |scaled (roundInt zneg z)| ≤ (magValue b : Int) := by
  unfold roundInt
  split
  · refine ⟨isFinite_assemble (by decide), ?_⟩
    rw [scaled_assemble (by decide), magValue_zero]
    cases zneg <;> simp
  · have hw := roundScaled_within (neg := decide (z < 0)) (k := 0) hb (by simpa using h)
    refine ⟨hw.1, ?_⟩
    rw [← Int.natCast_natAbs, natAbs_scaled]
    exact_mod_cast hw.2

/-- An exact value that is a binary32 value rounds to it. -/
theorem scaled_roundInt_exact {zneg : Bool} {z : Int} {b : Nat} (hb : b < 0x7F800000)
    (h : z.natAbs = magValue b) :
    isFinite (roundInt zneg z) = true ∧ scaled (roundInt zneg z) = z := by
  unfold roundInt
  split
  · next h0 =>
    refine ⟨isFinite_assemble (by decide), ?_⟩
    rw [scaled_assemble (by decide), magValue_zero, h0]
    cases zneg <;> simp
  · have hr : roundMag z.natAbs 0 = b := by
      have := roundMag_exact b 0
      rwa [pow_zero, Nat.mul_one, ← h] at this
    rw [roundScaled, hr]
    refine ⟨isFinite_assemble hb, ?_⟩
    rw [scaled_assemble hb, ← h]
    by_cases hz : z < 0
    · simp only [hz, decide_true, if_true]; omega
    · simp only [hz, decide_false, Bool.false_eq_true, if_false]; omega

/-- Rounding never crosses zero. -/
theorem scaled_roundInt_nonneg {zneg : Bool} {z : Int} (h : 0 ≤ z)
    (hf : isFinite (roundInt zneg z) = true) : 0 ≤ scaled (roundInt zneg z) := by
  unfold roundInt at *
  split
  · rw [scaled_assemble (by decide), magValue_zero]; cases zneg <;> simp
  · have hz : ¬ z < 0 := by omega
    simp [hz, roundScaled, scaled_eq, fsign_assemble]

/-- A nonzero exact value keeps its sign bit. -/
theorem fsign_roundInt {zneg : Bool} {z : Int} (h : z ≠ 0) :
    fsign (roundInt zneg z) = decide (z < 0) := by
  simp [roundInt, h, roundScaled, fsign_assemble]

/-! ### Comparisons of finite values -/

theorem forder_lt_iff {a b : F32} : forder a < forder b ↔ scaled a < scaled b := by
  have h1 : ∀ {x y : Nat}, (magValue x : Int) < magValue y ↔ (x : Int) < y := by
    intro x y; exact_mod_cast magValue_lt_iff (b := x) (c := y)
  have h0 : ∀ {x : Nat}, magValue x = 0 ↔ x = 0 := by
    intro x
    constructor
    · intro h; by_contra hx
      have := magValue_lt_iff.2 (show 0 < x by omega)
      rw [magValue_zero] at this; omega
    · rintro rfl; exact magValue_zero
  unfold forder scaled scaledMag
  have ha := h0 (x := fmag a)
  have hb := h0 (x := fmag b)
  have hab := h1 (x := fmag a) (y := fmag b)
  have hba := h1 (x := fmag b) (y := fmag a)
  split <;> split <;> omega

theorem fgt_iff {a b : F32} (ha : isFinite a = true) (hb : isFinite b = true) :
    fgt a b = true ↔ scaled b < scaled a := by
  simp [fgt, not_isNaN_of_isFinite ha, not_isNaN_of_isFinite hb, forder_lt_iff]

theorem fge_iff {a b : F32} (ha : isFinite a = true) (hb : isFinite b = true) :
    fge a b = true ↔ scaled b ≤ scaled a := by
  have h : forder b ≤ forder a ↔ scaled b ≤ scaled a := by
    rw [← not_lt, ← not_lt, forder_lt_iff]
  simp [fge, not_isNaN_of_isFinite ha, not_isNaN_of_isFinite hb, h]

end Sys2Proof.Machine
end

