-- ==== Sys2Proof/Laws/Decode.lean ====
section
/-! SUPPORT. The fields of a word of format W (30_encoding.md R62), and the register numbers. -/

namespace Sys2Proof

@[simp] theorem opField_opWord (op : BitVec 8) (imm : Word) : opField (opWord op imm) = op := by
  apply BitVec.eq_of_getLsbD_eq
  intro i hi
  unfold opField opWord
  rw [BitVec.getLsbD_extractLsb', BitVec.getLsbD_append]
  simp [hi]

@[simp] theorem immField_opWord (op : BitVec 8) (imm : Word) : immField (opWord op imm) = imm := by
  apply BitVec.eq_of_getLsbD_eq
  intro i hi
  unfold immField opWord
  rw [BitVec.getLsbD_extractLsb', BitVec.getLsbD_append]
  simp [hi]

/-- A word is its two fields. -/
theorem opWord_fields (w : OpWord) : opWord (opField w) (immField w) = w := by
  apply BitVec.eq_of_getLsbD_eq
  intro i hi
  unfold opField immField opWord
  rw [BitVec.getLsbD_append, BitVec.getLsbD_extractLsb', BitVec.getLsbD_extractLsb']
  by_cases h : i < 32
  · simp [h]
  · simp [h, show i - 32 < 8 by omega, show 32 + (i - 32) = i by omega]

@[simp] theorem ofBits_toBits_of_named (r : RegNum) (h : ∀ n, r ≠ .unassigned n) :
    RegNum.ofBits r.toBits = r := by
  cases r <;> first | rfl | exact absurd rfl (h _)

/-- Every number reads back as the register it names (10_state.md R24). -/
theorem toBits_ofBits (n : BitVec 8) : (RegNum.ofBits n).toBits = n := by
  revert n; decide +kernel

/-- Every decoded register number is well-formed (10_state.md R24). -/
theorem ofBits_wf (n : BitVec 8) : (RegNum.ofBits n).wf = true := by
  revert n; decide +kernel

end Sys2Proof
end

