-- ==== Sys2Proof/Laws/Memory.lean ====
section
/-! SUPPORT. `BUF`'s laws: reading what was written, leaving the rest alone, and keeping the
canonical form. -/

namespace Sys2Proof.Machine

@[simp] theorem readByte_nil (a : Nat) : Memory.readByte [] a = none := rfl

theorem readByte_cons (c : Host.Cell) (m : Memory) (a : Nat) :
    Memory.readByte (c :: m) a = if c.1 = a then some c.2 else Memory.readByte m a := rfl

/-- Reading after a write of one byte. -/
theorem readByte_writeByte (m : Memory) (a b : Nat) (v : Byte) (hm : Memory.wf m = true) :
    Memory.readByte (Memory.writeByte m a v) b = if b = a then some v else Memory.readByte m b := by
  induction m with
  | nil => simp [Memory.writeByte, readByte_cons, eq_comm]
  | cons c m ih =>
    have htail : Memory.wf m = true := by
      cases m with
      | nil => rfl
      | cons d m => simp [Memory.wf] at hm; exact hm.2
    unfold Memory.writeByte
    split
    · by_cases h : b = a
      · simp [readByte_cons, h]
      · simp [readByte_cons, h, Ne.symm h]
    · split
      · next h1 h2 =>
        by_cases h : b = a
        · simp [readByte_cons, h]
        · have : c.1 ≠ b := by omega
          simp [readByte_cons, h, Ne.symm h, this]
      · rw [readByte_cons, ih htail, readByte_cons]
        by_cases h : b = a
        · have : c.1 ≠ b := by omega
          simp [h, show c.1 ≠ a by omega]
        · simp [h]

/-- The first address of what a write returns is the old one or the written one. -/
theorem head_writeByte (m : Memory) (a : Nat) (v : Byte) (n : Nat) (hn : n < a)
    (hm : ∀ c ∈ m.head?, n < c.1) : ∀ c ∈ (Memory.writeByte m a v).head?, n < c.1 := by
  cases m with
  | nil => simpa [Memory.writeByte] using hn
  | cons c m =>
    unfold Memory.writeByte
    split
    · simpa using hn
    · split
      · simpa using hn
      · simpa using hm

theorem wf_cons (c : Host.Cell) (m : Memory) :
    Memory.wf (c :: m) = true ↔ (∀ d ∈ m.head?, c.1 < d.1) ∧ Memory.wf m = true := by
  cases m <;> simp [Memory.wf]

/-- A write keeps the addresses rising. -/
theorem wf_writeByte (m : Memory) (a : Nat) (v : Byte) (hm : Memory.wf m = true) :
    Memory.wf (Memory.writeByte m a v) = true := by
  induction m with
  | nil => rfl
  | cons c m ih =>
    have h := (wf_cons c m).1 hm
    unfold Memory.writeByte
    split
    · next hlt => exact (wf_cons _ _).2 ⟨by simpa using hlt, hm⟩
    · split
      · next heq => exact (wf_cons _ _).2 ⟨by simpa [heq] using h.1, h.2⟩
      · next h1 h2 =>
        exact (wf_cons _ _).2 ⟨head_writeByte m a v c.1 (by omega) h.1, ih h.2⟩

/-- A write below `n` keeps the memory below `n`. -/
theorem below_writeByte (m : Memory) (n a : Nat) (v : Byte) (ha : a < n)
    (hm : Memory.below n m = true) : Memory.below n (Memory.writeByte m a v) = true := by
  induction m with
  | nil => simpa [Memory.below, Memory.writeByte] using ha
  | cons c m ih =>
    simp only [Memory.below, List.all_cons, Bool.and_eq_true, decide_eq_true_eq] at hm ih ⊢
    unfold Memory.writeByte
    split
    · simp [ha, hm.1, hm.2]
    · split
      · simp [ha, hm.2]
      · simp [hm.1, ih hm.2]

theorem wf_writeWord (m : Memory) (a : Nat) (v : RawWord) (hm : Memory.wf m = true) :
    Memory.wf (Memory.writeWord m a v) = true :=
  wf_writeByte _ _ _ (wf_writeByte _ _ _ hm)

theorem below_writeWord (m : Memory) (n a : Nat) (v : RawWord) (ha : a < n)
    (hm : Memory.below (2 * n) m = true) : Memory.below (2 * n) (Memory.writeWord m a v) = true :=
  below_writeByte _ _ _ _ (by unfold highByteAddr; omega)
    (below_writeByte _ _ _ _ (by unfold lowByteAddr; omega) hm)

/-- Every byte after a word is written. -/
theorem readByte_writeWord (m : Memory) (a b : Nat) (v : RawWord) (hm : Memory.wf m = true) :
    Memory.readByte (Memory.writeWord m a v) b =
      if b = highByteAddr a then some (v.extractLsb' 8 8)
      else if b = lowByteAddr a then some (v.extractLsb' 0 8)
      else Memory.readByte m b := by
  rw [Memory.writeWord, readByte_writeByte _ _ _ _ (wf_writeByte _ _ _ hm),
    readByte_writeByte _ _ _ _ hm]

theorem word_of_bytes (v : RawWord) : v.extractLsb' 8 8 ++ v.extractLsb' 0 8 = v := by
  apply BitVec.eq_of_getLsbD_eq
  intro i hi
  rw [BitVec.getLsbD_append]
  by_cases h : i < 8
  · simp [h]
  · simp [h, show i - 8 < 8 by omega, show 8 + (i - 8) = i by omega]

/-- Reading after a write of one word. -/
theorem readWord_writeWord (m : Memory) (a b : Nat) (v : RawWord) (hm : Memory.wf m = true) :
    Memory.readWord (Memory.writeWord m a v) b = if b = a then some v else Memory.readWord m b := by
  unfold Memory.readWord
  rw [readByte_writeWord _ _ _ _ hm, readByte_writeWord _ _ _ _ hm]
  by_cases h : b = a
  · subst h
    have h1 : lowByteAddr b ≠ highByteAddr b := by unfold lowByteAddr highByteAddr; omega
    simp only [if_true, if_neg h1]
    rw [word_of_bytes]
  · have h1 : highByteAddr b ≠ highByteAddr a := by unfold highByteAddr; omega
    have h2 : highByteAddr b ≠ lowByteAddr a := by unfold lowByteAddr highByteAddr; omega
    have h3 : lowByteAddr b ≠ highByteAddr a := by unfold lowByteAddr highByteAddr; omega
    have h4 : lowByteAddr b ≠ lowByteAddr a := by unfold lowByteAddr; omega
    simp only [if_neg h, if_neg h1, if_neg h2, if_neg h3, if_neg h4]

end Sys2Proof.Machine
end

