-- ==== Sys2Proof/Laws/State.lean ====
section
/-! SUPPORT. One lemma per field per named update of the state, each true by unfolding the update once,
so that no later proof unfolds one. -/

namespace Sys2Proof.Machine

/-! ### A completion notification (43_handoff.md R141, R142) -/

@[simp] theorem notify_params (r : Request) (s : State) :
    (notify r s).params = s.params := rfl

@[simp] theorem notify_req (r : Request) (s : State) :
    (notify r s).req = r := rfl

@[simp] theorem notify_cap (r : Request) (s : State) :
    (notify r s).cap = s.cap := rfl

@[simp] theorem notify_fpc (r : Request) (s : State) :
    (notify r s).fpc = s.fpc := rfl

@[simp] theorem notify_pidx (r : Request) (s : State) :
    (notify r s).pidx = s.pidx := rfl

@[simp] theorem notify_blk (r : Request) (s : State) :
    (notify r s).blk = s.blk := rfl

@[simp] theorem notify_phase (r : Request) (s : State) :
    (notify r s).phase = s.phase := rfl

@[simp] theorem notify_inc (r : Request) (s : State) :
    (notify r s).inc = s.inc := rfl

@[simp] theorem notify_wave (r : Request) (s : State) :
    (notify r s).wave = s.wave := rfl

@[simp] theorem notify_depth32 (r : Request) (s : State) :
    (notify r s).depth32 = s.depth32 := rfl

@[simp] theorem notify_running (r : Request) (s : State) :
    (notify r s).running = s.running := rfl

@[simp] theorem notify_mode (r : Request) (s : State) :
    (notify r s).mode = s.mode := rfl

@[simp] theorem notify_rate (r : Request) (s : State) :
    (notify r s).rate = s.rate := rfl

@[simp] theorem notify_clkp (r : Request) (s : State) :
    (notify r s).clkp = s.clkp := rfl

@[simp] theorem notify_halflen (r : Request) (s : State) :
    (notify r s).halflen = s.halflen := rfl

@[simp] theorem notify_ovrCnt (r : Request) (s : State) :
    (notify r s).ovrCnt = overwriteCount s := rfl

@[simp] theorem notify_errCnt (r : Request) (s : State) :
    (notify r s).errCnt = s.errCnt := rfl

@[simp] theorem notify_fault (r : Request) (s : State) :
    (notify r s).fault = s.fault := rfl

@[simp] theorem notify_mem (r : Request) (s : State) :
    (notify r s).mem = s.mem := rfl

@[simp] theorem notify_engine (r : Request) (s : State) :
    (notify r s).engine = s.engine := rfl

@[simp] theorem notify_rdata (r : Request) (s : State) :
    (notify r s).rdata = s.rdata := rfl

@[simp] theorem notify_schedule (r : Request) (s : State) :
    (notify r s).schedule = s.schedule := rfl

@[simp] theorem notify_boots (r : Request) (s : State) :
    (notify r s).boots = s.boots := rfl

/-! ### `START` after its checks (40_mode_config.md R84) -/

@[simp] theorem latchMode_params (m : Word) (row : ModeConfig) (s : State) :
    (latchMode m row s).params = s.params := rfl

@[simp] theorem latchMode_req (m : Word) (row : ModeConfig) (s : State) :
    (latchMode m row s).req = s.req := rfl

@[simp] theorem latchMode_cap (m : Word) (row : ModeConfig) (s : State) :
    (latchMode m row s).cap = s.cap := rfl

@[simp] theorem latchMode_fpc (m : Word) (row : ModeConfig) (s : State) :
    (latchMode m row s).fpc = s.fpc := rfl

@[simp] theorem latchMode_pidx (m : Word) (row : ModeConfig) (s : State) :
    (latchMode m row s).pidx = s.pidx := rfl

@[simp] theorem latchMode_blk (m : Word) (row : ModeConfig) (s : State) :
    (latchMode m row s).blk = s.blk := rfl

@[simp] theorem latchMode_phase (m : Word) (row : ModeConfig) (s : State) :
    (latchMode m row s).phase = s.phase := rfl

@[simp] theorem latchMode_inc (m : Word) (row : ModeConfig) (s : State) :
    (latchMode m row s).inc = s.inc := rfl

@[simp] theorem latchMode_wave (m : Word) (row : ModeConfig) (s : State) :
    (latchMode m row s).wave = s.wave := rfl

@[simp] theorem latchMode_depth32 (m : Word) (row : ModeConfig) (s : State) :
    (latchMode m row s).depth32 = row.depth32 := rfl

@[simp] theorem latchMode_running (m : Word) (row : ModeConfig) (s : State) :
    (latchMode m row s).running = true := rfl

@[simp] theorem latchMode_mode (m : Word) (row : ModeConfig) (s : State) :
    (latchMode m row s).mode = m := rfl

@[simp] theorem latchMode_rate (m : Word) (row : ModeConfig) (s : State) :
    (latchMode m row s).rate = row.actualSampleRate := rfl

@[simp] theorem latchMode_clkp (m : Word) (row : ModeConfig) (s : State) :
    (latchMode m row s).clkp = row.clockParams := rfl

@[simp] theorem latchMode_halflen (m : Word) (row : ModeConfig) (s : State) :
    (latchMode m row s).halflen = s.halflen := rfl

@[simp] theorem latchMode_ovrCnt (m : Word) (row : ModeConfig) (s : State) :
    (latchMode m row s).ovrCnt = s.ovrCnt := rfl

@[simp] theorem latchMode_errCnt (m : Word) (row : ModeConfig) (s : State) :
    (latchMode m row s).errCnt = s.errCnt := rfl

@[simp] theorem latchMode_fault (m : Word) (row : ModeConfig) (s : State) :
    (latchMode m row s).fault = s.fault := rfl

@[simp] theorem latchMode_mem (m : Word) (row : ModeConfig) (s : State) :
    (latchMode m row s).mem = s.mem := rfl

@[simp] theorem latchMode_engine (m : Word) (row : ModeConfig) (s : State) :
    (latchMode m row s).engine = s.engine.started s.halflen.toNat (wordsPerSample row.depth32 * s.params.blockSize) := rfl

@[simp] theorem latchMode_rdata (m : Word) (row : ModeConfig) (s : State) :
    (latchMode m row s).rdata = s.rdata := rfl

@[simp] theorem latchMode_schedule (m : Word) (row : ModeConfig) (s : State) :
    (latchMode m row s).schedule = s.schedule := rfl

@[simp] theorem latchMode_boots (m : Word) (row : ModeConfig) (s : State) :
    (latchMode m row s).boots = s.boots := rfl

/-! ### The engine's part of `ENG.tx` (60_exceptions.md R186) -/

@[simp] theorem txAdvance_params (s : State) :
    (txAdvance s).params = s.params := rfl

@[simp] theorem txAdvance_req (s : State) :
    (txAdvance s).req = s.req := rfl

@[simp] theorem txAdvance_cap (s : State) :
    (txAdvance s).cap = s.cap := rfl

@[simp] theorem txAdvance_fpc (s : State) :
    (txAdvance s).fpc = s.fpc := rfl

@[simp] theorem txAdvance_pidx (s : State) :
    (txAdvance s).pidx = s.pidx := rfl

@[simp] theorem txAdvance_blk (s : State) :
    (txAdvance s).blk = s.blk := rfl

@[simp] theorem txAdvance_phase (s : State) :
    (txAdvance s).phase = s.phase := rfl

@[simp] theorem txAdvance_inc (s : State) :
    (txAdvance s).inc = s.inc := rfl

@[simp] theorem txAdvance_wave (s : State) :
    (txAdvance s).wave = s.wave := rfl

@[simp] theorem txAdvance_depth32 (s : State) :
    (txAdvance s).depth32 = s.depth32 := rfl

@[simp] theorem txAdvance_running (s : State) :
    (txAdvance s).running = s.running := rfl

@[simp] theorem txAdvance_mode (s : State) :
    (txAdvance s).mode = s.mode := rfl

@[simp] theorem txAdvance_rate (s : State) :
    (txAdvance s).rate = s.rate := rfl

@[simp] theorem txAdvance_clkp (s : State) :
    (txAdvance s).clkp = s.clkp := rfl

@[simp] theorem txAdvance_halflen (s : State) :
    (txAdvance s).halflen = s.halflen := rfl

@[simp] theorem txAdvance_ovrCnt (s : State) :
    (txAdvance s).ovrCnt = s.ovrCnt := rfl

@[simp] theorem txAdvance_errCnt (s : State) :
    (txAdvance s).errCnt = s.errCnt := rfl

@[simp] theorem txAdvance_fault (s : State) :
    (txAdvance s).fault = s.fault := rfl

@[simp] theorem txAdvance_mem (s : State) :
    (txAdvance s).mem = s.mem := rfl

@[simp] theorem txAdvance_engine (s : State) :
    (txAdvance s).engine = { s.engine with txPtr := (s.engine.txPtr + 1) % (2 * s.halflen.toNat), stream := s.engine.stream ++ [s.transmitWord s.engine.txPtr] } := rfl

@[simp] theorem txAdvance_rdata (s : State) :
    (txAdvance s).rdata = s.rdata := rfl

@[simp] theorem txAdvance_schedule (s : State) :
    (txAdvance s).schedule = s.schedule := rfl

@[simp] theorem txAdvance_boots (s : State) :
    (txAdvance s).boots = s.boots := rfl

/-! ### The start of a transition (log 2, log 3) -/

@[simp] theorem beginTransition_params (s : State) :
    (beginTransition s).params = s.params := rfl

@[simp] theorem beginTransition_req (s : State) :
    (beginTransition s).req = s.req := rfl

@[simp] theorem beginTransition_cap (s : State) :
    (beginTransition s).cap = s.cap := rfl

@[simp] theorem beginTransition_fpc (s : State) :
    (beginTransition s).fpc = s.fpc := rfl

@[simp] theorem beginTransition_pidx (s : State) :
    (beginTransition s).pidx = s.pidx := rfl

@[simp] theorem beginTransition_blk (s : State) :
    (beginTransition s).blk = s.blk := rfl

@[simp] theorem beginTransition_phase (s : State) :
    (beginTransition s).phase = s.phase := rfl

@[simp] theorem beginTransition_inc (s : State) :
    (beginTransition s).inc = s.inc := rfl

@[simp] theorem beginTransition_wave (s : State) :
    (beginTransition s).wave = s.wave := rfl

@[simp] theorem beginTransition_depth32 (s : State) :
    (beginTransition s).depth32 = s.depth32 := rfl

@[simp] theorem beginTransition_running (s : State) :
    (beginTransition s).running = s.running := rfl

@[simp] theorem beginTransition_mode (s : State) :
    (beginTransition s).mode = s.mode := rfl

@[simp] theorem beginTransition_rate (s : State) :
    (beginTransition s).rate = s.rate := rfl

@[simp] theorem beginTransition_clkp (s : State) :
    (beginTransition s).clkp = s.clkp := rfl

@[simp] theorem beginTransition_halflen (s : State) :
    (beginTransition s).halflen = s.halflen := rfl

@[simp] theorem beginTransition_ovrCnt (s : State) :
    (beginTransition s).ovrCnt = s.ovrCnt := rfl

@[simp] theorem beginTransition_errCnt (s : State) :
    (beginTransition s).errCnt = s.errCnt := rfl

@[simp] theorem beginTransition_fault (s : State) :
    (beginTransition s).fault = s.fault := rfl

@[simp] theorem beginTransition_mem (s : State) :
    (beginTransition s).mem = s.mem := rfl

@[simp] theorem beginTransition_engine (s : State) :
    (beginTransition s).engine = s.engine := rfl

@[simp] theorem beginTransition_rdata (s : State) :
    (beginTransition s).rdata = none := rfl

@[simp] theorem beginTransition_schedule (s : State) :
    (beginTransition s).schedule = s.schedule.tail := rfl

@[simp] theorem beginTransition_boots (s : State) :
    (beginTransition s).boots = s.boots := rfl

/-! ### Reset (70_reset_and_hazards.md R200) -/

@[simp] theorem platformReset_params (s : State) :
    (platformReset s).params = s.params := rfl

@[simp] theorem platformReset_req (s : State) :
    (platformReset s).req = .idle := rfl

@[simp] theorem platformReset_cap (s : State) :
    (platformReset s).cap = .idle := rfl

@[simp] theorem platformReset_fpc (s : State) :
    (platformReset s).fpc = 0 := rfl

@[simp] theorem platformReset_pidx (s : State) :
    (platformReset s).pidx = 0 := rfl

@[simp] theorem platformReset_blk (s : State) :
    (platformReset s).blk = List.replicate s.params.blockSize F32.zero := rfl

@[simp] theorem platformReset_phase (s : State) :
    (platformReset s).phase = F32.zero := rfl

@[simp] theorem platformReset_inc (s : State) :
    (platformReset s).inc = F32.zero := rfl

@[simp] theorem platformReset_wave (s : State) :
    (platformReset s).wave = .sawtooth := rfl

@[simp] theorem platformReset_depth32 (s : State) :
    (platformReset s).depth32 = false := rfl

@[simp] theorem platformReset_running (s : State) :
    (platformReset s).running = false := rfl

@[simp] theorem platformReset_mode (s : State) :
    (platformReset s).mode = 0 := rfl

@[simp] theorem platformReset_rate (s : State) :
    (platformReset s).rate = F32.zero := rfl

@[simp] theorem platformReset_clkp (s : State) :
    (platformReset s).clkp = 0 := rfl

@[simp] theorem platformReset_halflen (s : State) :
    (platformReset s).halflen = 0 := rfl

@[simp] theorem platformReset_ovrCnt (s : State) :
    (platformReset s).ovrCnt = 0 := rfl

@[simp] theorem platformReset_errCnt (s : State) :
    (platformReset s).errCnt = 0 := rfl

@[simp] theorem platformReset_fault (s : State) :
    (platformReset s).fault = 0 := rfl

@[simp] theorem platformReset_mem (s : State) :
    (platformReset s).mem = [] := rfl

@[simp] theorem platformReset_engine (s : State) :
    (platformReset s).engine = s.engine.afterReset := rfl

@[simp] theorem platformReset_rdata (s : State) :
    (platformReset s).rdata = none := rfl

@[simp] theorem platformReset_schedule (s : State) :
    (platformReset s).schedule = s.schedule := rfl

@[simp] theorem platformReset_boots (s : State) :
    (platformReset s).boots = s.boots + 1 := rfl

/-! ### The end of a `PACK` step (42_packer.md R124) -/

@[simp] theorem packAdvance_params (s : State) : (packAdvance s).params = s.params := by
  unfold packAdvance; split <;> rfl

@[simp] theorem packAdvance_req (s : State) : (packAdvance s).req = s.req := by
  unfold packAdvance; split <;> rfl

@[simp] theorem packAdvance_cap (s : State) : (packAdvance s).cap = s.cap := by
  unfold packAdvance; split <;> rfl

@[simp] theorem packAdvance_blk (s : State) : (packAdvance s).blk = s.blk := by
  unfold packAdvance; split <;> rfl

@[simp] theorem packAdvance_phase (s : State) : (packAdvance s).phase = s.phase := by
  unfold packAdvance; split <;> rfl

@[simp] theorem packAdvance_inc (s : State) : (packAdvance s).inc = s.inc := by
  unfold packAdvance; split <;> rfl

@[simp] theorem packAdvance_wave (s : State) : (packAdvance s).wave = s.wave := by
  unfold packAdvance; split <;> rfl

@[simp] theorem packAdvance_depth32 (s : State) : (packAdvance s).depth32 = s.depth32 := by
  unfold packAdvance; split <;> rfl

@[simp] theorem packAdvance_running (s : State) : (packAdvance s).running = s.running := by
  unfold packAdvance; split <;> rfl

@[simp] theorem packAdvance_mode (s : State) : (packAdvance s).mode = s.mode := by
  unfold packAdvance; split <;> rfl

@[simp] theorem packAdvance_rate (s : State) : (packAdvance s).rate = s.rate := by
  unfold packAdvance; split <;> rfl

@[simp] theorem packAdvance_clkp (s : State) : (packAdvance s).clkp = s.clkp := by
  unfold packAdvance; split <;> rfl

@[simp] theorem packAdvance_halflen (s : State) : (packAdvance s).halflen = s.halflen := by
  unfold packAdvance; split <;> rfl

@[simp] theorem packAdvance_ovrCnt (s : State) : (packAdvance s).ovrCnt = s.ovrCnt := by
  unfold packAdvance; split <;> rfl

@[simp] theorem packAdvance_errCnt (s : State) : (packAdvance s).errCnt = s.errCnt := by
  unfold packAdvance; split <;> rfl

@[simp] theorem packAdvance_fault (s : State) : (packAdvance s).fault = s.fault := by
  unfold packAdvance; split <;> rfl

@[simp] theorem packAdvance_mem (s : State) : (packAdvance s).mem = s.mem := by
  unfold packAdvance; split <;> rfl

@[simp] theorem packAdvance_engine (s : State) : (packAdvance s).engine = s.engine := by
  unfold packAdvance; split <;> rfl

@[simp] theorem packAdvance_rdata (s : State) : (packAdvance s).rdata = s.rdata := by
  unfold packAdvance; split <;> rfl

@[simp] theorem packAdvance_schedule (s : State) : (packAdvance s).schedule = s.schedule := by
  unfold packAdvance; split <;> rfl

@[simp] theorem packAdvance_boots (s : State) : (packAdvance s).boots = s.boots := by
  unfold packAdvance; split <;> rfl

theorem packAdvance_last {s : State} (h : s.pidx.toNat + 1 = s.halfWords) :
    packAdvance s = { s with pidx := 0, fpc := 3 } := if_pos h

theorem packAdvance_more {s : State} (h : s.pidx.toNat + 1 ≠ s.halfWords) :
    packAdvance s = { s with pidx := s.pidx + 1 } := if_neg h

end Sys2Proof.Machine
end

