-- ==== Sys2Proof/Laws/Ops.lean ====
section
/-! SUPPORT. One lemma per shared operation that says everything it can do; later proofs cite these and
unfold none of the operations. -/

namespace Sys2Proof.Machine

/-! ### Outcomes -/

theorem next_inj {s t : State} : ((.next s : Result) = .next t) ↔ s = t := by
  constructor
  · intro h; cases h; rfl
  · rintro rfl; rfl

/-! ### Faults and enabling -/

theorem raise_eq (c : Cause) (s : State) : raise c s = .next { s with fault := c.code } := rfl

theorem code_pos (c : Cause) : c.code ≠ 0 ∧ c.code.toNat ≤ 5 := by cases c <;> decide

@[simp] theorem unlessHalted_live {s : State} (h : s.fault = 0) (act : Result) :
    unlessHalted s act = act := if_pos h

@[simp] theorem unlessHalted_halted {s : State} (h : s.fault ≠ 0) (act : Result) :
    unlessHalted s act = .next s := if_neg h

/-- All that an operation of `IRQ` or `CFG` can do: nothing while halted, else its act. -/
theorem unlessHalted_cases (s : State) (act : Result) :
    (s.fault ≠ 0 ∧ unlessHalted s act = .next s) ∨ (s.fault = 0 ∧ unlessHalted s act = act) := by
  by_cases h : s.fault = 0
  · exact .inr ⟨h, unlessHalted_live h act⟩
  · exact .inl ⟨h, unlessHalted_halted h act⟩

@[simp] theorem inSlot_enabled {slot : BitVec 2} {s : State} (hr : s.running = true)
    (hf : s.fault = 0) (hp : s.fpc = slot) (act : Result) : inSlot slot s act = act :=
  if_pos ⟨hr, hf, hp⟩

/-- All that an operation of `FG` can do: nothing outside its slot, else its act. -/
theorem inSlot_cases (slot : BitVec 2) (s : State) (act : Result) :
    inSlot slot s act = .next s ∨
      (s.running = true ∧ s.fault = 0 ∧ s.fpc = slot ∧ inSlot slot s act = act) := by
  by_cases h : s.running = true ∧ s.fault = 0 ∧ s.fpc = slot
  · exact .inr ⟨h.1, h.2.1, h.2.2, if_pos h⟩
  · exact .inl (if_neg h)

/-! ### The write of a `PACK` step -/

/-- All that the write of a `PACK` step can do. -/
theorem packStore_cases (s : State) :
    (∃ f, packStore s = .fault f) ∨
      ∃ w, s.pidx.toNat < s.halfWords ∧ packWord s.blk s.depth32 s.pidx.toNat = some w ∧
        s.packAddr < bufWords s.params ∧
        packStore s =
          .next (packAdvance { s with mem := Memory.writeWord s.mem s.packAddr w }) := by
  unfold packStore
  split
  · exact .inl ⟨_, rfl⟩
  · next h =>
    split
    · exact .inl ⟨_, rfl⟩
    · next w hw =>
      split
      · next ha => exact .inr ⟨w, by omega, hw, ha, rfl⟩
      · exact .inl ⟨_, rfl⟩

/-- A word of the block is there for every index the block covers. -/
theorem packWord_eq {blk : List F32} {d : Bool} {n : Nat}
    (h : n / wordsPerSample d < blk.length) :
    packWord blk d n =
      some (frameWord d blk[n / wordsPerSample d] (n % wordsPerSample d)) := by
  simp [packWord, List.getElem?_eq_getElem h]

/-- Every sample packs to `K` words. -/
theorem packWords_length (d : Bool) (blk : List F32) :
    (packWords d blk).length = wordsPerSample d * blk.length := by
  induction blk with
  | nil => simp [packWords]
  | cons x xs ih =>
    have h : packWords d (x :: xs) =
        (if d then [msbWord x, lsbWord x, msbWord x, lsbWord x] else [q16 x, q16 x]) ++
          packWords d xs := rfl
    rw [h, List.length_append, ih, List.length_cons, Nat.mul_add]
    cases d <;> simp [wordsPerSample] <;> omega

/-- Word `n` of the list `pack_words` is the word of sample `n div K` at position `n mod K`
(42_packer.md R127, "Equivalently"). -/
theorem packWords_getElem? (d : Bool) (blk : List F32) (n : Nat) :
    (packWords d blk)[n]? = packWord blk d n := by
  induction blk generalizing n with
  | nil => simp [packWords, packWord]
  | cons x xs ih =>
    have h : packWords d (x :: xs) =
        (if d then [msbWord x, lsbWord x, msbWord x, lsbWord x] else [q16 x, q16 x]) ++
          packWords d xs := rfl
    rw [h]
    cases d
    · match n with
      | 0 => rfl
      | 1 => rfl
      | n + 2 =>
        have := ih n
        simp only [packWord, wordsPerSample] at this ⊢
        simpa [Nat.add_div_right, Nat.add_mod_right] using this
    · match n with
      | 0 => rfl
      | 1 => rfl
      | 2 => rfl
      | 3 => rfl
      | n + 4 =>
        have := ih n
        simp only [packWord, wordsPerSample] at this ⊢
        simpa [Nat.add_div_right, Nat.add_mod_right] using this

/-! ### The oscillator's block -/

theorem genSamples_length (w : Waveform) (inc : F32) (n : Nat) (p : F32) :
    (genSamples w inc n p).length = n := by
  induction n generalizing p with
  | zero => rfl
  | succ n ih => simp [genSamples, ih]

/-! ### The transition -/

/-- All that choosing and starting a transition does. -/
theorem step_eq (s : State) : step s = perform (nextStimulus s) (beginTransition s) := rfl

theorem nextStimulus_cons {s : State} {x : Stimulus} {xs : List Stimulus}
    (h : s.schedule = x :: xs) : nextStimulus s = x := by
  simp [nextStimulus, h]

theorem nextStimulus_nil {s : State} (h : s.schedule = []) : nextStimulus s = .fg := by
  simp [nextStimulus, h]

/-- `FG` performs the operation of its slot (10_state.md R32). -/
theorem fgTurn_eq (s : State) :
    fgTurn s =
      if s.fpc = 0 then execPoll s
      else if s.fpc = 1 then execGen s
      else if s.fpc = 2 then execPack s
      else execClr s := by
  have h0 : decodeSequencer 0x2000000000 = .instr .poll := by decide
  have h1 : decodeSequencer 0x2100000000 = .instr .gen := by decide
  have h2 : decodeSequencer 0x2200000000 = .instr .pack := by decide
  have h3 : decodeSequencer 0x2300000000 = .instr .clr := by decide
  unfold fgTurn seqRom
  split_ifs <;> simp only [h0, h1, h2, h3, exec]

/-- All that `IRQ` can do with a presented code. -/
theorem irqTurn_cases (ev : EventCode) (s : State) :
    (ev = 0b00 ∧ irqTurn ev s = .next s) ∨ (ev = 0b01 ∧ irqTurn ev s = execEvtHalf s) ∨
      (ev = 0b10 ∧ irqTurn ev s = execEvtFull s) ∨
      (ev = 0b11 ∧ irqTurn ev s = execEvtErr s) := by
  have h : ev = 0b00 ∨ ev = 0b01 ∨ ev = 0b10 ∨ ev = 0b11 := by
    revert ev; decide
  rcases h with rfl | rfl | rfl | rfl
  · exact .inl ⟨rfl, rfl⟩
  · exact .inr (.inl ⟨rfl, rfl⟩)
  · exact .inr (.inr (.inl ⟨rfl, rfl⟩))
  · exact .inr (.inr (.inr ⟨rfl, rfl⟩))

/-- All that the engine's turn can do (60_exceptions.md R186). -/
theorem txTurn_cases (s : State) :
    (s.engine.mode = .stopped ∧ txTurn s = .next s) ∨
      (s.engine.mode = .unspecified ∧ txTurn s = .refused .engineUnspecified) ∨
      (s.engine.mode = .streaming ∧ bufWords s.params ≤ s.engine.txPtr ∧
        txTurn s = .fault (.noSuchBufWord s.engine.txPtr)) ∨
      (s.engine.mode = .streaming ∧ s.engine.txPtr < bufWords s.params ∧
        txTurn s =
          irqTurn (boundaryEvent s.halflen.toNat (txAdvance s).engine.txPtr) (txAdvance s)) := by
  unfold txTurn
  rcases hm : s.engine.mode with _ | _ | _
  · exact .inl ⟨rfl, rfl⟩
  · by_cases h : s.engine.txPtr < bufWords s.params
    · exact .inr (.inr (.inr ⟨rfl, h, by simp [h]⟩))
    · exact .inr (.inr (.inl ⟨rfl, by omega, by simp [h]⟩))
  · exact .inr (.inl ⟨rfl, rfl⟩)

end Sys2Proof.Machine
end

