-- ==== Sys2Proof/Laws/Meanings.lean ====
section
/-! SUPPORT. What each meaning can do, said once: the cases a proof splits into instead of unfolding
the meaning. -/

namespace Sys2Proof.Machine

theorem execEvtHalf_cases (s : State) :
    (s.fault ≠ 0 ∧ execEvtHalf s = .next s) ∨
      (s.fault = 0 ∧ execEvtHalf s = .next (notify .pendingFirstHalf s)) :=
  unlessHalted_cases s _

theorem execEvtFull_cases (s : State) :
    (s.fault ≠ 0 ∧ execEvtFull s = .next s) ∨
      (s.fault = 0 ∧ execEvtFull s = .next (notify .pendingSecondHalf s)) :=
  unlessHalted_cases s _

theorem execEvtErr_cases (s : State) :
    (s.fault ≠ 0 ∧ execEvtErr s = .next s) ∨
      (s.fault = 0 ∧ execEvtErr s = .next { s with errCnt := satinc s.errCnt }) :=
  unlessHalted_cases s _

theorem execStart_cases (m : Word) (s : State) :
    (s.fault ≠ 0 ∧ execStart m s = .next s) ∨
      (s.fault = 0 ∧ s.running = true ∧ execStart m s = raise .badState s) ∨
      (s.fault = 0 ∧ s.running = false ∧ lookup s.params m = none ∧
        execStart m s = raise .badMode s) ∨
      (s.fault = 0 ∧ s.running = false ∧ ∃ row, lookup s.params m = some row ∧
        execStart m s = .next (latchMode m row s)) := by
  by_cases hf : s.fault = 0
  · right
    rw [execStart, unlessHalted_live hf]
    cases hr : s.running
    · right
      cases hl : lookup s.params m with
      | none => exact .inl ⟨hf, rfl, rfl, rfl⟩
      | some row => exact .inr ⟨hf, rfl, row, rfl, rfl⟩
    · exact .inl ⟨hf, rfl, rfl⟩
  · exact .inl ⟨hf, unlessHalted_halted hf _⟩

theorem execCfgInc_cases (x : F32) (s : State) :
    (s.fault ≠ 0 ∧ execCfgInc x s = .next s) ∨
      (s.fault = 0 ∧ isIncrement x = true ∧ execCfgInc x s = .next { s with inc := x }) ∨
      (s.fault = 0 ∧ isIncrement x = false ∧ execCfgInc x s = raise .badOperand s) := by
  by_cases hf : s.fault = 0
  · right
    rw [execCfgInc, unlessHalted_live hf]
    cases hx : isIncrement x
    · exact .inr ⟨hf, rfl, rfl⟩
    · exact .inl ⟨hf, rfl, rfl⟩
  · exact .inl ⟨hf, unlessHalted_halted hf _⟩

theorem execCfgWave_cases (w : Waveform) (s : State) :
    (s.fault ≠ 0 ∧ execCfgWave w s = .next s) ∨
      (s.fault = 0 ∧ execCfgWave w s = .next { s with wave := w }) :=
  unlessHalted_cases s _

theorem execCfgHalflen_cases (n : Word) (s : State) :
    (s.fault ≠ 0 ∧ execCfgHalflen n s = .next s) ∨
      (s.fault = 0 ∧ s.running = true ∧ execCfgHalflen n s = raise .badState s) ∨
      (s.fault = 0 ∧ s.running = false ∧ execCfgHalflen n s = .next { s with halflen := n }) := by
  by_cases hf : s.fault = 0
  · right
    rw [execCfgHalflen, unlessHalted_live hf]
    cases hr : s.running
    · exact .inr ⟨hf, rfl, rfl⟩
    · exact .inl ⟨hf, rfl, rfl⟩
  · exact .inl ⟨hf, unlessHalted_halted hf _⟩

theorem execPoll_cases (s : State) :
    execPoll s = .next s ∨
      (s.running = true ∧ s.fault = 0 ∧ s.fpc = 0 ∧ s.req ≠ .idle ∧
        execPoll s = .next { s with cap := s.req, fpc := 1 }) := by
  rcases inSlot_cases 0 s
    (if s.req = .idle then .next s else .next { s with cap := s.req, fpc := 1 }) with
    h | ⟨hr, hf, hp, h⟩
  · exact .inl h
  · by_cases hi : s.req = .idle
    · exact .inl (h.trans (if_pos hi))
    · exact .inr ⟨hr, hf, hp, hi, h.trans (if_neg hi)⟩

theorem execGen_cases (s : State) :
    execGen s = .next s ∨
      (s.running = true ∧ s.fault = 0 ∧ s.fpc = 1 ∧
        execGen s = .next
          { s with
            blk := genSamples s.wave s.inc s.params.blockSize s.phase
            phase := phaseAfter s.inc s.params.blockSize s.phase
            fpc := 2 }) :=
  inSlot_cases 1 s _

theorem execPack_cases (s : State) :
    execPack s = .next s ∨
      (s.running = true ∧ s.fault = 0 ∧ s.fpc = 2 ∧
        ((s.pidx = 0 ∧ s.halflen.toNat ≠ s.halfWords ∧ execPack s = raise .badLength s) ∨
          ((s.pidx = 0 → s.halflen.toNat = s.halfWords) ∧ execPack s = packStore s))) := by
  rcases inSlot_cases 2 s
    (if s.pidx = 0 ∧ s.halflen.toNat ≠ s.halfWords then raise .badLength s else packStore s) with
    h | ⟨hr, hf, hp, h⟩
  · exact .inl h
  · by_cases hl : s.pidx = 0 ∧ s.halflen.toNat ≠ s.halfWords
    · exact .inr ⟨hr, hf, hp, .inl ⟨hl.1, hl.2, h.trans (if_pos hl)⟩⟩
    · refine .inr ⟨hr, hf, hp, .inr ⟨fun h0 => ?_, h.trans (if_neg hl)⟩⟩
      by_contra hne
      exact hl ⟨h0, hne⟩

theorem execClr_cases (s : State) :
    execClr s = .next s ∨
      (s.running = true ∧ s.fault = 0 ∧ s.fpc = 3 ∧
        execClr s = .next { s with req := .idle, fpc := 0 }) :=
  inSlot_cases 3 s _

/-- All that a presented configuration word can do. -/
theorem configTurn_cases (w : OpWord) (s : State) :
    (∃ i, decodeConfig w = .instr i ∧ configTurn w s = exec i s) ∨
      ((∃ e, decodeConfig w = .rejected e) ∧
        configTurn w s = unlessHalted s (raise .illegalOp s)) := by
  unfold configTurn
  cases h : decodeConfig w with
  | instr i => exact .inl ⟨i, rfl, rfl⟩
  | rejected e => exact .inr ⟨⟨e, rfl⟩, rfl⟩

/-- All that a word of an engine whose behaviour is open can do. -/
theorem txAtTurn_cases (p : Nat) (s : State) :
    (s.engine.mode = .unspecified ∧ p < bufWords s.params ∧
        txAtTurn p s = .next { s with
          engine :=
            { s.engine with txPtr := p, stream := s.engine.stream ++ [s.transmitWord p] } }) ∨
      (s.engine.mode = .unspecified ∧ bufWords s.params ≤ p ∧
        txAtTurn p s = .fault (.noSuchBufWord p)) ∨
      (s.engine.mode ≠ .unspecified ∧ txAtTurn p s = .refused .engineContract) := by
  unfold txAtTurn
  rcases hm : s.engine.mode with _ | _ | _
  · exact .inr (.inr ⟨by simp, rfl⟩)
  · exact .inr (.inr ⟨by simp, rfl⟩)
  · by_cases h : p < bufWords s.params
    · exact .inl ⟨rfl, h, by simp [h]⟩
    · exact .inr (.inl ⟨rfl, by omega, by simp [h]⟩)

end Sys2Proof.Machine
end

