-- ==== Sys2Proof/Laws/PerInstr.lean ====
section
/-! SUPPORT. The statements made once per operation: the class nibble and the port of every encoding
(30_encoding.md R60 to R62, R65). -/

namespace Sys2Proof.Laws.PortClass

/-- The code of an operation stands on its agent's port: an event of `IRQ` is a non-zero event code,
a word of `CFG` has the class nibble 1 and a word of `FG` the class nibble 2 (30_encoding.md R62). -/
def Statement (i : Instr) : Prop :=
  match i.agent, encode i with
  | .irq, .event ev => ev ≠ 0
  | .cfg, .word w => (opField w).extractLsb' 4 4 = 1
  | .fg, .word w => (opField w).extractLsb' 4 4 = 2
  | _, _ => False

theorem evtHalf : Statement .evtHalf := by
  simp only [Statement, Instr.agent, encode]; decide
theorem evtFull : Statement .evtFull := by
  simp only [Statement, Instr.agent, encode]; decide
theorem evtErr : Statement .evtErr := by
  simp only [Statement, Instr.agent, encode]; decide
theorem start (m : Word) : Statement (.start m) := by
  simp only [Statement, Instr.agent, encode, opField_opWord]; decide
theorem cfgInc (x : F32) : Statement (.cfgInc x) := by
  simp only [Statement, Instr.agent, encode, opField_opWord]; decide
theorem cfgWave (w : Waveform) : Statement (.cfgWave w) := by
  simp only [Statement, Instr.agent, encode, opField_opWord]; decide
theorem cfgHalflen (n : Word) : Statement (.cfgHalflen n) := by
  simp only [Statement, Instr.agent, encode, opField_opWord]; decide
theorem rdreg (r : RegNum) : Statement (.rdreg r) := by
  simp only [Statement, Instr.agent, encode, opField_opWord]; decide
theorem poll : Statement .poll := by
  simp only [Statement, Instr.agent, encode, opField_opWord]; decide
theorem gen : Statement .gen := by
  simp only [Statement, Instr.agent, encode, opField_opWord]; decide
theorem pack : Statement .pack := by
  simp only [Statement, Instr.agent, encode, opField_opWord]; decide
theorem clr : Statement .clr := by
  simp only [Statement, Instr.agent, encode, opField_opWord]; decide

end Sys2Proof.Laws.PortClass
end

