-- ==== Sys2Proof/Laws/Range.lean ====
section
/-! SUPPORT. The domains of 10_state.md R35 (d) and (f) as inequalities of exact values, and the one
product of 41_oscillator.md R103 that is always exact. -/

namespace Sys2Proof.Machine

theorem isFinite_zero : isFinite F32.zero = true := by decide +kernel
theorem isFinite_one : isFinite F32.one = true := by decide +kernel
theorem isFinite_two : isFinite F32.two = true := by decide +kernel
theorem isFinite_negOne : isFinite F32.negOne = true := by decide +kernel
theorem scaledMag_two : scaledMag F32.two = 2 ^ 150 := by decide +kernel

theorem unitPhase_iff (p : F32) :
    unitPhase p = true ↔ isFinite p = true ∧ 0 ≤ scaled p ∧ scaled p < 2 ^ 149 := by
  unfold unitPhase
  by_cases h : isFinite p = true
  · have h1 := fge_iff h isFinite_zero
    have h2 := fgt_iff isFinite_one h
    rw [scaled_zero] at h1
    rw [scaled_one] at h2
    simp only [h, Bool.and_eq_true, h1, h2, true_and]
  · simp [h]

theorem inUnitRange_iff (x : F32) :
    inUnitRange x = true ↔ isFinite x = true ∧ |scaled x| ≤ 2 ^ 149 := by
  unfold inUnitRange
  by_cases h : isFinite x = true
  · have h1 := fge_iff h isFinite_negOne
    have h2 := fge_iff isFinite_one h
    rw [scaled_negOne] at h1
    rw [scaled_one] at h2
    simp only [h, Bool.and_eq_true, h1, h2, true_and, abs_le]
  · simp [h]

/-- Doubling a value of `[-1, 1]` is exact. -/
theorem scaled_fmul_two {x : F32} (hx : isFinite x = true) (h : |scaled x| ≤ 2 ^ 149) :
    isFinite (fmul F32.two x) = true ∧ scaled (fmul F32.two x) = 2 * scaled x := by
  have hmag : scaledMag x ≤ 2 ^ 149 := by rw [← natAbs_scaled]; zify; exact_mod_cast h
  obtain ⟨e, m, hb, hm, he, hv⟩ := magnitude_significand (fmag x)
  have hv' : scaledMag x = m * 2 ^ e := hv
  have hN : scaledMag F32.two * scaledMag x = (2 * scaledMag x) * 2 ^ 149 := by
    rw [scaledMag_two]; ring
  rw [fmul_of_isFinite isFinite_two hx, hN]
  obtain ⟨b', hb', hlt⟩ : ∃ b', magValue b' = 2 * scaledMag x ∧ b' < 0x7F800000 := by
    by_cases hm2 : m < 2 ^ 23
    · have he0 : e = 0 := by
        by_contra hh
        have := he hh
        omega
      refine ⟨0 * 2 ^ 23 + 2 * m, ?_, by omega⟩
      rw [magValue_significand (by omega) (by simp), hv', he0]; ring
    · refine ⟨(e + 1) * 2 ^ 23 + m, ?_, ?_⟩
      · rw [magValue_significand (by omega) (by omega), hv', pow_succ]; ring
      · have := magValue_le_iff.1
          (show magValue (fmag x) ≤ magValue 0x3F800000 by rw [magValue_one]; exact hmag)
        omega
  rw [← hb']
  have : roundScaled (fsign F32.two != fsign x) (magValue b' * 2 ^ 149) 149 =
      assemble (fsign x) b' := by
    rw [roundScaled, roundMag_exact, show fsign F32.two = false by decide]; simp
  rw [this]
  refine ⟨isFinite_assemble hlt, ?_⟩
  rw [scaled_assemble hlt, hb', scaled_eq]
  split <;> push_cast <;> ring

end Sys2Proof.Machine
end

