-- ==== Sys2Proof/Laws/Step.lean ====
section
/-! SUPPORT. The induction over one step, packaged once: a property that every operation keeps, and
that none of a step's own writes touches, is kept by every step. -/

namespace Sys2Proof.Machine

theorem wordsPerSample_pos (d : Bool) : 0 < wordsPerSample d := by cases d <;> decide

theorem blockSize_pos {p : Params} (h : paramsOk p = true) : 1 ≤ p.blockSize := by
  simp only [paramsOk, Bool.and_eq_true, decide_eq_true_eq] at h
  exact h.1.1

theorem halfWords_le (s : State) : s.halfWords ≤ 4 * s.params.blockSize := by
  unfold State.halfWords wordsPerSample
  exact Nat.mul_le_mul_right _ (by split <;> omega)

/-- A run of `n + 1` steps is its first step and a run of `n`. -/
theorem run_next {s t : State} (n : Nat) (h : step s = .next t) :
    Host.Core.run Sys2Proof.core (n + 1) s = Host.Core.run Sys2Proof.core n t := by
  have h' : Sys2Proof.core.step s = .next t := h
  exact (Host.Core.run.eq_2 Sys2Proof.core s n).trans (by rw [h'])

theorem step_preserves (P : State → Prop)
    (hexec : ∀ i s t, P s → exec i s = .next t → P t)
    (hfault : ∀ c s, P s → P { s with fault := c })
    (hschedule : ∀ s x y, P s → P { s with schedule := x, rdata := y })
    (hengine : ∀ s e, P s → P { s with engine := e })
    (hreset : ∀ s, P s → P (platformReset s)) :
    ∀ s t, P s → step s = .next t → P t := by
  intro s t h hx
  have hfg : ∀ s t, P s → fgTurn s = .next t → P t := by
    intro s t h hx
    rw [fgTurn_eq] at hx
    split_ifs at hx
    · exact hexec .poll _ _ h hx
    · exact hexec .gen _ _ h hx
    · exact hexec .pack _ _ h hx
    · exact hexec .clr _ _ h hx
  have hirq : ∀ ev s t, P s → irqTurn ev s = .next t → P t := by
    intro ev s t h hx
    rcases irqTurn_cases ev s with ⟨_, e⟩ | ⟨_, e⟩ | ⟨_, e⟩ | ⟨_, e⟩ <;> rw [e] at hx
    · rw [next_inj] at hx; subst hx; exact h
    · exact hexec .evtHalf _ _ h hx
    · exact hexec .evtFull _ _ h hx
    · exact hexec .evtErr _ _ h hx
  rw [step_eq] at hx
  have h' : P (beginTransition s) := hschedule s _ _ h
  generalize beginTransition s = s' at *
  cases hn : nextStimulus s with
  | event ev => rw [hn] at hx; exact hirq _ _ _ (hengine _ _ h') hx
  | config w =>
    rw [hn] at hx
    rcases configTurn_cases w s' with ⟨i, _, e⟩ | ⟨_, e⟩ <;> rw [perform, e] at hx
    · exact hexec _ _ _ h' hx
    · rcases unlessHalted_cases s' (raise .illegalOp s') with ⟨_, e⟩ | ⟨_, e⟩ <;> rw [e] at hx
      · rw [next_inj] at hx; subst hx; exact h'
      · rw [raise_eq, next_inj] at hx; subst hx; exact hfault _ _ h'
  | fg => rw [hn] at hx; exact hfg _ _ h' hx
  | tx =>
    rw [hn, perform] at hx
    rcases txTurn_cases s' with ⟨_, e⟩ | ⟨_, e⟩ | ⟨_, _, e⟩ | ⟨hm, _, e⟩ <;> rw [e] at hx
    · rw [next_inj] at hx; subst hx; exact h'
    · cases hx
    · cases hx
    · exact hirq _ _ _ (hengine _ _ h') hx
  | txAt p =>
    rw [hn, perform] at hx
    rcases txAtTurn_cases p s' with ⟨_, _, e⟩ | ⟨_, _, e⟩ | ⟨_, e⟩ <;> rw [e] at hx
    · rw [next_inj] at hx; subst hx; exact hengine _ _ h'
    · cases hx
    · cases hx
  | reset => rw [hn, perform, next_inj] at hx; subst hx; exact hreset _ h'

end Sys2Proof.Machine
end

