-- ==== Sys2Proof/Laws/Run.lean ====
section
/-! SUPPORT. The small lemmas of a run's history and of what ties the stream to the blocks: what a
transition records, what keeps the stream invariant as it is, and where a word of a block stands in the
concatenation. -/

namespace Sys2Proof.Machine

/-! ### The history -/

theorem record_refills_of_taken {h : History} {s t : State} (hp : fgPerforms 0 s = true)
    (hr : s.req ≠ .idle) : (h.record s t).refills = h.refills ++ [t.cap] := by
  unfold History.record
  rw [hp, decide_eq_true hr]
  rfl

theorem record_refills_of_not_taken {h : History} {s t : State}
    (hp : fgPerforms 0 s = false ∨ s.req = .idle) : (h.record s t).refills = h.refills := by
  unfold History.record
  rcases hp with hp | hp
  · rw [hp]
    rfl
  · rw [decide_eq_false (not_not.2 hp), Bool.and_false]
    rfl

theorem record_blocks_of_gen {h : History} {s t : State} (hp : fgPerforms 1 s = true) :
    (h.record s t).blocks = h.blocks ++ [t.blk] := by
  unfold History.record
  rw [hp]
  rfl

theorem record_blocks_of_not_gen {h : History} {s t : State} (hp : fgPerforms 1 s = false) :
    (h.record s t).blocks = h.blocks := by
  unfold History.record
  rw [hp]
  rfl

/-! ### The stream invariant -/

/-- A change of the state that leaves the stream, `BUF`, the pass and the request as they count does not
touch the stream invariant. -/
theorem streamInv_of_eq {start : Nat} {blocks : List (List F32)} {u v : State}
    (h : StreamInv start blocks u) (hengine : v.engine = u.engine) (hmem : v.mem = u.mem)
    (hlen : v.halflen = u.halflen) (hdepth : v.depth32 = u.depth32) (hparams : v.params = u.params)
    (hwaiting : (if v.req ≠ .idle ∧ (v.fpc = 0 ∨ v.fpc = 1) then 1 else 0) =
      (if u.req ≠ .idle ∧ (u.fpc = 0 ∨ u.fpc = 1) then 1 else 0))
    (hblk : v.fpc = 2 → u.fpc = 2 ∧ v.blk = u.blk)
    (hpacked : (if v.fpc = 2 then v.pidx.toNat else v.halflen.toNat) =
      (if u.fpc = 2 then u.pidx.toNat else u.halflen.toNat)) :
    StreamInv start blocks v := by
  have hs : halvesSent start v = halvesSent start u := by unfold halvesSent; rw [hengine, hlen]
  have hb : ∀ k, halfBase k v = halfBase k u := fun k => by unfold halfBase; rw [hlen]
  exact
    { started := by rw [hengine]; exact h.started
      position := by rw [hengine, hlen]; exact h.position
      counted := by rw [hwaiting, hs]; exact h.counted
      full := by rw [hparams]; exact h.full
      current := fun h2 => by rw [(hblk h2).2]; exact h.current (hblk h2).1
      sent := by rw [hengine, hlen, hdepth]; exact h.sent
      sending := fun k b hk hkb j hj => by
        rw [hmem, hb, hdepth]
        exact h.sending k b (by rw [← hs]; exact hk) hkb j (by rw [← hlen]; exact hj)
      refilled := fun k b hk hkb j hj => by
        rw [hmem, hb, hdepth]
        exact h.refilled k b (by rw [← hs]; exact hk) hkb j (by rw [← hpacked]; exact hj) }

/-! ### Where a word stands -/

/-- Word `j` of block `k` is word `k * L + j` of the concatenation of blocks of `L` words. -/
theorem getElem?_flatMap_of_length {α β : Type} (f : α → List β) (L : Nat) (bs : List α)
    (h : ∀ b ∈ bs, (f b).length = L) (k j : Nat) (hj : j < L) (b : α) (hb : bs[k]? = some b) :
    (bs.flatMap f)[k * L + j]? = (f b)[j]? := by
  induction bs generalizing k with
  | nil => simp at hb
  | cons x xs ih =>
    rw [List.flatMap_cons]
    have hx := h x (by simp)
    cases k with
    | zero =>
      simp only [List.getElem?_cons_zero, Option.some.injEq] at hb
      subst hb
      rw [List.getElem?_append_left (by omega)]
      simp
    | succ k =>
      simp only [List.getElem?_cons_succ] at hb
      rw [List.getElem?_append_right (by rw [hx, Nat.add_mul]; omega), hx,
        ← ih (fun b hb => h b (by simp [hb])) k hb]
      congr 1
      rw [Nat.add_mul]
      omega

/-- The engine's pointer after `m` words: the half, and the word in it. -/
theorem mod_two_mul (m L : Nat) : m % (2 * L) = m / L % 2 * L + m % L := by
  rw [Nat.mul_comm 2 L, Nat.mod_mul]
  ring

/-- The half being transmitted is told by how many halves have gone out. -/
theorem txHalf_of_streamInv {start : Nat} {blocks : List (List F32)} {s : State}
    (h : StreamInv start blocks s) (hL : 0 < s.halflen.toNat) :
    s.txHalf = if halvesSent start s % 2 = 0 then .first else .second := by
  unfold State.txHalf
  have hp := h.position
  rw [mod_two_mul] at hp
  have hm := Nat.mod_lt (s.engine.stream.length - start) hL
  change s.engine.txPtr = halvesSent start s % 2 * s.halflen.toNat + _ at hp
  rcases Nat.mod_two_eq_zero_or_one (halvesSent start s) with h0 | h0
  · rw [h0] at hp ⊢
    rw [if_pos (by omega)]
    rfl
  · rw [h0] at hp ⊢
    rw [if_neg (by omega)]
    rfl

end Sys2Proof.Machine
end

