-- ==== Sys2Proof/Tests/Slice0.lean ====
section
/-! SUPPORT. The model's own tests: expected values are those of 95_test_vectors.md (named with each
test) or of the encoding tables of 30_encoding.md; and for every statement of the obligations that has
hypotheses, a witness that meets them. -/

open Sys2Proof Sys2Proof.Machine

namespace Sys2Proof.Tests

-- One theorem after another: each kernel decision waits for those before it and would hold a thread.
set_option Elab.async false

/-! ### Small states -/

/-- Reset with `B = b` and `TEST_TABLE`. -/
def small (b : Nat) : State := State.resetWith { blockSize := b, modeTable := Config.testTable }

/-- `B = 2`, mode 0, `halflen = 4`, `inc = 0.25`, after `START` (V1.1). -/
def live : State :=
  { small 2 with
    running := true
    rate := 0x473B8000
    halflen := 4
    inc := 0x3E800000
    engine := { mode := .streaming, txPtr := 0, stream := [] } }

/-- A pass for FirstHalf at a slot, the engine at the head of SecondHalf. -/
def inPass (slot : BitVec 2) : State :=
  { live with
    req := .pendingFirstHalf
    cap := .pendingFirstHalf
    fpc := slot
    blk := [F32.negOne, 0xBF000000]
    engine := { mode := .streaming, txPtr := 4, stream := [] } }

/-- V3.6: `B = 2`, 32-bit, the pass for SecondHalf at its first `PACK`. -/
def packing32 : State :=
  { small 2 with
    running := true
    depth32 := true
    mode := 1
    halflen := 8
    req := .pendingSecondHalf
    cap := .pendingSecondHalf
    fpc := 2
    blk := [F32.one, 0xBF400000] }

/-- A halted block. -/
def halted : State := { live with fault := 2, req := .pendingFirstHalf }

/-- What a result's next state holds, if it has one. -/
def after {α : Type} (r : Result) (f : State → α) : Option α := (nextState r).map f

theorem exists_next {r : Result} (p : State → Bool) (h : (nextState r).any p = true) :
    ∃ t, r = .next t ∧ p t = true := by
  cases r with
  | next t => exact ⟨t, rfl, by simpa [nextState] using h⟩
  | fault f => simp [nextState] at h
  | refused f => simp [nextState] at h

/-! ### Well-formedness: the one check refuses an ill-formed term -/

theorem test_wf_refuses_named_register_by_number :
    (Instr.rdreg (.unassigned 0x0D)).wf = false ∧ (Instr.rdreg (.unassigned 0x00)).wf = false := by
  decide

theorem test_wf_accepts_unassigned_register :
    (Instr.rdreg (.unassigned 0x0E)).wf = true ∧ (Instr.rdreg (.unassigned 0xFF)).wf = true := by
  decide

/-! ### Decoding, the codes written from 30_encoding.md R61 to R64 and 95_test_vectors.md V5.1 -/

theorem test_decode_evt_half :
    decodeEvent 0b01 = .instr .evtHalf ∧ decodeTableWord 8 0b01 = some .evtHalf := by decide

theorem test_decode_evt_full :
    decodeEvent 0b10 = .instr .evtFull ∧ decodeTableWord 8 0b10 = some .evtFull := by decide

theorem test_decode_evt_err :
    decodeEvent 0b11 = .instr .evtErr ∧ decodeTableWord 8 0b11 = some .evtErr := by decide

theorem test_decode_start :
    decodeConfig 0x1000000002 = .instr (.start 2) := by decide

theorem test_decode_cfg_inc :
    decodeConfig 0x113C162FC9 = .instr (.cfgInc 0x3C162FC9) := by decide

theorem test_decode_cfg_wave :
    decodeConfig 0x1200000001 = .instr (.cfgWave .parabolicSine) ∧
      decodeConfig 0x12FFFFFFFE = .instr (.cfgWave .sawtooth) := by decide

theorem test_decode_cfg_halflen :
    decodeConfig 0x1300000200 = .instr (.cfgHalflen 512) := by decide

theorem test_decode_rdreg :
    decodeConfig 0x140000000C = .instr (.rdreg .fault) ∧
      decodeConfig 0x14FFFFFF06 = .instr (.rdreg .ctrl) ∧
      decodeConfig 0x140000000E = .instr (.rdreg (.unassigned 0x0E)) := by decide

theorem test_decode_sequencer_rom :
    decodeSequencer (seqRom 0) = .instr .poll ∧ decodeSequencer (seqRom 1) = .instr .gen ∧
      decodeSequencer (seqRom 2) = .instr .pack ∧ decodeSequencer (seqRom 3) = .instr .clr := by decide

theorem test_decode_poll :
    decodeSequencer 0x2000000000 = .instr .poll := by decide

theorem test_decode_gen :
    decodeSequencer 0x2100000000 = .instr .gen := by decide

theorem test_decode_pack :
    decodeSequencer 0x2200000000 = .instr .pack := by decide

theorem test_decode_clr :
    decodeSequencer 0x2300000000 = .instr .clr := by decide

theorem test_decode_refuses :
    decodeEvent 0b00 = .rejected .noEvent ∧
      decodeConfig 0x2000000000 = .rejected (.wrongPort 0x20) ∧
      decodeSequencer 0x1000000000 = .rejected (.wrongPort 0x10) ∧
      decodeConfig 0x0100000000 = .rejected (.illegalOp 0x01) ∧
      decodeConfig 0x1500000000 = .rejected (.illegalOp 0x15) ∧
      decodeConfig 0xFF00000000 = .rejected (.illegalOp 0xFF) ∧
      decodeSequencer 0x2400000000 = .rejected (.illegalOp 0x24) := by decide

/-- V5.1. -/
theorem test_encode_words :
    encode (.cfgHalflen 256) = .word 0x1300000100 ∧
      encode (.cfgWave .parabolicSine) = .word 0x1200000001 ∧
      encode (.rdreg .fault) = .word 0x140000000C ∧ traceWord .evtErr = 0x0300000000 := by decide

/-! ### Each operation as the first one after reset, placed by its table word -/

theorem test_first_evt_half :
    after (step (State.reset.withFetchWord 8 1)) (·.req) = some .pendingFirstHalf := by decide +kernel

theorem test_first_evt_full :
    after (step (State.reset.withFetchWord 8 2)) (·.req) = some .pendingSecondHalf := by decide +kernel

theorem test_first_evt_err :
    after (step (State.reset.withFetchWord 8 3)) (·.errCnt) = some 1 := by decide +kernel

/-- V5.1. -/
theorem test_first_start :
    after (step (State.reset.withFetchWord 40 0x1000000002))
      (fun t => (t.mode, t.depth32, t.rate, t.running, t.fault)) =
        some (2, false, 0x472C4400, true, 0) := by decide +kernel

/-- V5.1. -/
theorem test_first_cfg_inc :
    after (step (State.reset.withFetchWord 40 0x117F7FFFFF)) (·.inc) = some 0x7F7FFFFF := by decide +kernel

/-- V5.1. -/
theorem test_first_cfg_wave :
    after (step (State.reset.withFetchWord 40 0x1200000001)) (·.wave) = some .parabolicSine := by decide +kernel

/-- V5.1. -/
theorem test_first_cfg_halflen :
    after (step (State.reset.withFetchWord 40 0x1300000100)) (·.halflen) = some 256 := by decide +kernel

/-- V5.1. -/
theorem test_first_rdreg :
    after (step (State.reset.withFetchWord 40 0x140000000E)) (·.rdata) = some (some 0) := by decide +kernel

/-- V1.2: not taken. -/
theorem test_first_poll :
    after (step (State.reset.withFetchWord 40 0x2000000000)) (fun t => (t.cap, t.fpc)) = some (.idle, 0) := by decide +kernel

/-- 41_oscillator.md R109. -/
theorem test_first_gen :
    after (step (State.reset.withFetchWord 40 0x2100000000)) (fun t => (t.blk.length, t.phase, t.fpc)) =
      some (128, F32.zero, 2) := by decide +kernel

/-- 42_packer.md R123 with the reset `halflen` 0. -/
theorem test_first_pack :
    after (step (State.reset.withFetchWord 40 0x2200000000)) (fun t => (t.fault, t.fpc, t.pidx)) = some (2, 2, 0) := by decide +kernel

theorem test_first_clr :
    after (step (State.reset.withFetchWord 40 0x2300000000)) (fun t => (t.req, t.fpc)) = some (.idle, 0) := by decide +kernel

/-! ### One more test of each operation -/

/-- V1.4. -/
theorem test_evt_half_saturates :
    after (exec .evtHalf { small 2 with req := .pendingFirstHalf, ovrCnt := 0xFFFFFFFF })
      (fun t => (t.req, t.ovrCnt)) = some (.pendingFirstHalf, 0xFFFFFFFF) := by decide +kernel

/-- V1.4, V4.2. -/
theorem test_evt_full_overwrites :
    after (exec .evtFull { small 2 with req := .pendingFirstHalf })
      (fun t => (t.req, t.ovrCnt)) = some (.pendingSecondHalf, 1) := by decide +kernel

/-- V1.4. -/
theorem test_evt_err_saturates :
    after (exec .evtErr { small 2 with errCnt := 0xFFFFFFFF })
      (fun t => (t.req, t.errCnt)) = some (.idle, 0xFFFFFFFF) := by decide +kernel

/-- V5.2. -/
theorem test_start_tests_state_first :
    after (exec (.start 9) live) (fun t => (t.fault, t.mode)) = some (5, 0) ∧
      after (exec (.start 3) (small 2)) (fun t => (t.fault, t.running)) = some (1, false) := by decide +kernel

/-- V5.2. -/
theorem test_cfg_inc_refuses :
    after (exec (.cfgInc 0x80000000) (small 2)) (fun t => (t.fault, t.inc)) = some (4, 0) ∧
      after (exec (.cfgInc 0x7F800000) (small 2)) (fun t => (t.fault, t.inc)) = some (4, 0) ∧
      after (exec (.cfgInc 0xBF800000) (small 2)) (fun t => (t.fault, t.inc)) = some (4, 0) := by decide +kernel

/-- V5.2, last row. -/
theorem test_cfg_wave_halted :
    after (exec (.cfgWave .parabolicSine) halted) (·.wave) = some .sawtooth := by decide +kernel

/-- V5.2. -/
theorem test_cfg_halflen_after_start :
    after (exec (.cfgHalflen 8) live) (fun t => (t.fault, t.halflen)) = some (5, 4) := by decide +kernel

/-- V5.1, V5.2. -/
theorem test_rdreg_halted :
    after (exec (.rdreg .fault) halted) (·.rdata) = some (some 2) ∧
      after (exec (.rdreg .ctrl) { halted with wave := .parabolicSine, depth32 := true })
        (·.rdata) = some (some 7) := by decide +kernel

/-- V1.4. -/
theorem test_poll_captures :
    after (exec .poll { live with req := .pendingSecondHalf, cap := .pendingFirstHalf })
      (fun t => (t.fpc, t.cap, t.req)) = some (1, .pendingSecondHalf, .pendingSecondHalf) := by decide +kernel

/-- P1 and P2, the first two samples. -/
theorem test_gen_blocks :
    after (exec .gen { inPass 1 with inc := 0x3E000000 }) (fun t => (t.blk, t.phase)) =
        some ([0xBF800000, 0xBF400000], 0x3E800000) ∧
      after (exec .gen { inPass 1 with inc := 0x3E000000, wave := .parabolicSine }) (·.blk) =
        some [0x3F800000, 0x3F400000] := by decide +kernel

/-- V3.6. -/
theorem test_pack_words :
    after (exec .pack packing32) (fun t => (Memory.readWord t.mem 8, t.pidx)) =
        some (some 0x7FFF, 1) ∧
      after (exec .pack { packing32 with pidx := 7 })
        (fun t => (Memory.readWord t.mem 15, t.pidx, t.fpc)) = some (some 0x0001, 0, 3) ∧
      after (exec .pack { packing32 with pidx := 6 }) (fun t => Memory.readWord t.mem 14) =
        some (some 0xA000) := by decide +kernel

/-- V1.4, last row. -/
theorem test_clr_drops_late_notification :
    after (exec .clr { inPass 3 with req := .pendingSecondHalf })
      (fun t => (t.req, t.cap, t.fpc)) = some (.idle, .pendingFirstHalf, 0) := by decide +kernel

/-! ### Arithmetic, quantizers, the engine, the environment -/

/-- V2.1; P1 (0.875 + 0.125 = 1.0 wraps). -/
theorem test_arithmetic :
    fdiv 0x43DC0000 0x473B8000 = 0x3C162FC9 ∧ fadd 0x3F600000 0x3E000000 = F32.one ∧
      wrap F32.one = F32.zero := by decide +kernel

/-- V3.5: outside the domain, wrapped. -/
theorem test_quantizers :
    q16 0x3F800001 = 0x7FFF ∧ q32 0x3F800001 = 0x800000FE ∧ q16 0x3FC00000 = 0xBFFE ∧
      q32 0xBFC00000 = 0x40000002 ∧ q32 0x47000000 = 0xFFFF8000 := by decide +kernel

/-- 60_exceptions.md R186. -/
theorem test_engine_boundary :
    after (step { live with schedule := [.tx], engine := { live.engine with txPtr := 3 } })
      (fun t => (t.engine.txPtr, t.req)) = some (4, .pendingFirstHalf) ∧
      after (step { live with schedule := [.tx], engine := { live.engine with txPtr := 7 } })
      (fun t => (t.engine.txPtr, t.req)) = some (0, .pendingSecondHalf) := by decide +kernel

/-- V5.2. -/
theorem test_illegal_word :
    after (step { small 2 with schedule := [.config 0x1500000000] }) (·.fault) = some 3 := by decide +kernel

/-- V7.1: `FG` has no transition. -/
theorem test_no_turn_before_start :
    nextState (step (small 2)) = some (small 2) := by decide +kernel

/-- P5, with `cfg.wave saw`. -/
theorem test_boot_trace :
    Config.testTable.head?.map (fun row => bootTrace 128 0 row .sawtooth 0x43DC0000) = some
      [.config 0x1300000100, .config 0x1200000000, .config 0x113C162FC9, .config 0x1000000000] := by decide +kernel

/-! ### Witnesses: for each statement with hypotheses, values that meet all of them -/

theorem live_control : ControlInv live := by
  constructor <;> decide +kernel

theorem inPass_control (slot : BitVec 2) : ControlInv (inPass slot) := by
  revert slot
  have h : ∀ slot : BitVec 2, slot = 0 ∨ slot = 1 ∨ slot = 2 ∨ slot = 3 := by decide
  intro slot
  rcases h slot with h | h | h | h <;> subst h <;> constructor <;> decide +kernel

theorem live_numeric : NumericInv live := by
  constructor <;> decide +kernel

theorem inPass_numeric : NumericInv (inPass 2) where
  phase_ok := by decide +kernel
  inc_ok := by decide +kernel
  blk_ok := fun _ => List.all_eq_true.1
    (show (inPass 2).blk.all inUnitRange = true by decide +kernel)

theorem live_safe : SafeRun live :=
  { control := live_control
    streaming := rfl
    live := rfl
    no_overwrite := rfl
    first_free := by decide
    second_free := by decide
    pass_serves := by decide
    waiting_follows := by decide
    served_follows := by decide }

theorem inPass_safe : SafeRun (inPass 2) :=
  { control := inPass_control 2
    streaming := rfl
    live := rfl
    no_overwrite := rfl
    first_free := by decide
    second_free := by decide
    pass_serves := by decide
    waiting_follows := by decide
    served_follows := by decide }

theorem witness_PlatformResetRestoresRegisters :
    { halted with schedule := [.reset, .fg] }.schedule = .reset :: [.fg] := by decide +kernel

theorem witness_InvariantsHoldAtReset :
    paramsOk { blockSize := 1, modeTable := Config.testTable } = true := by decide +kernel

theorem witness_EvtHalfRequestsFirstHalf :
    live.fault = 0 ∧ { live with ovrCnt := 0xFFFFFFFF }.fault = 0 := by decide +kernel

theorem witness_EvtFullRequestsSecondHalf :
    live.fault = 0 ∧ { live with ovrCnt := 0xFFFFFFFE }.fault = 0 := by decide +kernel

theorem witness_EvtErrOnlyCounts :
    live.fault = 0 ∧ { live with errCnt := 0xFFFFFFFF }.fault = 0 := by decide +kernel

/-- One state for each clause: the two notifications, `CLR` in and out of its slot, `POLL`. -/
theorem witness_RequestTransitionTable :
    (live.fault = 0 ∧ (nextState (exec .evtHalf live)).isSome ∧ (nextState (exec .evtFull live)).isSome) ∧
    ((inPass 3).fault = 0 ∧ (inPass 3).running = true ∧ (inPass 3).fpc = 3 ∧
      (nextState (exec .clr (inPass 3))).isSome) ∧
    ((inPass 2).fault = 0 ∧ ¬((inPass 2).running = true ∧ (inPass 2).fpc = 3) ∧
      (nextState (exec .clr (inPass 2))).isSome) ∧
    (nextState (exec .poll live)).isSome := by decide +kernel

/-- Before `GEN`, before the last `PACK` step and before `CLR`. -/
theorem witness_NotificationDuringRefillIsLost :
    (ControlInv (inPass 1) ∧ (inPass 1).fpc ≠ 0 ∧ turnsLeft (inPass 1) = 6) ∧
    (ControlInv { inPass 2 with pidx := 3 } ∧ turnsLeft { inPass 2 with pidx := 3 } = 2) ∧
    ((inPass 3).fpc = 3 ∧ turnsLeft (inPass 3) = 1) ∧
    (inPass 1).halflen.toNat = (inPass 1).halfWords ∧ (inPass 1).running = true ∧
    (inPass 1).fault = 0 ∧ (inPass 1).req ≠ .idle ∧
    { inPass 3 with schedule := [.event 0b10, .fg] }.schedule =
      .event 0b10 :: (List.replicate (turnsLeft (inPass 3)) .fg ++ []) :=
  ⟨⟨inPass_control 1, by decide, by decide⟩, ⟨by constructor <;> decide +kernel, by decide⟩,
    by decide⟩

theorem witness_PollCapturesPendingRequest :
    live.running = true ∧ live.fault = 0 ∧ live.fpc = 0 ∧ live.req = .idle ∧
      { live with req := .pendingFirstHalf }.req ≠ .idle := by decide +kernel

theorem witness_ClrWritesIdle :
    (inPass 3).running = true ∧ (inPass 3).fault = 0 ∧ (inPass 3).fpc = 3 := by decide +kernel

theorem witness_GenProducesBlock :
    (inPass 1).running = true ∧ (inPass 1).fault = 0 ∧ (inPass 1).fpc = 1 ∧
      0 < (inPass 1).params.blockSize ∧ 1 < (inPass 1).params.blockSize := by decide +kernel

/-- The hypotheses of `Obligations.PackWritesOneWord`. -/
def packHypotheses (s : State) (K : Nat) : Bool :=
  decide (K = if s.depth32 then 4 else 2) && s.running && decide (s.fault = 0) &&
  decide (s.fpc = 2) && Memory.wf s.mem && decide (s.blk.length = s.params.blockSize) &&
  decide (s.pidx.toNat < K * s.params.blockSize) &&
  (decide (s.pidx ≠ 0) || decide (s.halflen.toNat = K * s.params.blockSize)) &&
  decide (s.packAddr < 8 * s.params.blockSize)

/-- The first and the last word, of either depth and either half. -/
theorem witness_PackWritesOneWord :
    packHypotheses packing32 4 = true ∧ packHypotheses { packing32 with pidx := 7 } 4 = true ∧
    packHypotheses (inPass 2) 2 = true ∧ packHypotheses { inPass 2 with pidx := 3 } 2 = true := by
  decide +kernel

theorem witness_PackChecksLength :
    packing32.running = true ∧ packing32.fault = 0 ∧ packing32.fpc = 2 ∧ packing32.pidx = 0 ∧
      { packing32 with halflen := 4 }.halflen.toNat ≠ 4 * packing32.params.blockSize ∧
      { packing32 with halflen := 9 }.halflen.toNat ≠ 4 * packing32.params.blockSize := by decide +kernel

theorem witness_PackStopsOutsideBlock :
    packing32.running = true ∧ packing32.fault = 0 ∧ packing32.fpc = 2 ∧
      4 * packing32.params.blockSize ≤ { packing32 with pidx := 8 }.pidx.toNat ∧
      { packing32 with pidx := 8 }.pidx ≠ 0 := by decide +kernel

theorem witness_SequencerNeedsRunningAndSlot :
    ((small 2).running = false ∨ (small 2).fault ≠ 0) ∧ (halted.running = false ∨ halted.fault ≠ 0) ∧
      Instr.gen.agent = .fg ∧ decodeSequencer (seqRom (inPass 2).fpc) ≠ .instr .gen := by decide +kernel

theorem witness_PollPassRefillsHalf :
    ControlInv { live with req := .pendingFirstHalf } ∧
    ControlInv { live with req := .pendingSecondHalf } ∧
    live.running = true ∧ live.fault = 0 ∧ live.fpc = 0 ∧
    live.halflen.toNat = live.halfWords ∧ live.schedule = [] :=
  ⟨by constructor <;> decide +kernel, by constructor <;> decide +kernel, by decide⟩

theorem witness_StartLatchesMode :
    (small 2).fault = 0 ∧ (small 2).running = false ∧ live.fault = 0 ∧ live.running = true ∧
      (small 2).params.modeTable.length ≤ (3 : Word).toNat ∧
      (small 2).params.modeTable[(2 : Word).toNat]? =
        some { mode := 2, depth32 := false, clockParams := 0, actualSampleRate := 0x472C4400 } ∧
      live.halflen.toNat = 2 * live.params.blockSize := by decide +kernel

theorem witness_CfgIncChecksIncrement :
    live.fault = 0 ∧ isFinite 0x3E800000 = true ∧ fgt 0x3E800000 F32.zero = true ∧
      ¬(isFinite 0x80000000 = true ∧ fgt 0x80000000 F32.zero = true) := by decide +kernel

theorem witness_IncrementPatternsAccepted :
    live.fault = 0 ∧ (1 ≤ (0x00000001 : F32).toNat ∧ (0x7F7FFFFF : F32).toNat ≤ 0x7F7FFFFF) ∧
      ¬(1 ≤ (0x00000000 : F32).toNat) ∧ ¬((0x7F800000 : F32).toNat ≤ 0x7F7FFFFF) := by decide +kernel

theorem witness_CfgWaveSelectsStrategy :
    live.fault = 0 ∧ (0xFFFFFFFE : Word).getLsbD 0 = false ∧ (1 : Word).getLsbD 0 = true := by decide +kernel

theorem witness_CfgHalflenBeforeStartOnly :
    live.fault = 0 ∧ live.running = true ∧ (small 2).fault = 0 ∧ (small 2).running = false := by decide +kernel

theorem witness_HaltedBlockIgnoresOperations :
    halted.fault ≠ 0 ∧ opField 0x1000000000 ≠ 0x14 ∧ opField 0x1500000000 ≠ 0x14 := by decide +kernel

/-- One state for each cause an operation raises. -/
theorem witness_FaultsArePreciseAndByTable :
    (∃ t, exec (.start 3) (small 2) = .next t ∧ decide (t.fault = 1) = true) ∧
    (∃ t, exec .pack { inPass 2 with halflen := 5 } = .next t ∧ decide (t.fault = 2) = true) ∧
    (∃ t, exec (.cfgInc 0) live = .next t ∧ decide (t.fault = 4) = true) ∧
    (∃ t, exec (.start 0) live = .next t ∧ decide (t.fault = 5) = true) ∧
    (∃ t, exec (.cfgHalflen 8) live = .next t ∧ decide (t.fault = 5) = true) ∧
    (small 2).fault = 0 ∧ (inPass 2).fault = 0 ∧ live.fault = 0 :=
  ⟨exists_next (fun t => decide (t.fault = 1)) (by decide +kernel),
   exists_next (fun t => decide (t.fault = 2)) (by decide +kernel),
   exists_next (fun t => decide (t.fault = 4)) (by decide +kernel),
   exists_next (fun t => decide (t.fault = 5)) (by decide +kernel),
   exists_next (fun t => decide (t.fault = 5)) (by decide +kernel), by decide⟩

theorem witness_IllegalWordRaisesIllegalOp :
    { live with schedule := [.config 0x1500000000] }.schedule = .config 0x1500000000 :: [] ∧
      opField 0x1500000000 = 0x15 ∧ opField 0x0F00000000 = 0x0F ∧ halted.fault ≠ 0 ∧ live.fault = 0 := by decide +kernel

theorem witness_FaultAndRunningAreSticky :
    nextStimulus { halted with schedule := [.config 0x1200000001] } ≠ .reset ∧ halted.fault ≠ 0 ∧
    halted.running = true ∧
    ∃ t, step { halted with schedule := [.config 0x1200000001] } = .next t ∧ true = true :=
  ⟨by decide, by decide, by decide, exists_next (fun _ => true) (by decide +kernel)⟩

theorem witness_StepRunsConfigurationWord :
    { live with schedule := [.config 0x1200000001] }.schedule = .config 0x1200000001 :: [] ∧
      decodeConfig 0x1200000001 = .instr (.cfgWave .parabolicSine) := by decide +kernel

theorem witness_StepRunsEventCode :
    { live with schedule := [.event 0b11] }.schedule = .event 0b11 :: [] ∧
      decodeEvent 0b11 = .instr .evtErr ∧ decodeEvent 0b01 = .instr .evtHalf := by decide +kernel

theorem witness_StepRunsSequencerSlot :
    live.schedule = [] ∧ { live with schedule := [.fg] }.schedule = .fg :: [] ∧
      (inPass 0).fpc = 0 ∧ (inPass 1).fpc = 1 ∧ (inPass 2).fpc = 2 ∧ (inPass 3).fpc = 3 ∧
      (inPass 3).schedule = [] := by decide +kernel

theorem witness_PlacedTableWordRunsNext :
    decodeTableWord 8 3 = some .evtErr ∧ decodeTableWord 40 0x2200000000 = some .pack ∧
      decodeTableWord 40 0x140000000C = some (.rdreg .fault) ∧
      decodeTableWord 40 0x1000000002 = some (.start 2) := by decide +kernel

theorem witness_DecodeEncodeRoundTrip :
    (Instr.rdreg (.unassigned 0x0E)).wf = true ∧ (Instr.cfgWave .parabolicSine).wf = true ∧
      Instr.evtErr.wf = true := by decide +kernel

theorem witness_EncodeDecodeClearsIgnoredBits :
    decodeWord 0x12FFFFFFFE = .instr (.cfgWave .sawtooth) ∧ opField 0x12FFFFFFFE = 0x12 ∧
      decodeWord 0x14FFFFFF0C = .instr (.rdreg .fault) ∧ opField 0x14FFFFFF0C = 0x14 ∧
      decodeWord 0x1300000200 = .instr (.cfgHalflen 512) ∧ (opField 0x1300000200).toNat < 0x20 ∧
      decodeWord 0x2000000001 = .instr .poll ∧ ¬(opField 0x2000000001).toNat < 0x20 := by decide +kernel

theorem witness_SingleWriterDiscipline :
    Instr.evtHalf.agent = .irq ∧ Instr.clr.agent = .fg ∧ (Instr.cfgHalflen 8).agent = .cfg := by
  decide

theorem witness_SingleWriterDiscipline_next :
    (nextState (exec .evtHalf live)).isSome ∧ (nextState (exec .clr (inPass 3))).isSome ∧
    (nextState (exec (.cfgHalflen 8) (small 2))).isSome := by decide +kernel

theorem witness_OnlyPackWritesBuf :
    nextStimulus (inPass 1) ≠ .reset ∧ ¬(nextStimulus (inPass 1) = .fg ∧ (inPass 1).fpc = 2) ∧
    ∃ t, step (inPass 1) = .next t ∧ true = true :=
  ⟨by decide, by decide, exists_next (fun _ => true) (by decide +kernel)⟩

theorem witness_ParametersAreConstant :
    ∃ t, step { live with schedule := [.config 0x1200000001] } = .next t ∧ true = true :=
  exists_next (fun _ => true) (by decide +kernel)

theorem witness_StepKeepsMemoryCanonical :
    Memory.wf (inPass 2).mem = true ∧
    ∃ t, step (inPass 2) = .next t ∧ decide (t.mem.length = 2) = true :=
  ⟨rfl, exists_next (fun t => decide (t.mem.length = 2)) (by decide +kernel)⟩

theorem witness_StepKeepsControlInvariant :
    ControlInv (inPass 2) ∧ ∃ t, step (inPass 2) = .next t ∧ decide (t.pidx = 1) = true :=
  ⟨inPass_control 2, exists_next (fun t => decide (t.pidx = 1)) (by decide +kernel)⟩

theorem witness_StepKeepsNumericInvariant :
    NumericInv { live with fpc := 1 } ∧
    ∃ t, step { live with fpc := 1 } = .next t ∧ decide (t.phase = 0x3F000000) = true :=
  ⟨by constructor <;> decide +kernel,
   exists_next (fun t => decide (t.phase = 0x3F000000)) (by decide +kernel)⟩

/-- One state for each disjunct; the last move of an open engine inside `BUF` answers. -/
theorem witness_InvariantStatesStopOnlyAtOpenEngineMoves :
    ControlInv live ∧
    (let s : State := { live with engine := { live.engine with mode := .unspecified } }
     ControlInv s ∧ nextState (step { s with schedule := [.tx] }) = none ∧
       nextState (step { s with schedule := [.txAt 16] }) = none ∧
       (nextState (step { s with schedule := [.txAt 15] })).isSome = true) ∧
    nextState (step { live with schedule := [.txAt 0] }) = none :=
  ⟨live_control, ⟨by constructor <;> decide +kernel, by decide +kernel⟩, by decide +kernel⟩

/-- The engine's last word of FirstHalf, every request served: a boundary that is on time. -/
theorem witness_OnTimeStepKeepsSafeRun :
    ∃ s, SafeRun s ∧ onTime s ∧ crossesBoundary s ∧
      ∃ t, step s = .next t ∧ decide (t.fault = 0 ∧ t.req = .pendingFirstHalf) = true := by
  refine ⟨{ live with schedule := [.tx], engine := { live.engine with txPtr := 3 } }, ?_, ?_, ?_, ?_⟩
  · exact
      { control := by constructor <;> decide +kernel
        streaming := rfl
        live := rfl
        no_overwrite := rfl
        first_free := by decide
        second_free := by decide
        pass_serves := by decide
        waiting_follows := by decide
        served_follows := by decide }
  · intro _
    rfl
  · unfold crossesBoundary
    decide +kernel
  · exact exists_next (fun t => decide (t.fault = 0 ∧ t.req = .pendingFirstHalf))
      (by decide +kernel)

/-- A configuration word in a safe run is on time too. -/
theorem witness_OnTimeStepKeepsSafeRun_config :
    SafeRun live ∧ onTime { live with schedule := [.config 0x1200000001] } := ⟨live_safe, trivial⟩

theorem witness_SafePackSparesTransmittedHalf :
    SafeRun (inPass 2) ∧ (inPass 2).fpc = 2 ∧ (inPass 2).txHalf = .second ∧
    ∃ t, exec .pack (inPass 2) = .next t ∧ decide (t.pidx = 1) = true :=
  ⟨inPass_safe, rfl, rfl, exists_next (fun t => decide (t.pidx = 1)) (by decide +kernel)⟩

theorem witness_EngineTransmitsAndNotifies :
    live.engine.mode = .streaming ∧ 0 < live.halflen.toNat ∧ 2 * live.halflen.toNat ≤ 8 * live.params.blockSize ∧
      { live.engine with txPtr := 3 }.txPtr < 2 * live.halflen.toNat ∧ (3 + 1) % 8 = live.halflen.toNat ∧
      { live.engine with txPtr := 7 }.txPtr < 2 * live.halflen.toNat ∧ (7 + 1) % 8 = 0 ∧
      live.engine.txPtr < 2 * live.halflen.toNat ∧
      { live with schedule := [.tx] }.schedule = .tx :: [] := by decide +kernel

theorem witness_OneEventPerHalfTransmitted :
    live.engine.mode = .streaming ∧ live.fault = 0 ∧ 0 < live.halflen.toNat ∧
      2 * live.halflen.toNat ≤ 8 * live.params.blockSize ∧ live.engine.txPtr = 0 ∧
      { live with schedule := [.tx, .tx, .tx, .tx] }.schedule =
        List.replicate live.halflen.toNat .tx ++ [] ∧
      3 < live.halflen.toNat ∧ (inPass 2).engine.txPtr = (inPass 2).halflen.toNat := by decide +kernel

/-- `1 + 2^-24` is a tie, rounded to the even fraction; the largest finite value plus `2^103` is the
least sum that overflows. -/
theorem witness_AdditionIsCorrectlyRounded :
    (isFinite 0x3F800000 = true ∧ isFinite 0x33800000 = true ∧
      |scaled 0x3F800000 + scaled 0x33800000| < (2 ^ 25 - 1) * 2 ^ 252 ∧
      fadd 0x3F800000 0x33800000 = 0x3F800000 ∧ isFinite 0x3F800001 = true ∧
      |scaled 0x3F800000 - (scaled 0x3F800000 + scaled 0x33800000)| =
        |scaled 0x3F800001 - (scaled 0x3F800000 + scaled 0x33800000)|) ∧
    (isFinite 0x7F7FFFFF = true ∧ isFinite 0x73000000 = true ∧
      (2 ^ 25 - 1) * 2 ^ 252 = |scaled 0x7F7FFFFF + scaled 0x73000000| ∧
      fadd 0x7F7FFFFF 0x73000000 = 0x7F800000 ∧ fadd 0x7F7FFFFF 0x72FFFFFF = 0x7F7FFFFF) := by
  decide +kernel

/-- `(1 + 2^-23) * 1.5` is a tie; `1082401 * (31 * 2^103)` is the least magnitude that overflows. -/
theorem witness_MultiplicationIsCorrectlyRounded :
    (isFinite 0x3F800001 = true ∧ isFinite 0x3FC00000 = true ∧
      |scaled 0x3F800001 * scaled 0x3FC00000| < (2 ^ 25 - 1) * 2 ^ 252 * 2 ^ 149 ∧
      fmul 0x3F800001 0x3FC00000 = 0x3FC00002 ∧ isFinite 0x3FC00001 = true ∧
      |scaled 0x3FC00002 * 2 ^ 149 - scaled 0x3F800001 * scaled 0x3FC00000| =
        |scaled 0x3FC00001 * 2 ^ 149 - scaled 0x3F800001 * scaled 0x3FC00000|) ∧
    (isFinite 0x49842108 = true ∧ isFinite 0x75780000 = true ∧
      (2 ^ 25 - 1) * 2 ^ 252 * 2 ^ 149 = |scaled 0x49842108 * scaled 0x75780000| ∧
      fmul (fneg 0x49842108) 0x75780000 = 0xFF800000) := by
  decide +kernel

/-- `440 / 48000` (V2.1); three times the least subnormal by 2 is a tie; the largest finite value by the
least subnormal overflows. -/
theorem witness_DivisionIsCorrectlyRounded :
    (isFinite 0x43DC0000 = true ∧ isFinite 0x473B8000 = true ∧ scaled 0x473B8000 ≠ 0 ∧
      |scaled 0x43DC0000 * 2 ^ 149| < (2 ^ 25 - 1) * 2 ^ 252 * |scaled 0x473B8000|) ∧
    (isFinite 0x00000003 = true ∧ scaled F32.two ≠ 0 ∧ fdiv 0x00000003 F32.two = 0x00000002 ∧
      |scaled 0x00000002 * scaled F32.two - scaled 0x00000003 * 2 ^ 149| =
        |scaled 0x00000001 * scaled F32.two - scaled 0x00000003 * 2 ^ 149|) ∧
    (isFinite 0x7F7FFFFF = true ∧ isFinite 0x80000001 = true ∧ scaled 0x80000001 ≠ 0 ∧
      (2 ^ 25 - 1) * 2 ^ 252 * |scaled 0x80000001| ≤ |scaled 0x7F7FFFFF * 2 ^ 149| ∧
      fdiv 0x7F7FFFFF 0x80000001 = 0xFF800000) := by
  decide +kernel

theorem witness_WrapIsFractionalPart :
    isFinite F32.one = true ∧ 0 ≤ scaled F32.one ∧ scaled F32.one % 2 ^ 149 = 0 ∧
      isFinite 0x80000000 = true ∧ 0 ≤ scaled 0x80000000 ∧
      isFinite 0x3FC00000 = true ∧ 0 ≤ scaled 0x3FC00000 := by decide +kernel

theorem witness_SamplesStayInRange :
    unitPhase F32.zero = true ∧ unitPhase 0x3F7FFFFF = true := by decide +kernel

theorem witness_GenWithZeroIncrementIsConstant :
    { inPass 1 with inc := F32.zero }.running = true ∧ (inPass 1).fault = 0 ∧ (inPass 1).fpc = 1 ∧
      { inPass 1 with inc := F32.zero }.inc = F32.zero ∧ (inPass 1).phase.toNat < 0x3F800000 := by decide +kernel

theorem witness_LargeIncrementClearsPhase :
    unitPhase 0x3F7FFFFF = true ∧ isFinite 0x4B800000 = true ∧ fge 0x4B800000 0x4B800000 = true := by decide +kernel

theorem witness_Quantizer16TruncatesTowardZero :
    inUnitRange F32.one = true ∧ inUnitRange F32.negOne = true ∧ q16 F32.negOne = 0x8001 := by decide +kernel

theorem witness_Quantizer32TruncatesTowardZero :
    inUnitRange F32.one = true ∧ inUnitRange F32.negOne = true ∧ q32 F32.negOne = 0x80000001 := by decide +kernel

theorem witness_QuantizersWrapWithoutClamp :
    isFinite 0x3FC00000 = true ∧ isFinite 0x7F7FFFFF = true := by decide +kernel

/-! ### Witnesses of a run -/

/-- `onTime`, computed. -/
def timely (s : State) : Bool :=
  match nextStimulus s with
  | .tx =>
    decide (boundaryEvent s.halflen.toNat (txAdvance s).engine.txPtr = 0b00) ||
      decide (s.req = .idle)
  | .event ev => decide (ev = 0b00)
  | .reset => false
  | .config _ | .fg | .txAt _ => true

theorem onTime_of_timely {s : State} (h : timely s = true) : onTime s := by
  unfold timely at h
  unfold onTime
  cases hn : nextStimulus s with
  | tx =>
    rw [hn] at h
    rcases Bool.or_eq_true_iff.1 h with h | h
    · exact fun hne => absurd (of_decide_eq_true h) hne
    · exact fun _ => of_decide_eq_true h
  | event ev => rw [hn] at h; exact of_decide_eq_true h
  | reset => rw [hn] at h; cases h
  | config w => trivial
  | fg => trivial
  | txAt p => trivial

/-- At most `n` transitions on time, with their history. -/
def replay : Nat → History → State → Option (History × State)
  | 0, h, s => some (h, s)
  | n + 1, h, s =>
    if timely s then
      match step s with
      | .next t => if t.fault = 0 then replay n (h.record s t) t else none
      | .fault _ => none
      | .refused _ => none
    else none

theorem onTimeRun_of_replay {s : State} (n : Nat) {h h' : History} {t u : State}
    (run : OnTimeRun s h t) (hr : replay n h t = some (h', u)) : OnTimeRun s h' u := by
  induction n generalizing h t with
  | zero => simp only [replay, Option.some.injEq, Prod.mk.injEq] at hr; obtain ⟨rfl, rfl⟩ := hr; exact run
  | succ n ih =>
    unfold replay at hr
    split at hr
    · next ht =>
      split at hr
      · next v hv =>
        split at hr
        · next hf => exact ih (.step run (onTime_of_timely ht) hv hf) hr
        · cases hr
      · cases hr
      · cases hr
    · cases hr

/-- `B = 1`, 16-bit, right after `START`: two words to a half. -/
def started : State :=
  { small 1 with
    running := true
    rate := 0x473B8000
    halflen := 2
    inc := 0x3E800000
    engine := { mode := .streaming, txPtr := 0, stream := [] }
    schedule := [.tx, .tx, .fg, .fg, .fg, .fg, .fg, .tx, .tx, .tx, .fg] }

theorem started_justStarted : JustStarted started where
  safe :=
    { control := by constructor <;> decide +kernel
      streaming := rfl
      live := rfl
      no_overwrite := rfl
      first_free := by decide
      second_free := by decide
      pass_serves := by decide
      waiting_follows := by decide
      served_follows := by decide }
  nothing_requested := rfl
  nothing_served := rfl
  at_first_word := rfl

theorem exists_run (n : Nat) (p : History → State → Bool)
    (h : (replay n .empty started).any (fun x => p x.1 x.2) = true) :
    ∃ h t, OnTimeRun started h t ∧ p h t = true := by
  cases hr : replay n .empty started with
  | none => rw [hr] at h; cases h
  | some x =>
    rw [hr] at h
    exact ⟨x.1, x.2, onTimeRun_of_replay n .start hr, h⟩

/-- Two captures: FirstHalf, then SecondHalf. -/
theorem witness_RefillsAlternateInSafeRun :
    JustStarted started ∧ ∃ h t, OnTimeRun started h t ∧
      decide (h.refills = [.pendingFirstHalf, .pendingSecondHalf]) = true :=
  ⟨started_justStarted, exists_run 11
    (fun h _ => decide (h.refills = [.pendingFirstHalf, .pendingSecondHalf])) (by decide +kernel)⟩

/-- The first word of the third half is the first word of the first block, `saw(0) = -1`. -/
theorem witness_SafeRunStreamsConsecutiveBlocks :
    JustStarted started ∧ ∃ h t, OnTimeRun started h t ∧
      decide (t.engine.stream.drop 4 = [0x8001] ∧ h.blocks = [[F32.negOne]]) = true :=
  ⟨started_justStarted, exists_run 11
    (fun h t => decide (t.engine.stream.drop 4 = [0x8001] ∧ h.blocks = [[F32.negOne]]))
    (by decide +kernel)⟩

theorem witness_StartBeginsSafeRun :
    ControlInv { small 2 with halflen := 4 } ∧ (small 2).fault = 0 ∧ (small 2).running = false ∧
    (small 2).req = .idle ∧ (small 2).cap = .idle ∧ (small 2).ovrCnt = 0 ∧
    ((small 2).params.modeTable[(0 : Word).toNat]?).map (·.depth32) = some false ∧
    (4 : Word).toNat = 2 * (small 2).params.blockSize :=
  ⟨by constructor <;> decide +kernel, by decide⟩

/-- The third half about to go out: block 0 in FirstHalf, the request for SecondHalf waiting. -/
def thirdHalf : State :=
  { started with
    req := .pendingSecondHalf
    cap := .pendingFirstHalf
    engine := { mode := .streaming, txPtr := 0, stream := [1, 2, 3, 4] }
    mem := [(0, 0x01), (1, 0x80), (2, 0x01), (3, 0x80)]
    schedule := [.tx] }

theorem thirdHalf_stream : StreamInv 0 [[F32.negOne]] thirdHalf where
  started := by decide
  position := by decide
  counted := by decide
  full := by decide +kernel
  current := by decide
  sent := by decide +kernel
  sending := by
    intro k b hk hb j hj
    obtain rfl : k = 0 := by
      have h : halvesSent 0 thirdHalf = 2 := by decide
      omega
    obtain rfl : [F32.negOne] = b := by simpa using hb
    have h : ∀ i : Fin 2, Memory.readWord thirdHalf.mem (halfBase 0 thirdHalf + i.val) =
        (packWords thirdHalf.depth32 [F32.negOne])[i.val]? := by decide +kernel
    exact h ⟨j, hj⟩
  refilled := by
    intro k b hk hb
    obtain rfl : k = 1 := by
      have h : halvesSent 0 thirdHalf = 2 := by decide
      omega
    simp at hb

theorem witness_OnTimeStepKeepsStreamInvariant :
    SafeRun thirdHalf ∧
    StreamInv 0 ({ refills := [.pendingFirstHalf], blocks := [[F32.negOne]] } : History).blocks
      thirdHalf ∧
    onTime thirdHalf ∧ ∃ t, step thirdHalf = .next t ∧
      decide (t.fault = 0 ∧ t.engine.stream.drop 4 = [0x8001]) = true :=
  ⟨{ control := by constructor <;> decide +kernel
     streaming := rfl
     live := rfl
     no_overwrite := rfl
     first_free := by decide
     second_free := by decide
     pass_serves := by decide
     waiting_follows := by decide
     served_follows := by decide },
   thirdHalf_stream, onTime_of_timely (by decide),
   exists_next (fun t => decide (t.fault = 0 ∧ t.engine.stream.drop 4 = [0x8001]))
     (by decide +kernel)⟩

/-- A pass for FirstHalf at its first `PACK` as the engine sends the last word of SecondHalf. -/
def late : State :=
  { inPass 2 with schedule := [.tx, .fg], engine := { (inPass 2).engine with txPtr := 7 } }

/-- The state of `Obligations.LateRefillBreaksSafeRun`, and what its two transitions leave. -/
theorem witness_LateRefillBreaksSafeRun :
    SafeRun late ∧ late.fpc = 2 ∧ nextStimulus late = .tx ∧ crossesBoundary late ∧
    late.req ≠ .idle ∧
    after (step late) (fun t => (t.ovrCnt, t.txHalf, t.fpc, t.packAddr)) =
      some (1, .first, 2, 0) ∧
    after (step late) (fun t => (nextStimulus t, Memory.readWord t.mem 0)) = some (.fg, none) ∧
    ((nextState (step late)).bind fun t => after (step t) fun u => Memory.readWord u.mem 0) =
      some (some 0x8001) :=
  ⟨{ control := by constructor <;> decide +kernel
     streaming := rfl
     live := rfl
     no_overwrite := rfl
     first_free := by decide
     second_free := by decide
     pass_serves := by decide
     waiting_follows := by decide
     served_follows := by decide },
   rfl, rfl, by unfold crossesBoundary; decide +kernel, by decide, by decide +kernel,
   by decide +kernel, by decide +kernel⟩

end Sys2Proof.Tests
end

