-- ==== Sys2Proof/Proofs/Rounding.lean ====
section
/-! PROOF. Correct rounding of `fadd`, `fmul` and `fdiv` (00_scope.md R8). The three operations round a
magnitude, so the argument is made once there: `RoundsTo` says of a magnitude that it is the rounding
of an exact one, `CorrectlyRounded` says of a pattern that it is the rounding of a signed one, and
each operation supplies its magnitude. -/

namespace Sys2Proof.Machine

/-! ### Rounded magnitudes -/

/-- The magnitude `m` is the nearest to the exact magnitude `n / u` in units of `2^-149`, even on a tie,
and it lies beyond the finite ones exactly from half a unit beyond the largest of them. -/
structure RoundsTo (n u m : Nat) : Prop where
  nearest : ∀ b, |(magValue m * u : Int) - n| ≤ |(magValue b * u : Int) - n|
  even_of_tie : ∀ b, |(magValue m * u : Int) - n| = |(magValue b * u : Int) - n| → b ≠ m → m % 2 = 0
  overflow_iff : 0x7F800000 ≤ m ↔ (2 ^ 25 - 1) * 2 ^ 252 * u ≤ n

theorem roundsTo_roundMag (n k : Nat) : RoundsTo n (2 ^ k) (roundMag n k) where
  nearest b := by exact_mod_cast (roundMag_nearest n k b).1
  even_of_tie b h := (roundMag_nearest n k b).2 (by exact_mod_cast h)
  overflow_iff := roundMag_overflow n k

/-! ### The sticky bit of a quotient -/

/-- Which of two multiples of `u` is nearer `n` is decided by the side of their midpoint `n` lies
on. -/
theorem abs_mul_sub_le_iff {u : Nat} (hu : 0 < u) (v w n : Nat) :
    |(v * u : Int) - n| ≤ |(w * u : Int) - n| ↔
      (v < w → 2 * n ≤ (v + w) * u) ∧ (w < v → (v + w) * u ≤ 2 * n) := by
  have hvw : v < w ↔ v * u < w * u := (Nat.mul_lt_mul_right hu).symm
  have hwv : w < v ↔ w * u < v * u := (Nat.mul_lt_mul_right hu).symm
  rw [hvw, hwv, Nat.add_mul, Int.abs_eq_natAbs, Int.abs_eq_natAbs]
  omega

/-- The sticky quotient lies on the same side of an even number as the exact quotient. -/
theorem stickyQuotient_le_iff {y : Nat} (hy : 0 < y) (x m : Nat) :
    stickyQuotient x y ≤ 2 * m ↔ x * 2 ^ 150 ≤ m * y := by
  unfold stickyQuotient
  generalize x * 2 ^ 150 = n
  by_cases hexact : n % y = 0
  · have hle : n / y ≤ m ↔ n ≤ m * y := by
      rw [← Nat.mul_le_mul_right_iff hy, Nat.div_mul_cancel (Nat.dvd_of_mod_eq_zero hexact)]
    rw [if_pos hexact, ← hle]
    omega
  · have hne : n ≠ m * y := by rintro rfl; exact hexact (Nat.mul_mod_left m y)
    have hlt : n / y < m ↔ n < m * y := Nat.div_lt_iff_lt_mul hy
    rw [if_neg hexact]
    omega

theorem le_stickyQuotient_iff {y : Nat} (hy : 0 < y) (x m : Nat) :
    2 * m ≤ stickyQuotient x y ↔ m * y ≤ x * 2 ^ 150 := by
  rw [← Nat.le_div_iff_mul_le hy]
  unfold stickyQuotient
  split <;> omega

/-- Of two magnitudes, the one nearer the sticky quotient is the one nearer the exact quotient: their
midpoint is an even number of the sticky quotient's units. -/
theorem stickyQuotient_nearer_iff {y : Nat} (hy : 0 < y) (x v w : Nat) :
    |(v * (2 ^ 2 : Nat) : Int) - stickyQuotient x y| ≤
        |(w * (2 ^ 2 : Nat) : Int) - stickyQuotient x y| ↔
      |(v * y : Int) - (x * 2 ^ 149 : Nat)| ≤ |(w * y : Int) - (x * 2 ^ 149 : Nat)| := by
  have hle := stickyQuotient_le_iff hy x (v + w)
  have hge := le_stickyQuotient_iff hy x (v + w)
  rw [abs_mul_sub_le_iff (by decide), abs_mul_sub_le_iff hy]
  omega

theorem roundsTo_stickyQuotient {y : Nat} (hy : 0 < y) (x : Nat) :
    RoundsTo (x * 2 ^ 149) y (roundMag (stickyQuotient x y) 2) where
  nearest b := (stickyQuotient_nearer_iff hy x _ _).1 ((roundsTo_roundMag _ 2).nearest b)
  even_of_tie b h := by
    refine (roundsTo_roundMag _ 2).even_of_tie b (le_antisymm ?_ ?_)
    · exact (stickyQuotient_nearer_iff hy x _ _).2 h.le
    · exact (stickyQuotient_nearer_iff hy x _ _).2 h.ge
  overflow_iff := by
    have hge := le_stickyQuotient_iff hy x ((2 ^ 25 - 1) * 2 ^ 253)
    rw [(roundsTo_roundMag _ 2).overflow_iff]
    omega

/-! ### Rounded patterns -/

/-- The pattern `r` is the exact value `x / u`, in units of `2^-149`, correctly rounded
(00_scope.md R8). -/
def CorrectlyRounded (r : F32) (x : Int) (u : Nat) : Prop :=
  (|x| < (2 ^ 25 - 1) * 2 ^ 252 * u →
    isFinite r = true ∧
    ∀ c : F32, isFinite c = true →
      |scaled r * u - x| ≤ |scaled c * u - x| ∧
      (|scaled r * u - x| = |scaled c * u - x| → scaled c ≠ scaled r → r.getLsbD 0 = false)) ∧
  ((2 ^ 25 - 1) * 2 ^ 252 * u ≤ |x| → r = if x < 0 then 0xFF800000#32 else 0x7F800000#32)

/-- The number `z` with its sign flipped if `neg`. -/
def withSign (neg : Bool) (z : Int) : Int := if neg then -z else z

theorem withSign_withSign (neg : Bool) (z : Int) : withSign neg (withSign neg z) = z := by
  cases neg <;> simp [withSign]

theorem abs_withSign (neg : Bool) (z : Int) : |withSign neg z| = |z| := by
  cases neg <;> simp [withSign]

theorem withSign_mul (neg : Bool) (z w : Int) : withSign neg (z * w) = withSign neg z * w := by
  cases neg <;> simp [withSign]

theorem mul_withSign (neg : Bool) (z w : Int) : z * withSign neg w = withSign neg z * w := by
  cases neg <;> simp [withSign]

theorem withSign_mul_withSign (p q : Bool) (x y : Int) :
    withSign p x * withSign q y = withSign (p != q) (x * y) := by
  cases p <;> cases q <;> simp [withSign]

theorem withSign_mul_sub (neg : Bool) (z u w : Int) :
    withSign neg z * u - withSign neg w = withSign neg (z * u - w) := by
  rw [← withSign_mul]
  cases neg <;> simp only [withSign, if_true, if_false, Bool.false_eq_true, neg_sub_neg, neg_sub]

theorem scaled_eq_withSign (a : F32) : scaled a = withSign (fsign a) (scaledMag a) := rfl

theorem assemble_overflow {neg : Bool} {mag : Nat} (h : 0x7F800000 ≤ mag) :
    assemble neg mag = if neg then 0xFF800000#32 else 0x7F800000#32 := by
  rw [assemble, Nat.min_eq_right h]
  cases neg <;> rfl

theorem getLsbD_zero_assemble {neg : Bool} {mag : Nat} (hm : mag < 0x7F800000)
    (heven : mag % 2 = 0) : (assemble neg mag).getLsbD 0 = false := by
  rw [assemble, Nat.min_eq_left hm.le, BitVec.getLsbD_ofNat, Nat.testBit_zero]
  cases neg <;> simp <;> omega

/-- No integer of either sign with a binary32 magnitude is nearer than the rounded magnitude: one of
the other sign is further away than 0. -/
theorem RoundsTo.nearest_int {n u m b : Nat} (h : RoundsTo n u m) (hu : 0 < u) {z : Int}
    (hz : z.natAbs = magValue b) :
    |(magValue m * u : Int) - n| ≤ |z * u - n| ∧
      (|(magValue m * u : Int) - n| = |z * u - n| → z ≠ magValue m → m % 2 = 0) := by
  rcases le_or_gt 0 z with hpos | hneg
  · obtain rfl : z = magValue b := by omega
    exact ⟨h.nearest b, fun heq hne => h.even_of_tie b heq (by rintro rfl; exact hne rfl)⟩
  · have hzero := h.nearest 0
    have hzu : z * u < 0 := mul_neg_of_neg_of_pos hneg (by exact_mod_cast hu)
    have hlt : |(magValue m * u : Int) - n| < |z * u - n| := by
      rw [magValue_zero, Nat.cast_zero, Int.zero_mul] at hzero
      refine lt_of_le_of_lt hzero ?_
      rw [Int.abs_eq_natAbs, Int.abs_eq_natAbs]
      omega
    exact ⟨hlt.le, fun heq => absurd heq hlt.ne⟩

/-- A rounded magnitude with the exact value's sign is the exact value correctly rounded. -/
theorem RoundsTo.correctlyRounded {n u m : Nat} (h : RoundsTo n u m) (hu : 0 < u) (neg : Bool) :
    CorrectlyRounded (assemble neg m) (withSign neg n) u := by
  have hover : 0x7F800000 ≤ m ↔ ((2 ^ 25 - 1) * 2 ^ 252 * u : Int) ≤ |withSign neg n| := by
    rw [abs_withSign, Nat.abs_cast, h.overflow_iff]
    zify
    norm_num
  constructor
  · intro hlt
    have hm : m < 0x7F800000 := by
      by_contra hge
      exact absurd (hover.1 (Nat.le_of_not_lt hge)) (not_le.2 hlt)
    refine ⟨isFinite_assemble hm, fun c hc => ?_⟩
    have hr : scaled (assemble neg m) = withSign neg (magValue m) := scaled_assemble hm
    obtain ⟨z, hz⟩ : ∃ z, scaled c = withSign neg z := ⟨_, (withSign_withSign neg _).symm⟩
    have hzabs : z.natAbs = magValue (fmag c) := by
      rw [← scaledMag, ← natAbs_scaled, hz]
      cases neg <;> simp [withSign]
    obtain ⟨hle, htie⟩ := h.nearest_int hu hzabs
    rw [hr, hz, withSign_mul_sub, withSign_mul_sub, abs_withSign, abs_withSign]
    refine ⟨hle, fun heq hne => getLsbD_zero_assemble hm (htie heq ?_)⟩
    rintro rfl
    exact hne rfl
  · intro hge
    have hm := hover.2 hge
    have hn : 0 < n := lt_of_lt_of_le (by positivity) (h.overflow_iff.1 hm)
    rw [assemble_overflow hm]
    cases neg <;> simp [withSign, hn]

/-! ### The three operations -/

theorem roundInt_eq_assemble (zneg : Bool) (z : Int) :
    ∃ neg, roundInt zneg z = assemble neg (roundMag z.natAbs 0) ∧ z = withSign neg z.natAbs := by
  by_cases hz : z = 0
  · subst hz
    exact ⟨zneg, rfl, by cases zneg <;> rfl⟩
  · refine ⟨decide (z < 0), if_neg hz, ?_⟩
    unfold withSign
    by_cases hneg : z < 0
    · rw [if_pos (decide_eq_true hneg)]; omega
    · rw [if_neg (by simpa using hneg)]; omega

theorem fadd_correctlyRounded {a b : F32} (ha : isFinite a = true) (hb : isFinite b = true) :
    CorrectlyRounded (fadd a b) (scaled a + scaled b) 1 := by
  obtain ⟨neg, hr, hz⟩ := roundInt_eq_assemble (fsign a && fsign b) (scaled a + scaled b)
  rw [fadd_of_isFinite ha hb, hr]
  have h := (roundsTo_roundMag (scaled a + scaled b).natAbs 0).correctlyRounded (by decide) neg
  rwa [← hz] at h

theorem fmul_correctlyRounded {a b : F32} (ha : isFinite a = true) (hb : isFinite b = true) :
    CorrectlyRounded (fmul a b) (scaled a * scaled b) (2 ^ 149) := by
  rw [fmul_of_isFinite ha hb, scaled_eq_withSign a, scaled_eq_withSign b, withSign_mul_withSign,
    ← Int.natCast_mul]
  exact (roundsTo_roundMag (scaledMag a * scaledMag b) 149).correctlyRounded (by positivity) _

theorem fdiv_of_isFinite {a b : F32} (ha : isFinite a = true) (hb : isFinite b = true)
    (h0 : scaled b ≠ 0) :
    fdiv a b = roundScaled (fsign a != fsign b) (stickyQuotient (scaledMag a) (scaledMag b)) 2 := by
  have hmag : fmag b ≠ 0 := by
    intro h
    have := natAbs_scaled b
    rw [scaledMag, h, magValue_zero] at this
    omega
  simp [fdiv, not_isNaN_of_isFinite ha, not_isNaN_of_isFinite hb, not_isInf_of_isFinite ha,
    not_isInf_of_isFinite hb, hmag]

/-- The quotient, its divisor made positive by moving its sign to the dividend. -/
theorem fdiv_correctlyRounded {a b : F32} (ha : isFinite a = true) (hb : isFinite b = true)
    (h0 : scaled b ≠ 0) :
    CorrectlyRounded (fdiv a b) (withSign (fsign b) (scaled a * 2 ^ 149)) (scaledMag b) := by
  have hpos : 0 < scaledMag b := by rw [← natAbs_scaled]; omega
  have hx : withSign (fsign b) (scaled a * 2 ^ 149) =
      withSign (fsign a != fsign b) (scaledMag a * 2 ^ 149 : Nat) := by
    rw [scaled_eq_withSign a]
    cases fsign a <;> cases fsign b <;> simp [withSign]
  rw [fdiv_of_isFinite ha hb h0, hx]
  exact (roundsTo_stickyQuotient hpos (scaledMag a)).correctlyRounded hpos _

/-! ### The obligations -/

/-- Settles O51: the exact sum is the integer that `fadd` rounds. -/
theorem additionIsCorrectlyRounded : Obligations.AdditionIsCorrectlyRounded := by
  intro a b ha hb
  simpa only [CorrectlyRounded, Nat.cast_one, mul_one] using fadd_correctlyRounded ha hb

/-- Settles O52: the exact product of the magnitudes is the integer that `fmul` rounds. -/
theorem multiplicationIsCorrectlyRounded : Obligations.MultiplicationIsCorrectlyRounded := by
  intro a b ha hb
  simpa only [CorrectlyRounded, Nat.cast_pow, Nat.cast_ofNat] using fmul_correctlyRounded ha hb

/-- Settles O53: the sticky bit of the quotient that `fdiv` rounds keeps every midpoint of two
magnitudes on its side. -/
theorem divisionIsCorrectlyRounded : Obligations.DivisionIsCorrectlyRounded := by
  intro a b ha hb h0
  have hpos : (0 : Int) < scaledMag b := by have := natAbs_scaled b; omega
  have hdist (z : Int) : |z * scaledMag b - withSign (fsign b) (scaled a * 2 ^ 149)| =
      |z * scaled b - scaled a * 2 ^ 149| := by
    rw [scaled_eq_withSign b, mul_withSign, ← abs_withSign (fsign b) (_ - scaled a * 2 ^ 149),
      ← withSign_mul_sub, withSign_withSign]
  have habs : (scaledMag b : Int) = |scaled b| := by rw [← natAbs_scaled, Int.abs_eq_natAbs]
  have hsign : withSign (fsign b) (scaled a * 2 ^ 149) < 0 ↔ scaled a * scaled b < 0 := by
    rw [scaled_eq_withSign b, mul_withSign, withSign_mul, ← not_le, ← not_le,
      mul_nonneg_iff_of_pos_right (by positivity), mul_nonneg_iff_of_pos_right hpos]
  have h := fdiv_correctlyRounded ha hb h0
  simp only [CorrectlyRounded, hdist, abs_withSign, hsign] at h
  rwa [habs] at h

end Sys2Proof.Machine
end

