-- ==== Sys2Proof/Proofs/Frame.lean ====
section
/-! PROOF. What no step changes: the parameters (10_state.md R31). -/

namespace Sys2Proof.Machine

/-! ### A component that an outcome keeps -/

/-- Where the outcome `r` has a next state, the component `f` is as it was in `s`. -/
def Keeps {α : Type} (f : State → α) (s : State) (r : Result) : Prop :=
  ∀ t, r = .next t → f t = f s

section
variable {α : Type} {f : State → α} {s u : State} {r : Result}

theorem keeps_of_eq_next (hr : r = .next u) (hu : f u = f s) : Keeps f s r := by
  rintro t ht
  rw [← next_inj.1 (hr.symm.trans ht), hu]

theorem keeps_next (hu : f u = f s) : Keeps f s (.next u) := keeps_of_eq_next rfl hu

theorem keeps_fault (x : Fault) : Keeps f s (.fault x) := nofun

theorem keeps_refused (x : Refusal) : Keeps f s (.refused x) := nofun

theorem unlessHalted_keeps (h : Keeps f s r) : Keeps f s (unlessHalted s r) := by
  rcases unlessHalted_cases s r with ⟨-, heq⟩ | ⟨-, heq⟩ <;> rw [heq]
  · exact keeps_next rfl
  · exact h

theorem inSlot_keeps (slot : BitVec 2) (h : Keeps f s r) : Keeps f s (inSlot slot s r) := by
  rcases inSlot_cases slot s r with heq | ⟨-, -, -, heq⟩ <;> rw [heq]
  · exact keeps_next rfl
  · exact h

end

/-! ### The parameters -/

theorem packStore_keeps_params (s : State) : Keeps State.params s (packStore s) := by
  rcases packStore_cases s with ⟨x, h⟩ | ⟨w, -, -, -, h⟩ <;> rw [h]
  · exact keeps_fault x
  · exact keeps_next (packAdvance_params _)

/-- No operation of 30_encoding.md R64 writes the parameters. -/
theorem exec_keeps_params (i : Instr) (s : State) : Keeps State.params s (exec i s) := by
  cases i with
  | evtHalf => exact unlessHalted_keeps (keeps_next rfl)
  | evtFull => exact unlessHalted_keeps (keeps_next rfl)
  | evtErr => exact unlessHalted_keeps (keeps_next rfl)
  | start m =>
    rcases execStart_cases m s with ⟨-, h⟩ | ⟨-, -, h⟩ | ⟨-, -, -, h⟩ | ⟨-, -, row, -, h⟩ <;>
      exact keeps_of_eq_next h rfl
  | cfgInc x =>
    rcases execCfgInc_cases x s with ⟨-, h⟩ | ⟨-, -, h⟩ | ⟨-, -, h⟩ <;>
      exact keeps_of_eq_next h rfl
  | cfgWave w => exact unlessHalted_keeps (keeps_next rfl)
  | cfgHalflen n =>
    rcases execCfgHalflen_cases n s with ⟨-, h⟩ | ⟨-, -, h⟩ | ⟨-, -, h⟩ <;>
      exact keeps_of_eq_next h rfl
  | rdreg r => exact keeps_next rfl
  | poll => rcases execPoll_cases s with h | ⟨-, -, -, -, h⟩ <;> exact keeps_of_eq_next h rfl
  | gen => exact inSlot_keeps 1 (keeps_next rfl)
  | pack =>
    rcases execPack_cases s with h | ⟨-, -, -, ⟨-, -, h⟩ | ⟨-, h⟩⟩
    · exact keeps_of_eq_next h rfl
    · exact keeps_of_eq_next h rfl
    · exact fun t ht => packStore_keeps_params s t (h.symm.trans ht)
  | clr => exact inSlot_keeps 3 (keeps_next rfl)

theorem irqTurn_keeps_params (ev : EventCode) (s : State) :
    Keeps State.params s (irqTurn ev s) := by
  unfold irqTurn
  split
  · exact exec_keeps_params _ s
  · exact keeps_next rfl

theorem configTurn_keeps_params (w : OpWord) (s : State) :
    Keeps State.params s (configTurn w s) := by
  rcases configTurn_cases w s with ⟨i, -, h⟩ | ⟨-, h⟩ <;> rw [h]
  · exact exec_keeps_params i s
  · exact unlessHalted_keeps (keeps_next rfl)

theorem fgTurn_keeps_params (s : State) : Keeps State.params s (fgTurn s) := by
  unfold fgTurn
  split
  · exact exec_keeps_params _ s
  · exact keeps_next rfl

theorem txTurn_keeps_params (s : State) : Keeps State.params s (txTurn s) := by
  rcases txTurn_cases s with ⟨-, h⟩ | ⟨-, h⟩ | ⟨-, -, h⟩ | ⟨-, -, h⟩ <;> rw [h]
  · exact keeps_next rfl
  · exact keeps_refused _
  · exact keeps_fault _
  · exact irqTurn_keeps_params _ (txAdvance s)

theorem txAtTurn_keeps_params (p : Nat) (s : State) : Keeps State.params s (txAtTurn p s) := by
  rcases txAtTurn_cases p s with ⟨-, -, h⟩ | ⟨-, -, h⟩ | ⟨-, h⟩ <;> rw [h]
  · exact keeps_next rfl
  · exact keeps_fault _
  · exact keeps_refused _

/-- No agent writes the parameters, and a reset keeps them (70_reset_and_hazards.md R200). -/
theorem perform_keeps_params (x : Stimulus) (s : State) : Keeps State.params s (perform x s) := by
  cases x with
  | event ev => exact irqTurn_keeps_params ev { s with engine := s.engine.afterEvent ev }
  | config w => exact configTurn_keeps_params w s
  | fg => exact fgTurn_keeps_params s
  | tx => exact txTurn_keeps_params s
  | txAt p => exact txAtTurn_keeps_params p s
  | reset => exact keeps_next rfl

/-- Settles O37, by the agent whose turn the step is. -/
theorem parametersAreConstant : Obligations.ParametersAreConstant :=
  fun s t h => perform_keeps_params (nextStimulus s) (beginTransition s) t h

end Sys2Proof.Machine
end

