-- ==== Sys2Proof/Proofs/Transition.lean ====
section
/-! PROOF. What one operation and one step can do, said once: the ways an operation that answers a next
state gets there, and the ways a step does. Invariants are proved by cases on these. -/

namespace Sys2Proof.Machine

/-! ### One operation -/

/-- When an operation raises which cause in a live block (60_exceptions.md R170). -/
inductive Raises (s : State) : Instr → Cause → Prop
  | startRunning (m : Word) (running : s.running = true) : Raises s (.start m) .badState
  | startNoRow (m : Word) (stopped : s.running = false) (absent : lookup s.params m = none) :
      Raises s (.start m) .badMode
  | incIllegal (x : F32) (illegal : isIncrement x = false) : Raises s (.cfgInc x) .badOperand
  | halflenRunning (n : Word) (running : s.running = true) : Raises s (.cfgHalflen n) .badState
  | packLength (slot : s.fpc = 2) (first : s.pidx = 0) (wrong : s.halflen.toNat ≠ s.halfWords) :
      Raises s .pack .badLength

/-- The ways an operation performed in `s` can answer a next state, each with what made it act. -/
inductive Performs (s : State) : Instr → State → Prop
  | ignored (i : Instr) : Performs s i s
  | raised (i : Instr) (c : Cause) (live : s.fault = 0) (cause : Raises s i c) :
      Performs s i { s with fault := c.code }
  | requestedFirst (live : s.fault = 0) : Performs s .evtHalf (notify .pendingFirstHalf s)
  | requestedSecond (live : s.fault = 0) : Performs s .evtFull (notify .pendingSecondHalf s)
  | countedError (live : s.fault = 0) : Performs s .evtErr { s with errCnt := satinc s.errCnt }
  | latched (m : Word) (row : ModeConfig) (live : s.fault = 0) (stopped : s.running = false)
      (present : lookup s.params m = some row) : Performs s (.start m) (latchMode m row s)
  | wroteInc (x : F32) (live : s.fault = 0) (legal : isIncrement x = true) :
      Performs s (.cfgInc x) { s with inc := x }
  | wroteWave (w : Waveform) (live : s.fault = 0) : Performs s (.cfgWave w) { s with wave := w }
  | wroteHalflen (n : Word) (live : s.fault = 0) (stopped : s.running = false) :
      Performs s (.cfgHalflen n) { s with halflen := n }
  | read (r : RegNum) : Performs s (.rdreg r) { s with rdata := some (s.readReg r) }
  | captured (running : s.running = true) (live : s.fault = 0) (slot : s.fpc = 0)
      (pending : s.req ≠ .idle) : Performs s .poll { s with cap := s.req, fpc := 1 }
  | generated (running : s.running = true) (live : s.fault = 0) (slot : s.fpc = 1) :
      Performs s .gen
        { s with
          blk := genSamples s.wave s.inc s.params.blockSize s.phase
          phase := phaseAfter s.inc s.params.blockSize s.phase
          fpc := 2 }
  | packed (w : RawWord) (running : s.running = true) (live : s.fault = 0) (slot : s.fpc = 2)
      (checked : s.pidx = 0 → s.halflen.toNat = s.halfWords)
      (inBlock : s.pidx.toNat < s.halfWords)
      (word : packWord s.blk s.depth32 s.pidx.toNat = some w)
      (inBuf : s.packAddr < bufWords s.params) :
      Performs s .pack (packAdvance { s with mem := Memory.writeWord s.mem s.packAddr w })
  | cleared (running : s.running = true) (live : s.fault = 0) (slot : s.fpc = 3) :
      Performs s .clr { s with req := .idle, fpc := 0 }

/-- An outcome has one next state. -/
theorem performs_of_eq_next {i : Instr} {s t u : State} {r : Result} (hu : r = .next u)
    (ht : r = .next t) (h : Performs s i u) : Performs s i t :=
  next_inj.1 (hu.symm.trans ht) ▸ h

theorem performs_start {m : Word} {s t : State} (h : execStart m s = .next t) :
    Performs s (.start m) t := by
  rcases execStart_cases m s with ⟨-, e⟩ | ⟨live, running, e⟩ |
    ⟨live, stopped, absent, e⟩ | ⟨live, stopped, row, present, e⟩
  · exact performs_of_eq_next e h (.ignored _)
  · exact performs_of_eq_next e h (.raised _ _ live (.startRunning m running))
  · exact performs_of_eq_next e h (.raised _ _ live (.startNoRow m stopped absent))
  · exact performs_of_eq_next e h (.latched m row live stopped present)

theorem performs_cfgInc {x : F32} {s t : State} (h : execCfgInc x s = .next t) :
    Performs s (.cfgInc x) t := by
  rcases execCfgInc_cases x s with ⟨-, e⟩ | ⟨live, legal, e⟩ | ⟨live, illegal, e⟩
  · exact performs_of_eq_next e h (.ignored _)
  · exact performs_of_eq_next e h (.wroteInc x live legal)
  · exact performs_of_eq_next e h (.raised _ _ live (.incIllegal x illegal))

theorem performs_cfgHalflen {n : Word} {s t : State} (h : execCfgHalflen n s = .next t) :
    Performs s (.cfgHalflen n) t := by
  rcases execCfgHalflen_cases n s with ⟨-, e⟩ | ⟨live, running, e⟩ | ⟨live, stopped, e⟩
  · exact performs_of_eq_next e h (.ignored _)
  · exact performs_of_eq_next e h (.raised _ _ live (.halflenRunning n running))
  · exact performs_of_eq_next e h (.wroteHalflen n live stopped)

theorem performs_pack {s t : State} (h : execPack s = .next t) : Performs s .pack t := by
  rcases execPack_cases s with e | ⟨running, live, slot, ⟨first, wrong, e⟩ | ⟨checked, e⟩⟩
  · exact performs_of_eq_next e h (.ignored _)
  · exact performs_of_eq_next e h (.raised _ _ live (.packLength slot first wrong))
  · rw [e] at h
    rcases packStore_cases s with ⟨x, e⟩ | ⟨w, inBlock, word, inBuf, e⟩
    · exact absurd (e.symm.trans h) nofun
    · exact performs_of_eq_next e h (.packed w running live slot checked inBlock word inBuf)

/-- All that an operation which answers a next state can have done. -/
theorem performs_of_exec {i : Instr} {s t : State} (h : exec i s = .next t) : Performs s i t := by
  cases i with
  | evtHalf =>
    rcases execEvtHalf_cases s with ⟨-, e⟩ | ⟨live, e⟩
    · exact performs_of_eq_next e h (.ignored _)
    · exact performs_of_eq_next e h (.requestedFirst live)
  | evtFull =>
    rcases execEvtFull_cases s with ⟨-, e⟩ | ⟨live, e⟩
    · exact performs_of_eq_next e h (.ignored _)
    · exact performs_of_eq_next e h (.requestedSecond live)
  | evtErr =>
    rcases execEvtErr_cases s with ⟨-, e⟩ | ⟨live, e⟩
    · exact performs_of_eq_next e h (.ignored _)
    · exact performs_of_eq_next e h (.countedError live)
  | start m => exact performs_start h
  | cfgInc x => exact performs_cfgInc h
  | cfgWave w =>
    rcases execCfgWave_cases w s with ⟨-, e⟩ | ⟨live, e⟩
    · exact performs_of_eq_next e h (.ignored _)
    · exact performs_of_eq_next e h (.wroteWave w live)
  | cfgHalflen n => exact performs_cfgHalflen h
  | rdreg r => exact performs_of_eq_next rfl h (.read r)
  | poll =>
    rcases execPoll_cases s with e | ⟨running, live, slot, pending, e⟩
    · exact performs_of_eq_next e h (.ignored _)
    · exact performs_of_eq_next e h (.captured running live slot pending)
  | gen =>
    rcases execGen_cases s with e | ⟨running, live, slot, e⟩
    · exact performs_of_eq_next e h (.ignored _)
    · exact performs_of_eq_next e h (.generated running live slot)
  | pack => exact performs_pack h
  | clr =>
    rcases execClr_cases s with e | ⟨running, live, slot, e⟩
    · exact performs_of_eq_next e h (.ignored _)
    · exact performs_of_eq_next e h (.cleared running live slot)

/-! ### The agents' turns -/

/-- `CFG` performs operations of its own only (30_encoding.md R65). -/
theorem agent_of_decodeConfig {w : OpWord} {i : Instr} (h : decodeConfig w = .instr i) :
    i.agent = .cfg := by
  unfold decodeConfig decodeOn at h
  split at h
  · split at h
    · next hagent => cases h; exact hagent
    · cases h
  · cases h

theorem irqTurn_performs {ev : EventCode} {s t : State} (h : irqTurn ev s = .next t) :
    t = s ∨ ∃ i, i.agent = .irq ∧ Performs s i t := by
  rcases irqTurn_cases ev s with ⟨-, e⟩ | ⟨-, e⟩ | ⟨-, e⟩ | ⟨-, e⟩
  · exact .inl (next_inj.1 (h.symm.trans e))
  · exact .inr ⟨.evtHalf, rfl, performs_of_exec (e.symm.trans h)⟩
  · exact .inr ⟨.evtFull, rfl, performs_of_exec (e.symm.trans h)⟩
  · exact .inr ⟨.evtErr, rfl, performs_of_exec (e.symm.trans h)⟩

theorem configTurn_performs {w : OpWord} {s t : State} (h : configTurn w s = .next t) :
    t = s ∨ (s.fault = 0 ∧ t = { s with fault := Cause.illegalOp.code }) ∨
      ∃ i, i.agent = .cfg ∧ Performs s i t := by
  rcases configTurn_cases w s with ⟨i, hi, e⟩ | ⟨-, e⟩
  · exact .inr (.inr ⟨i, agent_of_decodeConfig hi, performs_of_exec (e.symm.trans h)⟩)
  · rw [e] at h
    rcases unlessHalted_cases s (raise .illegalOp s) with ⟨-, e⟩ | ⟨live, e⟩
    · exact .inl (next_inj.1 (h.symm.trans e))
    · exact .inr (.inl ⟨live, next_inj.1 (h.symm.trans e)⟩)

theorem fgTurn_performs {s t : State} (h : fgTurn s = .next t) : ∃ i, Performs s i t := by
  rw [fgTurn_eq] at h
  split_ifs at h
  · exact ⟨.poll, performs_of_exec h⟩
  · exact ⟨.gen, performs_of_exec h⟩
  · exact ⟨.pack, performs_of_exec h⟩
  · exact ⟨.clr, performs_of_exec h⟩

/-! ### One step -/

/-- What the engine's own part of a transition can make of it (60_exceptions.md R186 to R189). -/
inductive EngineMove (s : State) : Engine → Prop
  | rests : EngineMove s s.engine
  | notifies (ev : EventCode) : EngineMove s (s.engine.afterEvent ev)
  | sends (streaming : s.engine.mode = .streaming) : EngineMove s (txAdvance s).engine
  | sendsAt (p : Nat) (w : RawWord) (unspecified : s.engine.mode = .unspecified) :
      EngineMove s { s.engine with txPtr := p, stream := s.engine.stream ++ [w] }

/-- The state in which AHB-1 acts: the transition begun and the engine's part done. -/
def afterEngine (s : State) (e : Engine) : State := { beginTransition s with engine := e }

/-- The ways a step from `s` can answer a next state. An operation of `FG` is performed only in a turn
of `FG`. -/
inductive Steps (s : State) : State → Prop
  | reset (asserted : nextStimulus s = .reset) : Steps s (platformReset (beginTransition s))
  | quiet {e : Engine} (move : EngineMove s e) : Steps s (afterEngine s e)
  | illegal (live : s.fault = 0) :
      Steps s { beginTransition s with fault := Cause.illegalOp.code }
  | performs {e : Engine} {i : Instr} {t : State} (move : EngineMove s e)
      (turn : i.agent = .fg → nextStimulus s = .fg) (act : Performs (afterEngine s e) i t) :
      Steps s t

theorem steps_of_irqTurn {s t : State} {e : Engine} {ev : EventCode} (move : EngineMove s e)
    (h : irqTurn ev (afterEngine s e) = .next t) : Steps s t := by
  rcases irqTurn_performs h with rfl | ⟨i, hi, act⟩
  · exact .quiet move
  · exact .performs move (fun hfg => absurd (hi.symm.trans hfg) nofun) act

theorem steps_of_configTurn {s t : State} {w : OpWord}
    (h : configTurn w (beginTransition s) = .next t) : Steps s t := by
  rcases configTurn_performs h with rfl | ⟨live, rfl⟩ | ⟨i, hi, act⟩
  · exact .quiet .rests
  · exact .illegal live
  · exact .performs .rests (fun hfg => absurd (hi.symm.trans hfg) nofun) act

theorem steps_of_txTurn {s t : State} (h : txTurn (beginTransition s) = .next t) : Steps s t := by
  rcases txTurn_cases (beginTransition s) with ⟨-, e⟩ | ⟨-, e⟩ | ⟨-, -, e⟩ | ⟨streaming, -, e⟩ <;>
    rw [e] at h
  · exact next_inj.1 h ▸ .quiet .rests
  · cases h
  · cases h
  · exact steps_of_irqTurn (.sends streaming) h

theorem steps_of_txAtTurn {s t : State} {p : Nat} (h : txAtTurn p (beginTransition s) = .next t) :
    Steps s t := by
  rcases txAtTurn_cases p (beginTransition s) with ⟨unspecified, -, e⟩ | ⟨-, -, e⟩ | ⟨-, e⟩ <;>
    rw [e] at h
  · exact next_inj.1 h ▸ .quiet (.sendsAt p _ unspecified)
  · cases h
  · cases h

/-- All that a step which answers a next state can have done. -/
theorem steps_of_step {s t : State} (h : step s = .next t) : Steps s t := by
  rw [step_eq] at h
  cases hn : nextStimulus s with
  | event ev => rw [hn] at h; exact steps_of_irqTurn (.notifies ev) h
  | config w => rw [hn] at h; exact steps_of_configTurn h
  | fg =>
    rw [hn] at h
    obtain ⟨i, act⟩ := fgTurn_performs h
    exact .performs .rests (fun _ => hn) act
  | tx => rw [hn] at h; exact steps_of_txTurn h
  | txAt p => rw [hn] at h; exact steps_of_txAtTurn h
  | reset => rw [hn] at h; exact next_inj.1 h ▸ .reset hn

end Sys2Proof.Machine
end

