-- ==== Sys2Proof/Proofs/Ownership.lean ====
section
/-! PROOF. Who writes what (10_state.md R35 (g) and (h), R36): the fault code and `running` change once,
each agent's operations write their own registers, and `BUF` is `PACK`'s. -/

namespace Sys2Proof.Machine

/-! ### The end and the stop of `PACK` -/

/-- All that the end of a `PACK` step can do (42_packer.md R124). -/
theorem packAdvance_cases (s : State) :
    (s.pidx.toNat + 1 = s.halfWords ∧ packAdvance s = { s with pidx := 0, fpc := 3 }) ∨
      (s.pidx.toNat + 1 ≠ s.halfWords ∧ packAdvance s = { s with pidx := s.pidx + 1 }) := by
  by_cases h : s.pidx.toNat + 1 = s.halfWords
  · exact .inl ⟨h, packAdvance_last h⟩
  · exact .inr ⟨h, packAdvance_more h⟩

theorem packStore_outside {s : State} (h : s.halfWords ≤ s.pidx.toNat) :
    packStore s = .fault (.noSuchSample s.pidx.toNat) := if_pos h

/-- Settles O14: past its first step `PACK` does not check the length, and its write finds no word. -/
theorem packStopsOutsideBlock : Obligations.PackStopsOutsideBlock := by
  intro s hrunning hlive hslot houtside hpidx
  calc exec .pack s
      = inSlot 2 s (if s.pidx = 0 ∧ s.halflen.toNat ≠ s.halfWords then raise .badLength s
          else packStore s) := rfl
    _ = packStore s := by
        rw [inSlot_enabled hrunning hlive hslot, if_neg fun h => hpidx h.1]
    _ = .fault (.noSuchSample s.pidx.toNat) := packStore_outside houtside

/-! ### What an operation leaves as it was -/

section
variable {s t : State} {i : Instr}

/-- 60_exceptions.md R171: only a live block takes a fault. -/
theorem Performs.fault_eq (h : Performs s i t) (hfault : s.fault ≠ 0) : t.fault = s.fault := by
  cases h with
  | ignored => rfl
  | read => rfl
  | _ => exact absurd ‹s.fault = 0› hfault

theorem Performs.running_of_running (h : Performs s i t) (hrunning : s.running = true) :
    t.running = true := by
  cases h with
  | packed => exact (packAdvance_running _).trans hrunning
  | latched => rfl
  | _ => exact hrunning

theorem Performs.mem_eq (h : Performs s i t) : (i = .pack ∧ s.fpc = 2) ∨ t.mem = s.mem := by
  cases h with
  | packed _ _ _ slot => exact .inl ⟨rfl, slot⟩
  | _ => exact .inr rfl

/-- Only `PACK` writes the memory, one word at a time. -/
theorem Performs.mem_wf (h : Performs s i t) (hwf : Memory.wf s.mem = true) :
    Memory.wf t.mem = true := by
  cases h with
  | packed w => rw [packAdvance_mem]; exact wf_writeWord _ _ _ hwf
  | _ => exact hwf

/-- 60_exceptions.md R170: no notification raises a fault. -/
theorem Raises.agent_ne_irq {c : Cause} (h : Raises s i c) : i.agent ≠ .irq := by
  cases h <;> nofun

/-- What `IRQ`'s operations leave as it was (10_state.md R36). -/
theorem Performs.irq_frame (h : Performs s i t) (hi : i.agent = .irq) :
    t = { s with req := t.req, ovrCnt := t.ovrCnt, errCnt := t.errCnt } ∧
      (t.req = s.req ∨ t.req = .pendingFirstHalf ∨ t.req = .pendingSecondHalf) := by
  cases h with
  | ignored => exact ⟨rfl, .inl rfl⟩
  | raised _ _ _ cause => exact absurd hi cause.agent_ne_irq
  | requestedFirst => exact ⟨rfl, .inr (.inl rfl)⟩
  | requestedSecond => exact ⟨rfl, .inr (.inr rfl)⟩
  | countedError => exact ⟨rfl, .inl rfl⟩
  | _ => cases hi

/-- What `FG`'s operations leave as it was (10_state.md R36). -/
theorem Performs.fg_frame (h : Performs s i t) (hi : i.agent = .fg) :
    t = { s with
          req := t.req, cap := t.cap, fpc := t.fpc, pidx := t.pidx, blk := t.blk,
          phase := t.phase, mem := t.mem, fault := t.fault } ∧
      (t.req = s.req ∨ t.req = .idle) := by
  cases h with
  | ignored => exact ⟨rfl, .inl rfl⟩
  | raised => exact ⟨rfl, .inl rfl⟩
  | captured => exact ⟨rfl, .inl rfl⟩
  | generated => exact ⟨rfl, .inl rfl⟩
  | packed w =>
    rcases packAdvance_cases { s with mem := Memory.writeWord s.mem s.packAddr w } with
      ⟨-, e⟩ | ⟨-, e⟩ <;> rw [e] <;> exact ⟨rfl, .inl rfl⟩
  | cleared => exact ⟨rfl, .inr rfl⟩
  | _ => cases hi

/-- What `CFG`'s operations leave as it was (10_state.md R36). -/
theorem Performs.cfg_frame (h : Performs s i t) (hi : i.agent = .cfg) :
    t = { s with
          inc := t.inc, wave := t.wave, depth32 := t.depth32, running := t.running,
          mode := t.mode, rate := t.rate, clkp := t.clkp, halflen := t.halflen,
          fault := t.fault, rdata := t.rdata, engine := t.engine } := by
  cases h with
  | ignored => rfl
  | raised => rfl
  | latched => rfl
  | wroteInc => rfl
  | wroteWave => rfl
  | wroteHalflen => rfl
  | read => rfl
  | _ => cases hi

end

/-! ### The obligations -/

/-- Settles O35, agent by agent. -/
theorem singleWriterDiscipline : Obligations.SingleWriterDiscipline := by
  intro i s t h
  have act := performs_of_exec h
  exact ⟨act.irq_frame, act.fg_frame, act.cfg_frame⟩

/-- Settles O26: of what a step can do, only the reset clears `fault` or `running`. -/
theorem faultAndRunningAreSticky : Obligations.FaultAndRunningAreSticky := by
  intro s t hreset h
  cases steps_of_step h with
  | reset asserted => exact absurd asserted hreset
  | quiet => exact ⟨fun _ => rfl, id⟩
  | illegal live => exact ⟨fun hfault => absurd live hfault, id⟩
  | performs _ _ act => exact ⟨act.fault_eq, act.running_of_running⟩

/-- Settles O36: of the operations only `PACK` writes the memory, and only `FG` performs it. -/
theorem onlyPackWritesBuf : Obligations.OnlyPackWritesBuf := by
  intro s t h hreset hpack a
  have hmem : t.mem = s.mem := by
    cases steps_of_step h with
    | reset asserted => exact absurd asserted hreset
    | quiet => rfl
    | illegal => rfl
    | performs _ turn act =>
      rcases act.mem_eq with ⟨rfl, slot⟩ | hmem
      · exact absurd ⟨turn rfl, slot⟩ hpack
      · exact hmem
  rw [hmem]

/-- Settles O38: a word is written in its place, and a reset leaves nothing listed. -/
theorem stepKeepsMemoryCanonical : Obligations.StepKeepsMemoryCanonical := by
  intro s t hwf h
  cases steps_of_step h with
  | reset => rfl
  | quiet => exact hwf
  | illegal => exact hwf
  | performs _ _ act => exact act.mem_wf hwf

end Sys2Proof.Machine
end

