-- ==== Sys2Proof/Proofs/ControlInvariant.lean ====
section
/-! PROOF. The control invariants (10_state.md R35 (b), (c)) hold at reset and every step keeps them. -/

namespace Sys2Proof.Machine

/-! ### At reset -/

theorem halfWords_pos {s : State} (h : paramsOk s.params = true) : 0 < s.halfWords :=
  Nat.mul_pos (wordsPerSample_pos s.depth32) (blockSize_pos h)

theorem controlInv_resetWith {p : Params} (h : paramsOk p = true) :
    ControlInv (State.resetWith p) where
  params_ok := h
  mem_wf := rfl
  mem_below := rfl
  busy_running := absurd rfl
  busy_captured := absurd rfl
  pidx_zero _ := rfl
  pidx_lt := halfWords_pos (s := State.resetWith p) h
  packing_length := absurd rfl
  blk_length := nofun
  fault_code := Nat.zero_le 5
  busy_pending := absurd rfl
  engine_ok := nofun

theorem Engine.afterReset_not_streaming (e : Engine) : e.afterReset.mode ≠ .streaming := by
  unfold Engine.afterReset
  split <;> nofun

theorem controlInv_platformReset {s : State} (h : paramsOk s.params = true) :
    ControlInv (platformReset s) :=
  { controlInv_resetWith h with
    engine_ok := fun streaming => absurd streaming s.engine.afterReset_not_streaming }

/-! ### The engine's part of a step -/

/-- 60_exceptions.md R186: a `START` with any other length leaves the engine unspecified. -/
theorem Engine.eq_of_started_streaming {e : Engine} {halflen halfWords : Nat}
    (streaming : (e.started halflen halfWords).mode = .streaming) : halflen = halfWords := by
  by_contra hne
  simp [Engine.started, hne] at streaming

section
variable {s : State} (h : ControlInv s)
include h

/-- The engine streams with both halves inside `BUF`, its pointer in one of them. -/
theorem ControlInv.engine_ok_of_move {e : Engine} (move : EngineMove s e)
    (streaming : e.mode = .streaming) :
    s.running = true ∧ s.halflen.toNat = s.halfWords ∧ e.txPtr < 2 * s.halflen.toNat := by
  cases move with
  | rests => exact h.engine_ok streaming
  | notifies ev =>
    refine h.engine_ok ?_
    by_contra hne
    exact absurd streaming (by simp [Engine.afterEvent, hne])
  | sends streaming =>
    obtain ⟨hrunning, hlen, -⟩ := h.engine_ok streaming
    have := halfWords_pos h.params_ok
    exact ⟨hrunning, hlen, Nat.mod_lt _ (by omega)⟩
  | sendsAt p w unspecified => exact absurd (unspecified.symm.trans streaming) nofun

theorem controlInv_afterEngine {e : Engine} (move : EngineMove s e) :
    ControlInv (afterEngine s e) :=
  { h with engine_ok := h.engine_ok_of_move move }

/-! ### The operations of `IRQ` and `CFG` -/

theorem controlInv_fault (c : Cause) : ControlInv { s with fault := c.code } :=
  { h with fault_code := (code_pos c).2 }

theorem controlInv_notify {r : Request} (hr : r ≠ .idle) : ControlInv (notify r s) :=
  { h with busy_pending := fun _ => hr }

/-- Before `START` no pass is under way. -/
theorem ControlInv.slot_of_stopped (stopped : s.running = false) : s.fpc = 0 := by
  by_contra hslot
  exact absurd (stopped.symm.trans (h.busy_running hslot)) nofun

theorem ControlInv.pidx_of_stopped (stopped : s.running = false) : s.pidx = 0 :=
  h.pidx_zero (by rw [h.slot_of_stopped stopped]; decide)

theorem ControlInv.not_streaming_of_stopped (stopped : s.running = false) :
    s.engine.mode ≠ .streaming := fun streaming =>
  absurd (stopped.symm.trans (h.engine_ok streaming).1) nofun

theorem controlInv_halflen (stopped : s.running = false) (n : Word) :
    ControlInv { s with halflen := n } :=
  { h with
    packing_length := fun hpidx => absurd (h.pidx_of_stopped stopped) hpidx
    engine_ok := fun streaming => absurd streaming (h.not_streaming_of_stopped stopped) }

/-- `START` changes `K*B` while no pass is under way, and starts the engine at word 0. -/
theorem controlInv_latchMode (stopped : s.running = false) (m : Word) (row : ModeConfig) :
    ControlInv (latchMode m row s) :=
  have hpos : 0 < (latchMode m row s).halfWords := halfWords_pos h.params_ok
  have hpidx := h.pidx_of_stopped stopped
  { h with
    busy_running := fun _ => rfl
    pidx_lt := by rw [latchMode_pidx, hpidx]; exact hpos
    packing_length := absurd hpidx
    engine_ok := fun streaming => by
      have hlen : s.halflen.toNat = (latchMode m row s).halfWords :=
        Engine.eq_of_started_streaming streaming
      exact ⟨rfl, hlen, show 0 < 2 * s.halflen.toNat by omega⟩ }

/-! ### The operations of `FG` -/

theorem controlInv_poll (running : s.running = true) (slot : s.fpc = 0)
    (pending : s.req ≠ .idle) : ControlInv { s with cap := s.req, fpc := 1 } :=
  { h with
    busy_running := fun _ => running
    busy_captured := fun _ => pending
    pidx_zero := fun _ => h.pidx_zero (by rw [slot]; decide)
    blk_length := nofun
    busy_pending := fun _ => pending }

theorem controlInv_gen (slot : s.fpc = 1) :
    ControlInv
      { s with
        blk := genSamples s.wave s.inc s.params.blockSize s.phase
        phase := phaseAfter s.inc s.params.blockSize s.phase
        fpc := 2 } :=
  have hbusy : s.fpc ≠ 0 := by rw [slot]; decide
  { h with
    busy_running := fun _ => h.busy_running hbusy
    busy_captured := fun _ => h.busy_captured hbusy
    pidx_zero := absurd rfl
    blk_length := fun _ => genSamples_length _ _ _ _
    busy_pending := fun _ => h.busy_pending hbusy }

theorem controlInv_clr (slot : s.fpc = 3) : ControlInv { s with req := .idle, fpc := 0 } :=
  { h with
    busy_running := absurd rfl
    busy_captured := absurd rfl
    pidx_zero := fun _ => h.pidx_zero (by rw [slot]; decide)
    blk_length := nofun
    busy_pending := absurd rfl }

theorem controlInv_writeWord (inBuf : s.packAddr < bufWords s.params) (w : RawWord) :
    ControlInv { s with mem := Memory.writeWord s.mem s.packAddr w } :=
  { h with
    mem_wf := wf_writeWord _ _ _ h.mem_wf
    mem_below := below_writeWord _ _ _ _ inBuf h.mem_below }

/-- The index stays below `K*B`, which is `halflen` and so a 32-bit number. -/
theorem controlInv_packAdvance (slot : s.fpc = 2)
    (checked : s.pidx = 0 → s.halflen.toNat = s.halfWords) : ControlInv (packAdvance s) := by
  have hbusy : s.fpc ≠ 0 := by rw [slot]; decide
  have hlen : s.halflen.toNat = s.halfWords := by
    by_cases hpidx : s.pidx = 0
    · exact checked hpidx
    · exact h.packing_length hpidx
  rcases packAdvance_cases s with ⟨-, e⟩ | ⟨hmore, e⟩ <;> rw [e]
  · exact
      { h with
        busy_running := fun _ => h.busy_running hbusy
        busy_captured := fun _ => h.busy_captured hbusy
        pidx_zero := fun _ => rfl
        pidx_lt := halfWords_pos h.params_ok
        packing_length := absurd rfl
        blk_length := nofun
        busy_pending := fun _ => h.busy_pending hbusy }
  · have hlt := h.pidx_lt
    have hbound := s.halflen.isLt
    have hnext : (s.pidx + 1).toNat = s.pidx.toNat + 1 := by
      rw [BitVec.toNat_add_of_lt (by simp; omega)]; rfl
    exact
      { h with
        pidx_zero := fun hslot => absurd slot hslot
        pidx_lt := by rw [hnext]; exact show s.pidx.toNat + 1 < s.halfWords by omega
        packing_length := fun _ => hlen }

theorem controlInv_performs {i : Instr} {t : State} (act : Performs s i t) : ControlInv t := by
  cases act with
  | ignored => exact h
  | raised _ c => exact controlInv_fault h c
  | requestedFirst => exact controlInv_notify h nofun
  | requestedSecond => exact controlInv_notify h nofun
  | countedError => exact { h with }
  | latched m row _ stopped => exact controlInv_latchMode h stopped m row
  | wroteInc => exact { h with }
  | wroteWave => exact { h with }
  | wroteHalflen n _ stopped => exact controlInv_halflen h stopped n
  | read => exact { h with }
  | captured running _ slot pending => exact controlInv_poll h running slot pending
  | generated _ _ slot => exact controlInv_gen h slot
  | packed w _ _ slot checked _ _ inBuf =>
    exact controlInv_packAdvance (controlInv_writeWord h inBuf w) slot checked
  | cleared _ _ slot => exact controlInv_clr h slot

end

/-! ### The obligation -/

/-- Settles O39: the engine's part of a step keeps the invariants, and so does each operation. -/
theorem stepKeepsControlInvariant : Obligations.StepKeepsControlInvariant := by
  intro s t h hstep
  cases steps_of_step hstep with
  | reset => exact controlInv_platformReset h.params_ok
  | quiet move => exact controlInv_afterEngine h move
  | illegal => exact controlInv_fault (controlInv_afterEngine h .rests) .illegalOp
  | performs move _ act => exact controlInv_performs (controlInv_afterEngine h move) act

end Sys2Proof.Machine
end

