-- ==== Sys2Proof/Proofs/Oscillator.lean ====
section
/-! PROOF. The ranges of 41_oscillator.md R107 and R108: the wrap of a finite value is a phase, an
advance keeps the phase in `[0, 1)`, and every sample is within `[-1, 1]`. -/

namespace Sys2Proof.Machine

/-! ### The wrap (R105) -/

theorem scaled_eq_scaledMag {q : F32} (h : 0 ≤ scaled q) : scaled q = scaledMag q := by
  rw [← natAbs_scaled]; omega

/-- Cutting a finite value at `2^149`, the unit's place: the whole part and the fractional part are both
binary32 magnitudes, as neither has more significant bits than the value. -/
theorem exists_mag_parts {b : Nat} (hb : b < 0x7F800000) :
    (∃ c < 0x7F800000, magValue c = magValue b / 2 ^ 149 * 2 ^ 149) ∧
      ∃ c < 0x7F800000, magValue c = magValue b % 2 ^ 149 := by
  have hle {c : Nat} (hc : magValue c ≤ magValue b) : c < 0x7F800000 :=
    lt_of_le_of_lt (magValue_le_iff.1 hc) hb
  obtain ⟨e, m, -, hm, -, hv⟩ := magnitude_significand b
  suffices h : (∃ c, magValue c = magValue b / 2 ^ 149 * 2 ^ 149) ∧
      ∃ c, magValue c = magValue b % 2 ^ 149 by
    obtain ⟨⟨c, hc⟩, d, hd⟩ := h
    exact ⟨⟨c, hle (hc ▸ Nat.div_mul_le_self _ _), hc⟩, d, hle (hd ▸ Nat.mod_le _ _), hd⟩
  rw [hv]
  by_cases he : 149 ≤ e
  · have hdvd : 2 ^ 149 ∣ m * 2 ^ e := Dvd.dvd.mul_left (Nat.pow_dvd_pow 2 he) m
    rw [Nat.div_mul_cancel hdvd, Nat.mod_eq_zero_of_dvd hdvd]
    exact ⟨⟨b, hv⟩, 0, magValue_zero⟩
  · have hsplit : 2 ^ 149 = 2 ^ (149 - e) * 2 ^ e := by rw [← pow_add]; congr 1; omega
    constructor
    · rw [hsplit, Nat.mul_div_mul_right _ _ (Nat.two_pow_pos e), ← hsplit]
      exact ⟨_, magValue_roundMag_significand 149 (lt_of_le_of_lt (Nat.div_le_self _ _) hm)⟩
    · rw [hsplit, Nat.mul_mod_mul_right]
      exact ⟨_, magValue_roundMag_significand e (lt_of_le_of_lt (Nat.mod_le _ _) hm)⟩

/-- The floor of a non-negative value is exact. -/
theorem scaled_ffloor {q : F32} (hq : isFinite q = true) (hpos : 0 ≤ scaled q) :
    isFinite (ffloor q) = true ∧ scaled (ffloor q) = scaled q / 2 ^ 149 * 2 ^ 149 := by
  by_cases h0 : fmag q = 0
  · have hzero : scaled q = 0 := by rw [scaled_eq_scaledMag hpos, scaledMag, h0, magValue_zero]; rfl
    have hfloor : ffloor q = q := by simp [ffloor, not_isNaN_of_isFinite hq, h0]
    rw [hfloor, hzero]
    exact ⟨hq, rfl⟩
  · obtain ⟨⟨b, hb, hv⟩, -⟩ := exists_mag_parts ((isFinite_iff q).1 hq)
    rw [ffloor_of_isFinite hq h0]
    refine scaled_roundInt_exact hb ?_
    rw [hv, scaled_eq_scaledMag hpos]
    exact_mod_cast Int.natAbs_natCast _

/-- R105: the wrap of a non-negative value is exactly its fractional part. -/
theorem scaled_wrap {q : F32} (hq : isFinite q = true) (hpos : 0 ≤ scaled q) :
    isFinite (wrap q) = true ∧ scaled (wrap q) = scaled q % 2 ^ 149 := by
  obtain ⟨hffin, hfloor⟩ := scaled_ffloor hq hpos
  obtain ⟨-, b, hb, hv⟩ := exists_mag_parts ((isFinite_iff q).1 hq)
  have hdiff : scaled q - scaled (ffloor q) = scaled q % 2 ^ 149 := by rw [hfloor]; omega
  rw [wrap, fsub_of_isFinite hq hffin, hdiff]
  refine scaled_roundInt_exact hb ?_
  rw [hv, scaled_eq_scaledMag hpos]
  exact_mod_cast Int.natAbs_natCast _

theorem unitPhase_wrap {q : F32} (hq : isFinite q = true) (hpos : 0 ≤ scaled q) :
    unitPhase (wrap q) = true := by
  obtain ⟨hfin, hval⟩ := scaled_wrap hq hpos
  rw [unitPhase_iff, hval]
  exact ⟨hfin, Int.emod_nonneg _ (by decide), Int.emod_lt_of_pos _ (by decide)⟩

/-! ### The phase (R102, R108) -/

/-- An increment as 10_state.md R35 (e) has it: `+0.0`, or finite and positive. -/
def legalInc (x : F32) : Prop := x = F32.zero ∨ isIncrement x = true

theorem legalInc_nonneg {x : F32} (h : legalInc x) : isFinite x = true ∧ 0 ≤ scaled x := by
  rcases h with rfl | h
  · exact ⟨isFinite_zero, scaled_zero.ge⟩
  · simp only [isIncrement, Bool.and_eq_true] at h
    obtain ⟨hfin, hgt⟩ := h
    have := (fgt_iff hfin isFinite_zero).1 hgt
    rw [scaled_zero] at this
    exact ⟨hfin, this.le⟩

/-- R108: a phase and the largest increment lie less than half a unit beyond the largest finite value, so
that no sum overflows. -/
theorem fadd_phase_inc {p inc : F32} (hp : unitPhase p = true) (hinc : legalInc inc) :
    isFinite (fadd p inc) = true ∧ 0 ≤ scaled (fadd p inc) := by
  obtain ⟨hpfin, hp0, hp1⟩ := (unitPhase_iff p).1 hp
  obtain ⟨hifin, hi0⟩ := legalInc_nonneg hinc
  have hmax := scaledMag_le_of_isFinite hifin
  rw [magValue_max] at hmax
  have hlt : |scaled p + scaled inc| < (2 ^ 25 - 1) * 2 ^ 252 * (1 : Nat) := by
    have := natAbs_scaled inc
    rw [abs_of_nonneg (by omega)]
    omega
  have hfin := ((fadd_correctlyRounded hpfin hifin).1 hlt).1
  refine ⟨hfin, ?_⟩
  rw [fadd_of_isFinite hpfin hifin] at hfin ⊢
  exact scaled_roundInt_nonneg (by omega) hfin

theorem unitPhase_advance {p inc : F32} (hp : unitPhase p = true) (hinc : legalInc inc) :
    unitPhase (advance inc p) = true := by
  obtain ⟨hfin, hpos⟩ := fadd_phase_inc hp hinc
  exact unitPhase_wrap hfin hpos

theorem unitPhase_phaseAfter {inc : F32} (hinc : legalInc inc) (n : Nat) {p : F32}
    (hp : unitPhase p = true) : unitPhase (phaseAfter inc n p) = true := by
  induction n generalizing p with
  | zero => exact hp
  | succ n ih => exact ih (unitPhase_advance hp hinc)

/-! ### The samples (R103, R104, R107) -/

/-- Rounding a value of `[-1, 1]` stays in it. -/
theorem inUnitRange_roundInt {zneg : Bool} {z : Int} (h : |z| ≤ 2 ^ 149) :
    inUnitRange (roundInt zneg z) = true := by
  have hw := roundInt_within (zneg := zneg) (z := z) (b := 0x3F800000) (by decide)
    (by rw [magValue_one]; zify; exact h)
  rw [magValue_one] at hw
  exact (inUnitRange_iff _).2 (by exact_mod_cast hw)

/-- `2x - 1` for `x` in `[0, 1]`: the product is exact, and the difference is in `[-1, 1]`. -/
theorem inUnitRange_double_sub_one {x : F32} (hfin : isFinite x = true) (h0 : 0 ≤ scaled x)
    (h1 : scaled x ≤ 2 ^ 149) : inUnitRange (fsub (fmul F32.two x) F32.one) = true := by
  obtain ⟨hfin2, hval⟩ := scaled_fmul_two hfin (by rw [abs_of_nonneg h0]; exact h1)
  rw [fsub_of_isFinite hfin2 isFinite_one, hval, scaled_one]
  exact inUnitRange_roundInt (by rw [abs_le]; omega)

theorem inUnitRange_saw {p : F32} (hp : unitPhase p = true) : inUnitRange (saw p) = true := by
  obtain ⟨hfin, h0, h1⟩ := (unitPhase_iff p).1 hp
  exact inUnitRange_double_sub_one hfin h0 h1.le

theorem inUnitRange_triangle {p : F32} (hp : unitPhase p = true) :
    inUnitRange (triangle p) = true := by
  obtain ⟨hfin, habs⟩ := (inUnitRange_iff _).1 (inUnitRange_saw hp)
  refine inUnitRange_double_sub_one (isFinite_fabs hfin) ?_ ?_ <;> rw [scaled_fabs]
  · exact abs_nonneg _
  · exact habs

/-- Up to `2^150`, itself exact, the spacing is at most `2^126`, and rounding errs by at most half of
it. -/
theorem magValue_roundMag_le {n : Nat} (h : n ≤ 2 ^ 150) :
    magValue (roundMag n 0) ≤ n + 2 ^ 125 := by
  have hval := magValue_roundMag_mul n 0
  rw [pow_zero, Nat.mul_one] at hval
  rcases Nat.eq_or_lt_of_le h with rfl | hlt
  · have hexact := roundMag_exact 0x40000000 0
    rw [magValue_two, pow_zero, Nat.mul_one] at hexact
    rw [hexact, magValue_two]
    omega
  · have hshift : roundShift n 0 ≤ 126 := by
      have hlog : n.log2 < 150 := by
        rcases Nat.eq_zero_or_pos n with rfl | hpos
        · decide
        · exact (Nat.log2_lt (by omega)).2 hlt
      unfold roundShift
      omega
    have hpow : 2 ^ roundShift n 0 ≤ 2 ^ 126 := Nat.pow_le_pow_right (by decide) hshift
    have herr := (roundHalfEven_error n (roundShift n 0)).1
    omega

/-- `2 - |t|` for `t` in `[-1, 1]`, rounded. -/
theorem scaledMag_two_sub_fabs {t : F32} (hfin : isFinite t = true)
    (h1 : scaledMag t ≤ 2 ^ 149) :
    isFinite (fsub F32.two (fabs t)) = true ∧
      scaledMag (fsub F32.two (fabs t)) ≤ 2 ^ 150 - scaledMag t + 2 ^ 125 := by
  have habs : scaled (fabs t) = scaledMag t := by
    rw [scaled_fabs, ← natAbs_scaled, Int.natCast_natAbs]
  have hdiff : scaled F32.two - scaled (fabs t) = ((2 ^ 150 - scaledMag t : Nat) : Int) := by
    rw [scaled_two, habs]; omega
  obtain ⟨neg, hr, -⟩ := roundInt_eq_assemble (fsign F32.two && !fsign (fabs t))
    ((2 ^ 150 - scaledMag t : Nat) : Int)
  rw [fsub_of_isFinite isFinite_two (isFinite_fabs hfin), hdiff, hr, Int.natAbs_natCast]
  have hmag : roundMag (2 ^ 150 - scaledMag t) 0 ≤ 0x40000000 :=
    roundMag_le (by rw [magValue_two]; omega)
  rw [scaledMag_assemble (by omega)]
  exact ⟨isFinite_assemble (by omega), magValue_roundMag_le (by omega)⟩

/-- The product of 41_oscillator.md R104 exceeds 1 by at most `2^-24`, half a unit there: with
`x = 1 - d` it is `(1 - d)(1 + d + 2^-24)`. -/
theorem shape_product_le {x y : Nat} (hx : x ≤ 2 ^ 149) (hy : y ≤ 2 ^ 150 - x + 2 ^ 125) :
    x * y ≤ (2 ^ 149 + 2 ^ 125) * 2 ^ 149 := by
  obtain ⟨d, hd⟩ := Nat.exists_eq_add_of_le hx
  have hy' : y ≤ 2 ^ 149 + d + 2 ^ 125 := by omega
  calc x * y ≤ x * (2 ^ 149 + d + 2 ^ 125) := Nat.mul_le_mul_left x hy'
    _ ≤ (x + d) * (x + d) + 2 ^ 125 * (x + d) := by rw [hd]; nlinarith
    _ = (2 ^ 149 + 2 ^ 125) * 2 ^ 149 := by rw [← hd]; ring

/-- The midpoint of 1 and the next value goes to 1, the even one. -/
theorem roundMag_le_one {n : Nat} (h : n ≤ (2 ^ 149 + 2 ^ 125) * 2 ^ 149) :
    roundMag n 149 ≤ 0x3F800000 :=
  le_trans (roundMag_mono 149 h) (by decide +kernel)

theorem inUnitRange_shape {t : F32} (ht : inUnitRange t = true) : inUnitRange (shape t) = true := by
  obtain ⟨hfin, habs⟩ := (inUnitRange_iff t).1 ht
  have h1 : scaledMag t ≤ 2 ^ 149 := by rw [← natAbs_scaled]; zify; exact habs
  obtain ⟨hdfin, hdle⟩ := scaledMag_two_sub_fabs hfin h1
  have hmag := roundMag_le_one (shape_product_le h1 hdle)
  rw [shape, fmul_of_isFinite hfin hdfin, inUnitRange_iff]
  refine ⟨isFinite_assemble (by omega), ?_⟩
  rw [← Int.natCast_natAbs, natAbs_scaled, roundScaled, scaledMag_assemble (by omega)]
  exact_mod_cast magValue_one ▸ magValue_le_iff.2 hmag

theorem inUnitRange_sampleAt (w : Waveform) {p : F32} (hp : unitPhase p = true) :
    inUnitRange (sampleAt w p) = true := by
  cases w with
  | sawtooth => exact inUnitRange_saw hp
  | parabolicSine => exact inUnitRange_shape (inUnitRange_triangle hp)

theorem inUnitRange_genSamples (w : Waveform) {inc : F32} (hinc : legalInc inc) (n : Nat) {p : F32}
    (hp : unitPhase p = true) : ∀ x ∈ genSamples w inc n p, inUnitRange x = true := by
  induction n generalizing p with
  | zero => nofun
  | succ n ih =>
    intro x hx
    rcases List.mem_cons.1 hx with rfl | hx
    · exact inUnitRange_sampleAt w hp
    · exact ih (unitPhase_advance hp hinc) x hx

end Sys2Proof.Machine
end

