-- ==== Sys2Proof/Proofs/NumericInvariant.lean ====
section
/-! PROOF. The numeric invariants (10_state.md R35 (d), (e), (f)) hold at reset and every step keeps them;
with them, what holds at reset. -/

namespace Sys2Proof.Machine

/-! ### At reset -/

theorem unitPhase_zero : unitPhase F32.zero = true := by decide +kernel

theorem numericInv_resetWith (p : Params) : NumericInv (State.resetWith p) where
  phase_ok := unitPhase_zero
  inc_ok := .inl rfl
  blk_ok := nofun

theorem paramsOk_defaultParams : paramsOk Config.defaultParams = true := by decide +kernel

/-- Settles O3; `State.reset` is a reset with parameters the spec allows. -/
theorem invariantsHoldAtReset : Obligations.InvariantsHoldAtReset :=
  ⟨fun p hp => ⟨controlInv_resetWith hp, numericInv_resetWith p⟩,
    controlInv_resetWith paramsOk_defaultParams, numericInv_resetWith _⟩

/-! ### Every step -/

theorem numericInv_afterEngine {s : State} (h : NumericInv s) (e : Engine) :
    NumericInv (afterEngine s e) := { h with }

/-- `GEN` makes the block and the phase anew, and `CFG.INC` checks what it writes; no other operation
writes them. -/
theorem numericInv_performs {s t : State} {i : Instr} (h : NumericInv s) (act : Performs s i t) :
    NumericInv t := by
  cases act with
  | wroteInc x _ legal => exact { h with inc_ok := .inr legal }
  | captured => exact { h with blk_ok := nofun }
  | generated =>
    exact
      { h with
        phase_ok := unitPhase_phaseAfter h.inc_ok _ h.phase_ok
        blk_ok := fun _ => inUnitRange_genSamples _ h.inc_ok _ h.phase_ok }
  | packed w _ _ slot =>
    rcases packAdvance_cases { s with mem := Memory.writeWord s.mem s.packAddr w } with
      ⟨-, e⟩ | ⟨-, e⟩ <;> rw [e]
    · exact { h with blk_ok := nofun }
    · exact { h with }
  | cleared => exact { h with blk_ok := nofun }
  | _ => exact { h with }

/-- Settles O40, by what a step can do. -/
theorem stepKeepsNumericInvariant : Obligations.StepKeepsNumericInvariant := by
  intro s t h hstep
  cases steps_of_step hstep with
  | reset => exact { numericInv_resetWith s.params with }
  | quiet => exact numericInv_afterEngine h _
  | illegal => exact { h with }
  | performs _ _ act => exact numericInv_performs (numericInv_afterEngine h _) act

end Sys2Proof.Machine
end

