-- ==== Sys2Proof/Proofs/Stops.lean ====
section
/-! PROOF. What can stop (20_memory.md R47): from a state that meets the control invariants every
operation and every agent's turn answers a next state, but for three moves of the engine (log 10,
log 12). -/

namespace Sys2Proof.Machine

/-! ### Outcomes that answer -/

/-- The outcome has a next state. -/
def Answers (r : Result) : Prop := ∃ t, r = .next t

theorem answers_next (t : State) : Answers (.next t) := ⟨t, rfl⟩

theorem answers_raise (c : Cause) (s : State) : Answers (raise c s) := ⟨_, raise_eq c s⟩

theorem answers_unlessHalted (s : State) {act : Result} (h : Answers act) :
    Answers (unlessHalted s act) := by
  rcases unlessHalted_cases s act with ⟨-, e⟩ | ⟨-, e⟩ <;> rw [e]
  · exact answers_next s
  · exact h

theorem answers_inSlot (slot : BitVec 2) (s : State) {act : Result} (h : Answers act) :
    Answers (inSlot slot s act) := by
  rcases inSlot_cases slot s act with e | ⟨-, -, -, e⟩ <;> rw [e]
  · exact answers_next s
  · exact h

/-! ### The two halves inside `BUF` -/

/-- 20_memory.md R41: `2*K*B <= 8*B`. -/
theorem two_halfWords_le_bufWords (s : State) : 2 * s.halfWords ≤ bufWords s.params := by
  have := halfWords_le s
  unfold bufWords
  omega

/-- With `halflen = K*B` an index below `K*B` stays inside `BUF` from either base
(42_packer.md R122). -/
theorem packAddr_lt_bufWords {s : State} (length : s.halflen.toNat = s.halfWords)
    (inBlock : s.pidx.toNat < s.halfWords) : s.packAddr < bufWords s.params := by
  have hbuf := two_halfWords_le_bufWords s
  have hbase : s.packBase ≤ s.halfWords := by
    unfold State.packBase
    split <;> omega
  unfold State.packAddr
  omega

/-! ### The operations -/

section
variable {s : State} (h : ControlInv s)
include h

/-- `GEN` has filled the block, so every index below `K*B` has its sample (42_packer.md R127). -/
theorem ControlInv.exists_packWord (slot : s.fpc = 2) :
    ∃ w, packWord s.blk s.depth32 s.pidx.toNat = some w := by
  refine ⟨_, packWord_eq ?_⟩
  rw [h.blk_length slot]
  exact Nat.div_lt_of_lt_mul h.pidx_lt

/-- 10_state.md R35 (c): once the length is checked the write finds both its sample and its word. -/
theorem packStore_answers (slot : s.fpc = 2)
    (checked : s.pidx = 0 → s.halflen.toNat = s.halfWords) : Answers (packStore s) := by
  have hlen : s.halflen.toNat = s.halfWords := by
    by_cases first : s.pidx = 0
    · exact checked first
    · exact h.packing_length first
  obtain ⟨w, hw⟩ := h.exists_packWord slot
  have inBuf := packAddr_lt_bufWords hlen h.pidx_lt
  have inBlock : ¬ s.halfWords ≤ s.pidx.toNat := not_le.2 h.pidx_lt
  simp only [packStore, if_neg inBlock, hw, if_pos inBuf]
  exact answers_next _

theorem execPack_answers : Answers (execPack s) := by
  rcases execPack_cases s with e | ⟨-, -, slot, ⟨-, -, e⟩ | ⟨checked, e⟩⟩ <;> rw [e]
  · exact answers_next s
  · exact answers_raise _ s
  · exact packStore_answers h slot checked

/-- The spec's faults are next states (log 14), and of the operations only `PACK` has a stop. -/
theorem exec_answers (i : Instr) : Answers (exec i s) := by
  cases i with
  | evtHalf => exact answers_unlessHalted s (answers_next _)
  | evtFull => exact answers_unlessHalted s (answers_next _)
  | evtErr => exact answers_unlessHalted s (answers_next _)
  | start m =>
    rcases execStart_cases m s with ⟨-, e⟩ | ⟨-, -, e⟩ | ⟨-, -, -, e⟩ | ⟨-, -, row, -, e⟩ <;>
      exact ⟨_, e⟩
  | cfgInc x =>
    rcases execCfgInc_cases x s with ⟨-, e⟩ | ⟨-, -, e⟩ | ⟨-, -, e⟩ <;> exact ⟨_, e⟩
  | cfgWave w => exact answers_unlessHalted s (answers_next _)
  | cfgHalflen n =>
    rcases execCfgHalflen_cases n s with ⟨-, e⟩ | ⟨-, -, e⟩ | ⟨-, -, e⟩ <;> exact ⟨_, e⟩
  | rdreg r => exact answers_next _
  | poll => rcases execPoll_cases s with e | ⟨-, -, -, -, e⟩ <;> exact ⟨_, e⟩
  | gen => exact answers_inSlot 1 s (answers_next _)
  | pack => exact execPack_answers h
  | clr => exact answers_inSlot 3 s (answers_next _)

/-! ### The agents' turns -/

theorem irqTurn_answers (ev : EventCode) : Answers (irqTurn ev s) := by
  unfold irqTurn
  split
  · exact exec_answers h _
  · exact answers_next s

theorem configTurn_answers (w : OpWord) : Answers (configTurn w s) := by
  rcases configTurn_cases w s with ⟨i, -, e⟩ | ⟨-, e⟩ <;> rw [e]
  · exact exec_answers h i
  · exact answers_unlessHalted s (answers_raise _ s)

theorem fgTurn_answers : Answers (fgTurn s) := by
  unfold fgTurn
  split
  · exact exec_answers h _
  · exact answers_next s

/-- An engine that streams has its pointer inside `BUF` (60_exceptions.md R186). -/
theorem ControlInv.txPtr_lt_bufWords (streaming : s.engine.mode = .streaming) :
    s.engine.txPtr < bufWords s.params := by
  obtain ⟨-, hlen, hptr⟩ := h.engine_ok streaming
  have := two_halfWords_le_bufWords s
  omega

/-- An engine under R186 or before `START` moves; `tx` of an open one is refused (log 12). -/
theorem txTurn_answers_or_refused :
    Answers (txTurn (beginTransition s)) ∨
      (s.engine.mode = .unspecified ∧
        txTurn (beginTransition s) = .refused .engineUnspecified) := by
  rcases txTurn_cases (beginTransition s) with
    ⟨-, e⟩ | ⟨unspecified, e⟩ | ⟨streaming, outside, -⟩ | ⟨streaming, -, e⟩
  · exact .inl ⟨_, e⟩
  · exact .inr ⟨unspecified, e⟩
  · exact absurd (h.txPtr_lt_bufWords streaming) (not_lt.2 outside)
  · rw [e]
    exact .inl (irqTurn_answers (controlInv_afterEngine h (.sends streaming)) _)

end

/-! ### The obligation -/

/-- Settles O41, by the agent whose turn the step is. -/
theorem invariantStatesStopOnlyAtOpenEngineMoves :
    Obligations.InvariantStatesStopOnlyAtOpenEngineMoves := by
  intro s h
  have hbegun : ControlInv (beginTransition s) := controlInv_afterEngine h .rests
  rw [step_eq]
  cases hn : nextStimulus s with
  | event ev => exact .inl (irqTurn_answers (controlInv_afterEngine h (.notifies ev)) ev)
  | config w => exact .inl (configTurn_answers hbegun w)
  | fg => exact .inl (fgTurn_answers hbegun)
  | tx =>
    rcases txTurn_answers_or_refused h with answers | ⟨unspecified, e⟩
    · exact .inl answers
    · exact .inr (.inl ⟨rfl, unspecified, e⟩)
  | txAt p =>
    rcases txAtTurn_cases p (beginTransition s) with
      ⟨-, -, e⟩ | ⟨unspecified, outside, e⟩ | ⟨ruled, e⟩
    · exact .inl ⟨_, e⟩
    · exact .inr (.inr ⟨p, rfl, .inr ⟨unspecified, outside, e⟩⟩)
    · exact .inr (.inr ⟨p, rfl, .inl ⟨ruled, e⟩⟩)
  | reset => exact .inl ⟨_, rfl⟩

end Sys2Proof.Machine
end

