-- ==== Sys2Proof/Proofs/Encoding.lean ====
section
/-! PROOF. Decoder and encoder agree (30_encoding.md R61 to R66): the rows of format W say once what
a word decodes to, and the statements on codes are by cases on them. -/

namespace Sys2Proof

/-! ### The rows of format W -/

/-- The operation that each `op` selects and what it takes of `imm` (30_encoding.md R63, R64). -/
inductive WordRow (imm : Word) : BitVec 8 → Instr → Prop
  | start : WordRow imm 0x10 (.start imm)
  | cfgInc : WordRow imm 0x11 (.cfgInc imm)
  | cfgWave : WordRow imm 0x12 (.cfgWave (Waveform.ofBit (imm.getLsbD 0)))
  | cfgHalflen : WordRow imm 0x13 (.cfgHalflen imm)
  | rdreg : WordRow imm 0x14 (.rdreg (RegNum.ofBits (imm.extractLsb' 0 8)))
  | poll : WordRow imm 0x20 .poll
  | gen : WordRow imm 0x21 .gen
  | pack : WordRow imm 0x22 .pack
  | clr : WordRow imm 0x23 .clr

theorem decodeWord_of_row {op : BitVec 8} {imm : Word} {i : Instr} (row : WordRow imm op i) :
    decodeWord (opWord op imm) = .instr i := by
  cases row <;> simp [decodeWord]

theorem row_of_decodeWord {w : OpWord} {i : Instr} (h : decodeWord w = .instr i) :
    WordRow (immField w) (opField w) i := by
  simp only [decodeWord] at h
  generalize opField w = op at h ⊢
  split_ifs at h <;> cases h
  all_goals subst op; constructor

/-- A word decodes to the operation of its row, and no other word does. -/
theorem decodeWord_eq_instr_iff {w : OpWord} {i : Instr} :
    decodeWord w = .instr i ↔ WordRow (immField w) (opField w) i := by
  constructor
  · exact row_of_decodeWord
  · intro row
    simpa only [opWord_fields] using decodeWord_of_row row

section
variable {op : BitVec 8} {imm : Word} {i : Instr}

/-- The class nibble of `op` is the port's: 1 for `CFG`, 2 for `FG` (30_encoding.md R62, R65). -/
theorem WordRow.port (row : WordRow imm op i) :
    (i.agent = .cfg ∧ 0x10 ≤ op.toNat ∧ op.toNat ≤ 0x14) ∨
      (i.agent = .fg ∧ 0x20 ≤ op.toNat ∧ op.toNat ≤ 0x23) := by
  cases row with
  | start | cfgInc | cfgWave | cfgHalflen | rdreg => exact .inl ⟨rfl, by decide, by decide⟩
  | poll | gen | pack | clr => exact .inr ⟨rfl, by decide, by decide⟩

theorem WordRow.wf (row : WordRow imm op i) : i.wf = true := by
  cases row with
  | rdreg => exact ofBits_wf _
  | _ => rfl

theorem exists_row_of_config_range (lo : 0x10 ≤ op.toNat) (hi : op.toNat ≤ 0x14) (imm : Word) :
    ∃ i, WordRow imm op i := by
  have hop : op = 0x10 ∨ op = 0x11 ∨ op = 0x12 ∨ op = 0x13 ∨ op = 0x14 := by bv_omega
  rcases hop with rfl | rfl | rfl | rfl | rfl
  · exact ⟨_, .start⟩
  · exact ⟨_, .cfgInc⟩
  · exact ⟨_, .cfgWave⟩
  · exact ⟨_, .cfgHalflen⟩
  · exact ⟨_, .rdreg⟩

theorem exists_row_of_sequencer_range (lo : 0x20 ≤ op.toNat) (hi : op.toNat ≤ 0x23) (imm : Word) :
    ∃ i, WordRow imm op i := by
  have hop : op = 0x20 ∨ op = 0x21 ∨ op = 0x22 ∨ op = 0x23 := by bv_omega
  rcases hop with rfl | rfl | rfl | rfl
  · exact ⟨_, .poll⟩
  · exact ⟨_, .gen⟩
  · exact ⟨_, .pack⟩
  · exact ⟨_, .clr⟩

end

/-! ### The ports (R65) -/

/-- A port accepts the words of its own agent's operations. -/
theorem decodeOn_eq_instr_iff {who : Agent} {w : OpWord} {i : Instr} :
    decodeOn who w = .instr i ↔ WordRow (immField w) (opField w) i ∧ i.agent = who := by
  rw [← decodeWord_eq_instr_iff]
  unfold decodeOn
  cases decodeWord w with
  | instr j =>
    by_cases own : j.agent = who
    · simp only [if_pos own, Decoded.instr.injEq]
      exact ⟨fun h => ⟨h, h ▸ own⟩, And.left⟩
    · simp only [if_neg own, Decoded.instr.injEq]
      exact ⟨nofun, fun ⟨h, agent⟩ => absurd (h ▸ agent) own⟩
  | rejected e => exact ⟨nofun, fun h => nomatch h.1⟩

theorem decodeConfig_accepts_iff (w : OpWord) :
    (∃ i, decodeConfig w = .instr i) ↔
      0x10 ≤ (opField w).toNat ∧ (opField w).toNat ≤ 0x14 := by
  constructor
  · rintro ⟨i, h⟩
    obtain ⟨row, agent⟩ := decodeOn_eq_instr_iff.1 h
    rcases row.port with ⟨-, range⟩ | ⟨agent', -⟩
    · exact range
    · exact absurd (agent.symm.trans agent') nofun
  · rintro ⟨lo, hi⟩
    obtain ⟨i, row⟩ := exists_row_of_config_range lo hi (immField w)
    rcases row.port with ⟨agent, -⟩ | ⟨-, above, -⟩
    · exact ⟨i, decodeOn_eq_instr_iff.2 ⟨row, agent⟩⟩
    · omega

theorem decodeSequencer_accepts_iff (w : OpWord) :
    (∃ i, decodeSequencer w = .instr i) ↔
      0x20 ≤ (opField w).toNat ∧ (opField w).toNat ≤ 0x23 := by
  constructor
  · rintro ⟨i, h⟩
    obtain ⟨row, agent⟩ := decodeOn_eq_instr_iff.1 h
    rcases row.port with ⟨agent', -⟩ | ⟨-, range⟩
    · exact absurd (agent.symm.trans agent') nofun
    · exact range
  · rintro ⟨lo, hi⟩
    obtain ⟨i, row⟩ := exists_row_of_sequencer_range lo hi (immField w)
    rcases row.port with ⟨-, -, below⟩ | ⟨agent, -⟩
    · omega
    · exact ⟨i, decodeOn_eq_instr_iff.2 ⟨row, agent⟩⟩

/-- Settles O33, by the rows and their class nibbles. -/
theorem portsAcceptTheirOperations : Obligations.PortsAcceptTheirOperations :=
  fun w => ⟨decodeConfig_accepts_iff w, decodeSequencer_accepts_iff w⟩

/-! ### From an operation to its code and back -/

theorem Waveform.ofBit_toBit (w : Waveform) : Waveform.ofBit w.toBit = w := by cases w <;> rfl

theorem Waveform.toBit_ofBit (b : Bool) : (Waveform.ofBit b).toBit = b := by cases b <;> rfl

theorem RegNum.ofBits_of_unassigned :
    ∀ n : BitVec 8, 0x0E ≤ n.toNat → RegNum.ofBits n = .unassigned n := by decide +kernel

theorem RegNum.ofBits_toBits {r : RegNum} (h : r.wf = true) : RegNum.ofBits r.toBits = r := by
  cases r with
  | unassigned n => exact RegNum.ofBits_of_unassigned n (of_decide_eq_true h)
  | _ => rfl

/-- `CFG.WAVE` is decoded from the one bit it is encoded in (10_state.md R18). -/
theorem decodeWord_cfgWave (w : Waveform) :
    decodeWord (opWord 0x12 ((BitVec.ofBool w.toBit).setWidth 32)) = .instr (.cfgWave w) := by
  have bit : ((BitVec.ofBool w.toBit).setWidth 32).getLsbD 0 = w.toBit := by simp
  rw [decodeWord_of_row .cfgWave, bit, Waveform.ofBit_toBit]

/-- `RDREG` is decoded from the byte it is encoded in (10_state.md R24). -/
theorem decodeWord_rdreg {r : RegNum} (h : r.wf = true) :
    decodeWord (opWord 0x14 (r.toBits.setWidth 32)) = .instr (.rdreg r) := by
  have byte : (r.toBits.setWidth 32).extractLsb' 0 8 = r.toBits := by
    rw [BitVec.extractLsb'_setWidth_of_le (by decide), BitVec.extractLsb'_eq_self]
  rw [decodeWord_of_row .rdreg, byte, RegNum.ofBits_toBits h]

/-- Settles O31, by cases on the operation. -/
theorem decodeEncodeRoundTrip : Obligations.DecodeEncodeRoundTrip := by
  intro i wf
  cases i with
  | evtHalf => rfl
  | evtFull => rfl
  | evtErr => rfl
  | start m => exact decodeWord_of_row .start
  | cfgInc x => exact decodeWord_of_row .cfgInc
  | cfgWave w => exact decodeWord_cfgWave w
  | cfgHalflen n => exact decodeWord_of_row .cfgHalflen
  | rdreg r => exact decodeWord_rdreg wf
  | poll => exact decodeWord_of_row (imm := 0) .poll
  | gen => exact decodeWord_of_row (imm := 0) .gen
  | pack => exact decodeWord_of_row (imm := 0) .pack
  | clr => exact decodeWord_of_row (imm := 0) .clr

/-! ### From a word to its operation and back -/

/-- A mask that keeps all of `op` acts on `imm` alone. -/
theorem opWord_and_imm (op : BitVec 8) (imm mask : Word) :
    opWord op imm &&& opWord 0xFF mask = opWord op (imm &&& mask) := by
  have keeps : op &&& 0xFF = op := BitVec.and_allOnes
  rw [opWord, opWord, BitVec.and_append, keeps, opWord]

/-- `imm` with the bits cleared that the operation of `op` ignores (30_encoding.md R63). -/
def usedImm (op : BitVec 8) (imm : Word) : Word :=
  if op = 0x12 then imm &&& 1
  else if op = 0x14 then imm &&& 0xFF
  else if op.toNat < 0x20 then imm
  else 0

/-- The masks of R63 over the whole word. -/
theorem opWord_usedImm (op : BitVec 8) (imm : Word) :
    opWord op (usedImm op imm) =
      if op = 0x12 then opWord op imm &&& 0xFF00000001#40
      else if op = 0x14 then opWord op imm &&& 0xFF000000FF#40
      else if op.toNat < 0x20 then opWord op imm
      else opWord op imm &&& 0xFF00000000#40 := by
  unfold usedImm
  split_ifs
  · exact (opWord_and_imm op imm 1).symm
  · exact (opWord_and_imm op imm 0xFF).symm
  · rfl
  · exact (congrArg (opWord op) BitVec.and_zero.symm).trans (opWord_and_imm op imm 0).symm

theorem setWidth_extractLsb'_eq_and (imm : Word) :
    (imm.extractLsb' 0 8).setWidth 32 = imm &&& 0xFF := by
  have low : (imm &&& 0xFF).toNat = imm.toNat % 2 ^ 8 := Nat.and_two_pow_sub_one_eq_mod imm.toNat 8
  apply BitVec.eq_of_toNat_eq
  rw [low, ← BitVec.setWidth_eq_extractLsb' (by decide), BitVec.toNat_setWidth,
    BitVec.toNat_setWidth]
  omega

/-- An operation's code has its row's `op` and, of `imm`, the bits it uses. -/
theorem WordRow.encode_eq {op : BitVec 8} {imm : Word} {i : Instr} (row : WordRow imm op i) :
    encode i = .word (opWord op (usedImm op imm)) := by
  cases row with
  | start => rfl
  | cfgInc => rfl
  | cfgWave =>
    rw [encode, Waveform.toBit_ofBit, ← BitVec.and_one_eq_setWidth_ofBool_getLsbD]
    rfl
  | cfgHalflen => rfl
  | rdreg =>
    rw [encode, toBits_ofBits, setWidth_extractLsb'_eq_and]
    rfl
  | poll => rfl
  | gen => rfl
  | pack => rfl
  | clr => rfl

/-- Settles O32, by the row of the word. -/
theorem encodeDecodeClearsIgnoredBits : Obligations.EncodeDecodeClearsIgnoredBits := by
  intro w i h
  have row := row_of_decodeWord h
  have masked := opWord_usedImm (opField w) (immField w)
  rw [opWord_fields] at masked
  exact ⟨row.wf, row.encode_eq.trans (congrArg Code.word masked)⟩

/-! ### Words of the test vectors -/

/-- Settles O34: the words are fixed, and each is decoded. -/
theorem specWordsDecode : Obligations.SpecWordsDecode :=
  ⟨by decide, by decide, by decide, by decide, by decide, by decide, by decide⟩

end Sys2Proof
end

