-- ==== Sys2Proof/Proofs/Presented.lean ====
section
/-! PROOF. A presented code and the step (30_encoding.md R60, R65, R66; 60_exceptions.md R174): a
code that decodes runs as its operation, an illegal word raises `ILLEGAL_OP`, and the placing of a
table word (log 16) presents it. -/

namespace Sys2Proof.Machine

/-! ### The configuration port -/

/-- Once a stimulus is taken the step is what its agent does with it. -/
theorem step_of_schedule {s : State} {x : Stimulus} {xs : List Stimulus}
    (h : s.schedule = x :: xs) : step s = perform x { s with schedule := xs, rdata := none } := by
  rw [step_eq, nextStimulus_cons h, beginTransition, h, List.tail_cons]

theorem step_config {s : State} {w : OpWord} {i : Instr} {xs : List Stimulus}
    (presented : s.schedule = .config w :: xs) (h : decodeConfig w = .instr i) :
    step s = exec i { s with schedule := xs, rdata := none } := by
  rw [step_of_schedule presented, perform, configTurn, h]

/-- Settles O27, by the row of the word. -/
theorem stepRunsConfigurationWord : Obligations.StepRunsConfigurationWord := by
  intro s w i xs presented h
  obtain ⟨row, -⟩ := decodeOn_eq_instr_iff.1 h
  exact ⟨row.wf, step_config presented h⟩

/-- Only the first fault is kept (60_exceptions.md R171). -/
theorem unlessHalted_raise (c : Cause) (s : State) :
    unlessHalted s (raise c s) =
      .next { s with fault := if s.fault = 0 then c.code else s.fault } := by
  by_cases live : s.fault = 0
  · rw [unlessHalted_live live, raise_eq, if_pos live]
  · rw [unlessHalted_halted live, if_neg live]

/-- A word that the port does not accept is illegal there (30_encoding.md R66). -/
theorem configTurn_of_not_accepted {w : OpWord} (s : State)
    (h : ¬ ∃ i, decodeConfig w = .instr i) :
    configTurn w s = .next { s with fault := if s.fault = 0 then 3 else s.fault } := by
  rcases configTurn_cases w s with ⟨i, accepted, -⟩ | ⟨-, e⟩
  · exact absurd ⟨i, accepted⟩ h
  · exact e.trans (unlessHalted_raise .illegalOp s)

/-- Settles O25: the five ops are all of the port's range. -/
theorem illegalWordRaisesIllegalOp : Obligations.IllegalWordRaisesIllegalOp := by
  intro s w xs presented h10 h11 h12 h13 h14
  have illegal : ¬ ∃ i, decodeConfig w = .instr i := by
    rw [decodeConfig_accepts_iff]
    bv_omega
  rw [step_of_schedule presented]
  exact configTurn_of_not_accepted _ illegal

/-! ### The event port -/

/-- The code `0b11` is `EVT.ERR`'s alone (30_encoding.md R61). -/
theorem evtErr_iff_of_decodeEvent {ev : EventCode} {i : Instr} (h : decodeEvent ev = .instr i) :
    ev = 0b11 ↔ i = .evtErr := by
  unfold decodeEvent at h
  split_ifs at h with half full err <;> cases h
  · simp [half]
  · simp [full]
  · simp [err]

theorem step_event {s : State} {ev : EventCode} {i : Instr} {xs : List Stimulus}
    (presented : s.schedule = .event ev :: xs) (h : decodeEvent ev = .instr i) :
    step s = exec i
      { s with schedule := xs, rdata := none, engine := s.engine.afterEvent ev } := by
  rw [step_of_schedule presented, perform, eventTurn, irqTurn, h]

/-- Settles O28, the engine's part told by the code's operation. -/
theorem stepRunsEventCode : Obligations.StepRunsEventCode := by
  intro s ev i xs presented h
  rw [step_event presented h, Engine.afterEvent]
  simp only [evtErr_iff_of_decodeEvent h]

/-- Only `EVT.ERR` moves the engine (60_exceptions.md R189; log 21). -/
theorem Engine.afterEvent_of_ne_evtErr {ev : EventCode} {i : Instr} (e : Engine)
    (h : decodeEvent ev = .instr i) (hi : i ≠ .evtErr) : e.afterEvent ev = e := by
  have completion : ev ≠ 0b11 := fun err => hi ((evtErr_iff_of_decodeEvent h).1 err)
  rw [Engine.afterEvent, if_neg fun both => completion both.1]

/-! ### Placing a code (log 16) -/

theorem decode_tableCode {nbits w : Nat} {i : Instr} (h : decodeTableWord nbits w = some i) :
    decode (tableCode nbits w) = .instr i := by
  simp only [decodeTableWord] at h
  rw [tableCode]
  split at h
  · next e => cases h; exact e
  · cases h

/-- `SEQ_ROM` holds each operation of `FG` at the slot its word names (10_state.md R32). -/
theorem decodeSequencer_seqRom {imm : Word} {op : BitVec 8} {i : Instr} (row : WordRow imm op i)
    (agent : i.agent = .fg) :
    decodeSequencer (seqRom (op.extractLsb' 0 2)) = .instr i := by
  cases row with
  | start | cfgInc | cfgWave | cfgHalflen | rdreg => cases agent
  | poll => decide
  | gen => decide
  | pack => decide
  | clr => decide

theorem place_word_sequencer {w : OpWord} {i : Instr} (s : State)
    (h : decodeSequencer w = .instr i) :
    place (.word w) s =
      { s with
        running := true
        fault := 0
        fpc := (opField w).extractLsb' 0 2
        schedule := .fg :: s.schedule } := by
  rw [place, h]

/-- No word is accepted on both ports (30_encoding.md R65). -/
theorem decodeSequencer_rejected_of_decodeConfig {w : OpWord} {i : Instr}
    (h : decodeConfig w = .instr i) : ∃ why, decodeSequencer w = .rejected why := by
  cases accepted : decodeSequencer w with
  | instr j =>
    have config := (decodeConfig_accepts_iff w).1 ⟨i, h⟩
    have sequencer := (decodeSequencer_accepts_iff w).1 ⟨j, accepted⟩
    omega
  | rejected why => exact ⟨why, rfl⟩

/-- A placed word of `CFG` is presented; a fault that would have it ignored is taken away. -/
theorem place_word_config {w : OpWord} {i : Instr} (s : State) (h : decodeConfig w = .instr i) :
    ∃ c, place (.word w) s = { s with fault := c, schedule := .config w :: s.schedule } := by
  obtain ⟨why, rejected⟩ := decodeSequencer_rejected_of_decodeConfig h
  simp only [place, rejected, h]
  cases i with
  | rdreg r => exact ⟨s.fault, rfl⟩
  | _ => exact ⟨0, rfl⟩

/-- The step after placing a word: its port's agent runs it. -/
theorem step_place_word {w : OpWord} {i : Instr} (s : State) (h : decodeWord w = .instr i) :
    step (place (.word w) s) =
      exec i
        { place (.word w) s with
          schedule := s.schedule
          rdata := none
          engine := s.engine } := by
  have row := row_of_decodeWord h
  rcases row.port with ⟨agent, -⟩ | ⟨agent, -⟩
  · have accepted : decodeConfig w = .instr i := decodeOn_eq_instr_iff.2 ⟨row, agent⟩
    obtain ⟨c, placed⟩ := place_word_config s accepted
    rw [placed]
    exact step_config rfl accepted
  · have accepted : decodeSequencer w = .instr i := decodeOn_eq_instr_iff.2 ⟨row, agent⟩
    rw [place_word_sequencer s accepted, step_of_schedule rfl, perform, fgTurn,
      decodeSequencer_seqRom row agent]

/-- Settles O30, by the port the placed code stands on. -/
theorem placedTableWordRunsNext : Obligations.PlacedTableWordRunsNext := by
  intro s nbits w i h
  have decoded := decode_tableCode h
  unfold State.withFetchWord
  cases placed : tableCode nbits w with
  | event ev =>
    rw [placed] at decoded
    exact ⟨s.engine.afterEvent ev, Engine.afterEvent_of_ne_evtErr s.engine decoded,
      step_event rfl decoded⟩
  | word op =>
    rw [placed] at decoded
    exact ⟨s.engine, fun _ => rfl, step_place_word s decoded⟩

end Sys2Proof.Machine
end

