-- ==== Sys2Proof/Proofs/ConfigurationPort.lean ====
section
/-! PROOF. The operations of the configuration port (40_mode_config.md R84 to R89): the word each is
decoded from, and what it does in a live block, one equation per case. -/

namespace Sys2Proof.Machine

/-! ### Words (30_encoding.md R65) -/

/-- The configuration port accepts every word of a `CFG` row, whatever its `imm`. -/
theorem decodeConfig_of_row {op : BitVec 8} {imm : Word} {i : Instr} (row : WordRow imm op i)
    (agent : i.agent = .cfg) : decodeConfig (opWord op imm) = .instr i := by
  refine decodeOn_eq_instr_iff.2 ⟨?_, agent⟩
  rwa [immField_opWord, opField_opWord]

/-! ### `CFG.INC` (R86) -/

/-- A pattern is its sign bit above its magnitude. -/
theorem toNat_eq_sign_add_fmag (a : F32) : a.toNat = (if fsign a then 2 ^ 31 else 0) + fmag a := by
  have hlt := a.isLt
  have hsign : fsign a = decide (2 ^ 31 ≤ a.toNat) := BitVec.msb_eq_decide a
  rw [hsign, fmag]
  by_cases h : 2 ^ 31 ≤ a.toNat
  · rw [if_pos (decide_eq_true h)]
    omega
  · rw [if_neg (by simpa using h)]
    omega

theorem forder_pos_iff (a : F32) : 0 < forder a ↔ fsign a = false ∧ 0 < fmag a := by
  unfold forder
  cases fsign a with
  | false => simp
  | true => simp

/-- The order alone tells a finite increment: `+0.0` is below the positive patterns and no other. -/
theorem isIncrement_iff_forder (x : F32) :
    isIncrement x = true ↔ isFinite x = true ∧ 0 < forder x := by
  unfold isIncrement fgt
  by_cases h : isFinite x = true
  · have hzero : forder F32.zero = 0 := by decide
    simp [h, not_isNaN_of_isFinite h, not_isNaN_of_isFinite isFinite_zero, hzero]
  · simp [h]

/-- The increments by pattern: from the smallest subnormal to the largest finite value. -/
theorem isIncrement_iff_toNat (x : F32) :
    isIncrement x = true ↔ 1 ≤ x.toNat ∧ x.toNat ≤ 0x7F7FFFFF := by
  have hmag := fmag_lt x
  have hx := toNat_eq_sign_add_fmag x
  rw [isIncrement_iff_forder, isFinite_iff, forder_pos_iff]
  cases hsign : fsign x with
  | false =>
    rw [hsign, if_neg Bool.false_ne_true] at hx
    simp only [true_and]
    omega
  | true =>
    rw [hsign, if_pos rfl] at hx
    simp only [Bool.true_eq_false, false_and, and_false, false_iff]
    omega

section
variable {s : State}

theorem exec_cfgInc_of_isIncrement {x : F32} (live : s.fault = 0) (h : isIncrement x = true) :
    exec (.cfgInc x) s = .next { s with inc := x } :=
  (unlessHalted_live live _).trans (if_pos h)

theorem exec_cfgInc_of_not_isIncrement {x : F32} (live : s.fault = 0)
    (h : ¬ isIncrement x = true) : exec (.cfgInc x) s = .next { s with fault := 4 } :=
  (unlessHalted_live live _).trans (if_neg h)

/-! ### `CFG.WAVE` and `CFG.HALFLEN` (R87, R88) -/

theorem exec_cfgWave_of_live (live : s.fault = 0) (w : Waveform) :
    exec (.cfgWave w) s = .next { s with wave := w } :=
  unlessHalted_live live _

theorem exec_cfgHalflen_of_running (live : s.fault = 0) (running : s.running = true) (n : Word) :
    exec (.cfgHalflen n) s = .next { s with fault := 5 } :=
  (unlessHalted_live live _).trans (if_pos running)

theorem exec_cfgHalflen_of_stopped (live : s.fault = 0) (stopped : s.running = false) (n : Word) :
    exec (.cfgHalflen n) s = .next { s with halflen := n } :=
  (unlessHalted_live live _).trans (if_neg (ne_true_of_eq_false stopped))

/-- Bit 0 names the strategy (10_state.md R18). -/
theorem ofBit_eq_sawtooth_iff (b : Bool) : Waveform.ofBit b = .sawtooth ↔ b = false := by
  cases b <;> decide

/-! ### `START` (R84) -/

/-- `BAD_STATE` is tested first, whatever the index (60_exceptions.md R176). -/
theorem exec_start_of_running (live : s.fault = 0) (running : s.running = true) (m : Word) :
    exec (.start m) s = .next { s with fault := 5 } :=
  (unlessHalted_live live _).trans (if_pos running)

theorem exec_start_of_no_row {m : Word} (live : s.fault = 0) (stopped : s.running = false)
    (absent : lookup s.params m = none) : exec (.start m) s = .next { s with fault := 1 } := by
  rw [exec, execStart, unlessHalted_live live, if_neg (ne_true_of_eq_false stopped), absent]
  rfl

theorem exec_start_of_row {m : Word} {row : ModeConfig} (live : s.fault = 0)
    (stopped : s.running = false) (present : lookup s.params m = some row) :
    exec (.start m) s = .next (latchMode m row s) := by
  rw [exec, execStart, unlessHalted_live live, if_neg (ne_true_of_eq_false stopped), present]

/-- With the right length the started engine follows 60_exceptions.md R186. -/
theorem Engine.started_streaming (e : Engine) {halflen halfWords : Nat}
    (length : halflen = halfWords) : (e.started halflen halfWords).mode = .streaming :=
  if_pos length

end

/-! ### `RDREG` (R89, 10_state.md R24) -/

theorem toNat_ctrlWord (wave depth32 running : Bool) :
    (ctrlWord wave depth32 running).toNat =
      (if wave then 1 else 0) + (if depth32 then 2 else 0) + (if running then 4 else 0) := by
  revert wave depth32 running
  decide

/-- Numbers from `0x0E` on are not in the table. -/
theorem registerValue_of_le (s : State) {n : Nat} (h : 0x0E ≤ n) : registerValue s n = 0 := by
  obtain ⟨k, rfl⟩ := Nat.exists_eq_add_of_le' h
  rfl

/-- Every named register reads as the table says; `wf` keeps a name from hiding as its number. -/
theorem toNat_readReg (s : State) {r : RegNum} (wf : r.wf = true) :
    (s.readReg r).toNat = registerValue s r.toBits.toNat := by
  cases r with
  | req => exact BitVec.toNat_setWidth_of_le (by decide)
  | cap => exact BitVec.toNat_setWidth_of_le (by decide)
  | fpc => exact BitVec.toNat_setWidth_of_le (by decide)
  | fault => exact BitVec.toNat_setWidth_of_le (by decide)
  | ctrl =>
    rw [State.readReg, toNat_ctrlWord]
    cases hw : s.wave <;> simp [registerValue, RegNum.toBits, Waveform.toBit, hw]
  | unassigned n => exact (registerValue_of_le s (of_decide_eq_true wf)).symm
  | _ => rfl

/-- `RDREG` reads `imm[31:8]` nowhere. -/
theorem toNat_readReg_ofBits (s : State) (imm : Word) :
    (s.readReg (RegNum.ofBits (imm.extractLsb' 0 8))).toNat =
      registerValue s (imm.toNat % 256) := by
  have byte : (imm.extractLsb' 0 8).toNat = imm.toNat % 256 := by
    rw [← BitVec.setWidth_eq_extractLsb' (by decide), BitVec.toNat_setWidth]
  rw [toNat_readReg s (ofBits_wf _), toBits_ofBits, byte]

/-! ### The obligations -/

/-- Settles O19: the check of R86 by the bounds on the pattern. -/
theorem incrementPatternsAccepted : Obligations.IncrementPatternsAccepted := by
  intro s x live
  rw [← isIncrement_iff_toNat]
  exact ⟨exec_cfgInc_of_isIncrement live, exec_cfgInc_of_not_isIncrement live⟩

/-- Settles O22: the word's low byte names a register, and each register reads as the table says. -/
theorem rdregReadsRegisterTable : Obligations.RdregReadsRegisterTable := by
  intro imm
  exact ⟨_, decodeConfig_of_row .rdreg rfl, fun s => ⟨_, rfl, toNat_readReg_ofBits s imm⟩⟩

/-- Settles O17, by its two checks in their order. -/
theorem startLatchesMode : Obligations.StartLatchesMode := by
  refine ⟨fun m => decodeConfig_of_row .start rfl, fun s m live => ⟨?_, ?_, ?_⟩⟩
  · exact fun running => exec_start_of_running live running m
  · exact fun stopped outside => exec_start_of_no_row live stopped (List.getElem?_eq_none outside)
  · intro stopped row present
    exact ⟨(latchMode m row s).engine, rfl, rfl, Engine.started_streaming s.engine,
      exec_start_of_row live stopped present⟩

/-- Settles O18, by the check. -/
theorem cfgIncChecksIncrement : Obligations.CfgIncChecksIncrement := by
  refine ⟨fun x => decodeConfig_of_row .cfgInc rfl, fun s x live => ?_⟩
  split
  · next legal => exact exec_cfgInc_of_isIncrement live (Bool.and_eq_true_iff.2 legal)
  · next illegal => exact exec_cfgInc_of_not_isIncrement live (illegal ∘ Bool.and_eq_true_iff.1)

/-- Settles O20: the decoder reads `imm[0]` alone. -/
theorem cfgWaveSelectsStrategy : Obligations.CfgWaveSelectsStrategy := by
  intro imm
  exact ⟨_, decodeConfig_of_row .cfgWave rfl, ofBit_eq_sawtooth_iff _,
    fun s live => exec_cfgWave_of_live live _⟩

/-- Settles O21, before and after `START`. -/
theorem cfgHalflenBeforeStartOnly : Obligations.CfgHalflenBeforeStartOnly := by
  refine ⟨fun n => decodeConfig_of_row .cfgHalflen rfl, fun s n live => ?_⟩
  split
  · next running => exact exec_cfgHalflen_of_running live running n
  · next stopped => exact exec_cfgHalflen_of_stopped live (eq_false_of_ne_true stopped) n

end Sys2Proof.Machine
end

