-- ==== Sys2Proof/Proofs/Gen.lean ====
section
/-! PROOF. The statements of 41_oscillator.md: the pattern of a wrap (R105, R111), the sawtooth below 1
(R103, R107), and `GEN` as an iteration of the advance (R102, R106, R109). -/

namespace Sys2Proof.Machine

/-! ### Rounding keeps the order of finite values -/

/-- No finite value is nearer the exact one than a finite rounded value. -/
theorem CorrectlyRounded.nearest {r c : F32} {x : Int} {u : Nat} (h : CorrectlyRounded r x u)
    (hr : isFinite r = true) (hc : isFinite c = true) :
    |scaled r * u - x| ≤ |scaled c * u - x| := by
  obtain ⟨hin, hover⟩ := h
  by_cases hlt : |x| < (2 ^ 25 - 1) * 2 ^ 252 * u
  · exact ((hin hlt).2 c hc).1
  · have hinf := hover (not_lt.1 hlt)
    split at hinf <;> subst hinf <;> exact absurd hr (by decide)

theorem CorrectlyRounded.scaled_le {r c : F32} {x : Int} (h : CorrectlyRounded r x 1)
    (hr : isFinite r = true) (hc : isFinite c = true) (hx : x ≤ scaled c) :
    scaled r ≤ scaled c := by
  have hle := h.nearest hr hc
  rw [Nat.cast_one, mul_one, mul_one, abs_of_nonneg (sub_nonneg.2 hx)] at hle
  exact (sub_le_sub_iff_right x).1 ((le_abs_self _).trans hle)

theorem CorrectlyRounded.le_scaled {r c : F32} {x : Int} (h : CorrectlyRounded r x 1)
    (hr : isFinite r = true) (hc : isFinite c = true) (hx : scaled c ≤ x) :
    scaled c ≤ scaled r := by
  have hle := h.nearest hr hc
  rw [Nat.cast_one, mul_one, mul_one, abs_of_nonpos (sub_nonpos.2 hx)] at hle
  exact (sub_le_sub_iff_right x).1 (neg_le_neg_iff.1 ((neg_le_abs _).trans hle))

/-- The difference is the sum with the second operand's sign flipped, in value as in pattern. -/
theorem fsub_correctlyRounded {a b : F32} (ha : isFinite a = true) (hb : isFinite b = true) :
    CorrectlyRounded (fsub a b) (scaled a - scaled b) 1 := by
  have hsum := fadd_correctlyRounded ha (isFinite_fneg hb)
  rwa [fadd_of_isFinite ha (isFinite_fneg hb), fsign_fneg, scaled_fneg, ← sub_eq_add_neg,
    ← fsub_of_isFinite ha hb] at hsum

/-! ### Patterns without a sign bit -/

/-- With `+` as the sign of an exact zero, a non-negative value rounds to a magnitude without sign
bit. -/
theorem roundInt_natCast (n : Nat) : roundInt false n = assemble false (roundMag n 0) := by
  rcases Nat.eq_zero_or_pos n with rfl | hpos
  · decide
  · have hnot : ¬(n : Int) < 0 := by omega
    rw [roundInt, if_neg (by omega), roundScaled, decide_eq_false hnot, Int.natAbs_natCast]

theorem scaled_of_fsign_false {p : F32} (hsign : fsign p = false) : scaled p = scaledMag p := by
  rw [scaled_eq, hsign, if_neg Bool.false_ne_true]

/-- A finite pattern without sign bit is the rounding of its own value. -/
theorem roundInt_scaled {p : F32} (hfin : isFinite p = true) (hsign : fsign p = false) :
    roundInt false (scaled p) = p := by
  have hmag := (isFinite_iff p).1 hfin
  have hround := roundMag_exact (fmag p) 0
  rw [pow_zero, Nat.mul_one, ← scaledMag] at hround
  have hnat := toNat_eq_sign_add_fmag p
  rw [hsign] at hnat
  rw [scaled_of_fsign_false hsign, roundInt_natCast, hround, assemble, Nat.min_eq_left hmag.le,
    ← hnat, BitVec.ofNat_toNat, BitVec.setWidth_eq]

/-- A pattern below that of `1.0` is a phase without sign bit. -/
theorem unitPhase_of_toNat_lt {p : F32} (h : p.toNat < 0x3F800000) :
    unitPhase p = true ∧ fsign p = false := by
  have hnat := toNat_eq_sign_add_fmag p
  have hsign : fsign p = false := by
    by_contra hneg
    rw [eq_true_of_ne_false hneg, if_pos rfl] at hnat
    omega
  rw [hsign, if_neg Bool.false_ne_true] at hnat
  have hval := scaled_of_fsign_false hsign
  have hlt : scaledMag p < 2 ^ 149 := magValue_one ▸ magValue_lt_iff.2 (by omega)
  exact ⟨(unitPhase_iff p).2 ⟨(isFinite_iff p).2 (by omega), by omega, by omega⟩, hsign⟩

/-! ### The pattern of a wrap (R105) -/

/-- The floor of `-0.0` is `-0.0`, so that subtracting it from itself gives `+0.0`. -/
theorem fsign_ffloor {q : F32} (hq : isFinite q = true) (hpos : 0 ≤ scaled q)
    (hsign : fsign q = true) : fsign (ffloor q) = true := by
  have hmag : fmag q = 0 := by
    by_contra h0
    have hlt : magValue 0 < scaledMag q := magValue_lt_iff.2 (Nat.pos_of_ne_zero h0)
    rw [scaled_eq, hsign, if_pos rfl] at hpos
    omega
  have hfloor : ffloor q = q := by simp [ffloor, not_isNaN_of_isFinite hq, hmag]
  rwa [hfloor]

/-- The wrap of a non-negative value is its fractional part, rounded with `+` as the sign of
zero. -/
theorem wrap_eq_roundInt {q : F32} (hq : isFinite q = true) (hpos : 0 ≤ scaled q) :
    wrap q = roundInt false (scaled q % 2 ^ 149) := by
  obtain ⟨hffin, hfloor⟩ := scaled_ffloor hq hpos
  have hdiff : scaled q - scaled (ffloor q) = scaled q % 2 ^ 149 := by rw [hfloor]; omega
  have hzero : (fsign q && !fsign (ffloor q)) = false := by
    cases hsign : fsign q with
    | false => rfl
    | true => rw [fsign_ffloor hq hpos hsign]; rfl
  rw [wrap, fsub_of_isFinite hq hffin, hdiff, hzero]

theorem fsign_wrap {q : F32} (hq : isFinite q = true) (hpos : 0 ≤ scaled q) :
    fsign (wrap q) = false := by
  have hnonneg : 0 ≤ scaled q % 2 ^ 149 := Int.emod_nonneg _ (by decide)
  obtain ⟨n, hn⟩ := Int.eq_ofNat_of_zero_le hnonneg
  rw [wrap_eq_roundInt hq hpos, hn, roundInt_natCast, fsign_assemble]

theorem wrap_of_integral {q : F32} (hq : isFinite q = true) (hpos : 0 ≤ scaled q)
    (hdvd : 2 ^ 149 ∣ scaled q) : wrap q = F32.zero := by
  rw [wrap_eq_roundInt hq hpos, Int.emod_eq_zero_of_dvd hdvd]
  decide

/-- A value in `[0, 1)` is its own fractional part. -/
theorem wrap_of_unitPhase {p : F32} (hp : unitPhase p = true) (hsign : fsign p = false) :
    wrap p = p := by
  obtain ⟨hfin, h0, h1⟩ := (unitPhase_iff p).1 hp
  rw [wrap_eq_roundInt hfin h0, Int.emod_eq_of_lt h0 h1, roundInt_scaled hfin hsign]

/-- R109: the reset increment does not move the phase. -/
theorem advance_zero {p : F32} (hp : unitPhase p = true) (hsign : fsign p = false) :
    advance F32.zero p = p := by
  obtain ⟨hfin, -, -⟩ := (unitPhase_iff p).1 hp
  have hsum : fadd p F32.zero = p := by
    rw [fadd_of_isFinite hfin isFinite_zero, scaled_zero, add_zero, hsign]
    exact roundInt_scaled hfin hsign
  rw [advance, hsum, wrap_of_unitPhase hp hsign]

/-- A finite value of `2^23` or more is integral: its 24 significant bits end at the place of 1 or
above. -/
theorem integral_of_le_scaled {a : F32} (h : 2 ^ 172 ≤ scaled a) : 2 ^ 149 ∣ scaled a := by
  have hmag := scaled_eq_scaledMag (le_trans (by decide) h)
  obtain ⟨e, m, -, hm, -, hval⟩ := magnitude_significand (fmag a)
  have he : 149 ≤ e := by
    by_contra hlt
    have hsmall : m * 2 ^ e < 2 ^ 24 * 2 ^ 148 := Nat.mul_lt_mul_of_lt_of_le hm
      (Nat.pow_le_pow_right (by decide) (by omega)) (Nat.two_pow_pos 148)
    rw [hmag, scaledMag, hval] at h
    omega
  rw [hmag, scaledMag, hval]
  exact_mod_cast (Nat.pow_dvd_pow 2 he).mul_left m

/-! ### The sawtooth below 1 (R103) -/

/-- The largest binary32 value below 1. -/
def predOne : F32 := 0x3F7FFFFF

theorem isFinite_predOne : isFinite predOne = true := by decide +kernel
theorem scaled_predOne : scaled predOne = 2 ^ 149 - 2 ^ 125 := by decide +kernel

theorem scaled_le_predOne {p : F32} (hp : unitPhase p = true) : scaled p ≤ scaled predOne := by
  obtain ⟨-, h0, h1⟩ := (unitPhase_iff p).1 hp
  have hmag := scaled_eq_scaledMag h0
  have hlt : fmag p < 0x3F800000 := magValue_lt_iff.1 (by rw [magValue_one, ← scaledMag]; omega)
  have hpred : fmag predOne = 0x3F7FFFFF ∧ fsign predOne = false := by decide
  have hle : scaledMag p ≤ scaledMag predOne := magValue_le_iff.2 (by omega)
  rw [hmag, scaled_of_fsign_false hpred.2]
  exact_mod_cast hle

/-- `2p - 1` is at most the largest phase, so that rounding does not take it to 1. -/
theorem scaled_saw_lt_one {p : F32} (hp : unitPhase p = true) : scaled (saw p) < 2 ^ 149 := by
  obtain ⟨hfin, h0, h1⟩ := (unitPhase_iff p).1 hp
  obtain ⟨hfin2, hval⟩ := scaled_fmul_two hfin (by rw [abs_of_nonneg h0]; exact h1.le)
  obtain ⟨hsaw, -⟩ := (inUnitRange_iff _).1 (inUnitRange_saw hp)
  have hp1 := scaled_le_predOne hp
  have hle : scaled (saw p) ≤ scaled predOne := by
    refine (fsub_correctlyRounded hfin2 isFinite_one).scaled_le hsaw isFinite_predOne ?_
    rw [scaled_predOne] at hp1 ⊢
    rw [hval, scaled_one]
    omega
  rw [scaled_predOne] at hle
  omega

/-! ### `GEN` (R102, R106) -/

theorem genSamples_eq_map (w : Waveform) (inc : F32) (n : Nat) (p : F32) :
    genSamples w inc n p = (List.iterate (advance inc) p n).map (sampleAt w) := by
  induction n generalizing p with
  | zero => rfl
  | succ n ih => rw [genSamples, ih, List.iterate, List.map_cons]

theorem phaseAfter_eq_iterate (inc : F32) (n : Nat) (p : F32) :
    phaseAfter inc n p = (advance inc)^[n] p := by
  induction n generalizing p with
  | zero => rfl
  | succ n ih => rw [phaseAfter, ih, Function.iterate_succ_apply]

/-- Sample `i` is taken at the phase after `i` advances. -/
theorem genSamples_getElem? (w : Waveform) (inc : F32) {n i : Nat} (h : i < n) (p : F32) :
    (genSamples w inc n p)[i]? = some (sampleAt w ((advance inc)^[i] p)) := by
  rw [genSamples_eq_map, List.getElem?_map, List.getElem?_iterate _ _ _ _ h, Option.map_some]

/-- An increment that does not move the phase gives one sample throughout. -/
theorem genSamples_of_fixed {inc p : F32} (h : advance inc p = p) (w : Waveform) (n : Nat) :
    genSamples w inc n p = List.replicate n (sampleAt w p) := by
  induction n with
  | zero => rfl
  | succ n ih => rw [genSamples, h, ih, List.replicate_succ]

theorem phaseAfter_of_fixed {inc p : F32} (h : advance inc p = p) (n : Nat) :
    phaseAfter inc n p = p := by
  rw [phaseAfter_eq_iterate, Function.iterate_fixed h]

theorem exec_gen_enabled {s : State} (running : s.running = true) (live : s.fault = 0)
    (slot : s.fpc = 1) :
    exec .gen s = .next
      { s with
        blk := genSamples s.wave s.inc s.params.blockSize s.phase
        phase := phaseAfter s.inc s.params.blockSize s.phase
        fpc := 2 } :=
  inSlot_enabled running live slot _

/-- The sequencer's port accepts every word of an `FG` row, whatever its `imm`. -/
theorem decodeSequencer_of_row {op : BitVec 8} {imm : Word} {i : Instr} (row : WordRow imm op i)
    (agent : i.agent = .fg) : decodeSequencer (opWord op imm) = .instr i := by
  refine decodeOn_eq_instr_iff.2 ⟨?_, agent⟩
  rwa [immField_opWord, opField_opWord]

/-! ### The obligations -/

/-- Settles O11, by the advance iterated. -/
theorem genProducesBlock : Obligations.GenProducesBlock := by
  refine ⟨fun imm => decodeSequencer_of_row .gen rfl, rfl, fun s running live slot => ?_⟩
  refine ⟨_, exec_gen_enabled running live slot, genSamples_length _ _ _ _, fun i hi => ?_,
    phaseAfter_eq_iterate _ _ _, rfl⟩
  refine (genSamples_getElem? s.wave s.inc hi s.phase).trans ?_
  cases s.wave <;> rfl

/-- Settles O54: the value is exact, and the sign of a zero result is `+`. -/
theorem wrapIsFractionalPart : Obligations.WrapIsFractionalPart := by
  intro q hq hpos
  obtain ⟨hfin, hval⟩ := scaled_wrap hq hpos
  refine ⟨hfin, hval, fun hneg => ?_, wrap_of_integral hq hpos⟩
  have hsign := fsign_wrap hq hpos
  rw [hneg] at hsign
  exact absurd hsign (by decide)

/-- Settles O55: 1 itself is left out for the sawtooth as the phase is below 1. -/
theorem samplesStayInRange : Obligations.SamplesStayInRange := by
  intro p hp
  have hsaw := inUnitRange_saw hp
  obtain ⟨hfin, -⟩ := (inUnitRange_iff _).1 hsaw
  refine ⟨hsaw, (fgt_iff isFinite_one hfin).2 ?_, inUnitRange_sampleAt .parabolicSine hp⟩
  rw [scaled_one]
  exact scaled_saw_lt_one hp

/-- Settles O56: the phase is a fixed point of the advance by `+0.0`. -/
theorem genWithZeroIncrementIsConstant : Obligations.GenWithZeroIncrementIsConstant := by
  intro s running live slot hinc hphase
  obtain ⟨hp, hsign⟩ := unitPhase_of_toNat_lt hphase
  have hfixed : advance s.inc s.phase = s.phase := by rw [hinc, advance_zero hp hsign]
  rw [exec_gen_enabled running live slot, genSamples_of_fixed hfixed, phaseAfter_of_fixed hfixed]
  cases s.wave <;> rfl

/-- Settles O57: the sum is at least `2^24` too, and so integral. -/
theorem largeIncrementClearsPhase : Obligations.LargeIncrementClearsPhase := by
  intro p inc hp hinc hge
  have hbound : scaled 0x4B800000#32 = 2 ^ 173 := by decide +kernel
  have hboundfin : isFinite 0x4B800000#32 = true := by decide +kernel
  obtain ⟨hpfin, hp0, -⟩ := (unitPhase_iff p).1 hp
  have hle := (fge_iff hinc hboundfin).1 hge
  have hpositive : fgt inc F32.zero = true :=
    (fgt_iff hinc isFinite_zero).2 (by rw [scaled_zero]; omega)
  obtain ⟨hfin, hpos⟩ := fadd_phase_inc hp (.inr (by rw [isIncrement, hinc, hpositive]; rfl))
  have hsum := (fadd_correctlyRounded hpfin hinc).le_scaled hfin hboundfin (by omega)
  exact wrap_of_integral hfin hpos (integral_of_le_scaled (by omega))

end Sys2Proof.Machine
end

