-- ==== Sys2Proof/Proofs/Packer.lean ====
section
/-! PROOF. The statements of 42_packer.md: the quantizers as truncations of an exact product (R125,
R126, R128, R129), and one step of `PACK` with its length check (R122 to R124, R127). -/

namespace Sys2Proof.Machine

/-! ### Truncation toward zero -/

/-- The magnitude of a truncated quotient is the quotient of the magnitudes, rounded down. -/
theorem abs_tdiv_eq_ediv (x : Int) {u : Int} (hu : 0 < u) : |x.tdiv u| = |x| / u := by
  rcases le_total 0 x with hx | hx
  · rw [abs_of_nonneg hx, abs_of_nonneg (Int.tdiv_nonneg hx hu.le), Int.tdiv_eq_ediv_of_nonneg hx]
  · have hneg : 0 ≤ -x := neg_nonneg.2 hx
    rw [← abs_neg, ← Int.neg_tdiv, ← abs_neg x, abs_of_nonneg hneg,
      abs_of_nonneg (Int.tdiv_nonneg hneg hu.le), Int.tdiv_eq_ediv_of_nonneg hneg]

/-- Truncation never changes a sign. -/
theorem tdiv_mul_nonneg (x : Int) {u : Int} (hu : 0 ≤ u) : 0 ≤ x.tdiv u * x := by
  rcases le_total 0 x with hx | hx
  · exact mul_nonneg (Int.tdiv_nonneg hx hu) hx
  · have hneg : 0 ≤ -x := neg_nonneg.2 hx
    rw [← neg_mul_neg, ← Int.neg_tdiv]
    exact mul_nonneg (Int.tdiv_nonneg hneg hu) hneg

/-- The integer `z` is the exact product of the sample `s` and `f`, cut toward zero. -/
structure IsTruncatedProduct (s : F32) (f : Nat) (z : Int) : Prop where
  abs_le : |z| * 2 ^ 149 ≤ |scaled s * f|
  lt_abs_add_one : |scaled s * f| < (|z| + 1) * 2 ^ 149
  same_sign : 0 ≤ z * scaled s

theorem isTruncatedProduct_truncScaled (s : F32) {f : Nat} (hf : 0 < f) :
    IsTruncatedProduct s f (truncScaled s f) := by
  have habs : |truncScaled s f| = |scaled s * f| / 2 ^ 149 := abs_tdiv_eq_ediv _ (by decide)
  refine ⟨?_, ?_, ?_⟩
  · rw [habs]
    exact Int.ediv_mul_le _ (by decide)
  · rw [habs]
    exact Int.lt_ediv_add_one_mul_self _ (by decide)
  · have hsign : 0 ≤ truncScaled s f * scaled s * f := by
      rw [mul_assoc]
      exact tdiv_mul_nonneg _ (by decide)
    exact nonneg_of_mul_nonneg_left hsign (by exact_mod_cast hf)

/-- R128: a sample within `[-1, 1]` does not leave the range of its factor. -/
theorem abs_truncScaled_le {s : F32} (hs : inUnitRange s = true) {f : Nat} (hf : 0 < f) :
    |truncScaled s f| ≤ f := by
  obtain ⟨-, hunit⟩ := (inUnitRange_iff s).1 hs
  have hle := (isTruncatedProduct_truncScaled s hf).abs_le
  rw [abs_mul, Nat.abs_cast] at hle
  have hprod : |scaled s| * f ≤ 2 ^ 149 * f := mul_le_mul_of_nonneg_right hunit (Nat.cast_nonneg f)
  rw [mul_comm (2 ^ 149)] at hprod
  exact le_of_mul_le_mul_right (hle.trans hprod) (by decide)

/-! ### The quantizers on finite samples (R125, R126, R129) -/

theorem q16_of_isFinite {s : F32} (hs : isFinite s = true) :
    q16 s = BitVec.ofInt 16 (truncScaled s 32767) := if_pos hs

theorem q32_of_isFinite {s : F32} (hs : isFinite s = true) :
    q32 s = BitVec.ofInt 32 (truncScaled s 2147483647) := if_pos hs

/-- A word made of an integer is that integer modulo the word size. -/
theorem toNat_ofInt_eq_emod (w : Nat) (z : Int) : ((BitVec.ofInt w z).toNat : Int) = z % 2 ^ w := by
  rw [BitVec.toNat_ofInt, Int.toNat_of_nonneg (Int.emod_nonneg _ (by positivity)), Nat.cast_pow,
    Nat.cast_ofNat]

/-- A sample within `[-1, 1]` has a truncated product that a signed word wide enough for the factor
holds. -/
theorem toInt_ofInt_truncScaled {s : F32} (hs : inUnitRange s = true) {w f : Nat} (hw : 0 < w)
    (hf : 0 < f) (hfit : f < 2 ^ (w - 1)) :
    (BitVec.ofInt w (truncScaled s f)).toInt = truncScaled s f := by
  obtain ⟨hlo, hhi⟩ := abs_le.1 (abs_truncScaled_le hs hf)
  have hfit : (f : Int) < 2 ^ (w - 1) := by exact_mod_cast hfit
  exact BitVec.toInt_ofInt_eq_self hw ((neg_le_neg hfit.le).trans hlo) (hhi.trans_lt hfit)

theorem toInt_q16 {s : F32} (hs : inUnitRange s = true) : (q16 s).toInt = truncScaled s 32767 := by
  obtain ⟨hfin, -⟩ := (inUnitRange_iff s).1 hs
  rw [q16_of_isFinite hfin, toInt_ofInt_truncScaled hs (by decide) (by decide) (by decide)]

theorem toInt_q32 {s : F32} (hs : inUnitRange s = true) :
    (q32 s).toInt = truncScaled s 2147483647 := by
  obtain ⟨hfin, -⟩ := (inUnitRange_iff s).1 hs
  rw [q32_of_isFinite hfin, toInt_ofInt_truncScaled hs (by decide) (by decide) (by decide)]

/-! ### One step of `PACK` -/

section
variable {s : State} (running : s.running = true) (live : s.fault = 0) (slot : s.fpc = 2)
include running live slot

theorem exec_pack_of_badLength (first : s.pidx = 0) (wrong : s.halflen.toNat ≠ s.halfWords) :
    exec .pack s = raise .badLength s :=
  (inSlot_enabled running live slot _).trans (if_pos ⟨first, wrong⟩)

theorem exec_pack_of_checked (checked : s.pidx = 0 → s.halflen.toNat = s.halfWords) :
    exec .pack s = packStore s :=
  (inSlot_enabled running live slot _).trans (if_neg fun h => h.2 (checked h.1))

end

theorem packStore_inside {s : State} {w : RawWord} (inBlock : s.pidx.toNat < s.halfWords)
    (word : packWord s.blk s.depth32 s.pidx.toNat = some w)
    (inBuf : s.packAddr < bufWords s.params) :
    packStore s = .next (packAdvance { s with mem := Memory.writeWord s.mem s.packAddr w }) := by
  simp only [packStore, if_neg (not_le.2 inBlock), word, if_pos inBuf]

/-- R124: where `pidx` and `fpc` go at the end of a step in the slot of `PACK`. -/
theorem packAdvance_eq {s : State} (slot : s.fpc = 2) :
    packAdvance s =
      { s with
        pidx := if s.pidx.toNat + 1 = s.halfWords then 0 else s.pidx + 1
        fpc := if s.pidx.toNat + 1 = s.halfWords then 3 else 2 } := by
  rcases packAdvance_cases s with ⟨last, h⟩ | ⟨more, h⟩
  · rw [h, if_pos last, if_pos last]
  · rw [h, if_neg more, if_neg more, ← slot]

/-- R127: in a block of four words to a sample, the high halves stand at positions 0 and 2 of each
frame. -/
theorem frameWord_mod (depth32 : Bool) (x : F32) (n : Nat) :
    frameWord depth32 x (n % wordsPerSample depth32) =
      if depth32 then
        (if n % 4 = 0 ∨ n % 4 = 2 then (q32 x).extractLsb' 16 16 else (q32 x).extractLsb' 0 16)
      else q16 x := by
  cases depth32 with
  | false => rfl
  | true =>
    have hparity : n % 4 % 2 = 0 ↔ n % 4 = 0 ∨ n % 4 = 2 := by omega
    simp only [frameWord, wordsPerSample, if_true, hparity, msbWord, lsbWord]

/-! ### The obligations -/

/-- Settles O58: in range the word holds the truncated product itself. -/
theorem quantizer16TruncatesTowardZero : Obligations.Quantizer16TruncatesTowardZero := by
  intro x hx
  obtain ⟨hle, hlt, hsign⟩ := isTruncatedProduct_truncScaled x (f := 32767) (by decide)
  rw [toInt_q16 hx]
  exact ⟨abs_truncScaled_le hx (by decide), hle, hlt, hsign⟩

/-- Settles O59, as for 16 bits. -/
theorem quantizer32TruncatesTowardZero : Obligations.Quantizer32TruncatesTowardZero := by
  intro x hx
  obtain ⟨hle, hlt, hsign⟩ := isTruncatedProduct_truncScaled x (f := 2147483647) (by decide)
  rw [toInt_q32 hx]
  exact ⟨abs_truncScaled_le hx (by decide), hle, hlt, hsign⟩

/-- Settles O60: out of range too, the word is made of the truncated product. -/
theorem quantizersWrapWithoutClamp : Obligations.QuantizersWrapWithoutClamp := by
  intro x hx
  obtain ⟨hle16, hlt16, hsign16⟩ := isTruncatedProduct_truncScaled x (f := 32767) (by decide)
  obtain ⟨hle32, hlt32, hsign32⟩ := isTruncatedProduct_truncScaled x (f := 2147483647) (by decide)
  rw [q16_of_isFinite hx, q32_of_isFinite hx]
  exact ⟨_, _, ⟨hle16, hlt16, hsign16, toNat_ofInt_eq_emod 16 _⟩,
    hle32, hlt32, hsign32, toNat_ofInt_eq_emod 32 _⟩

/-- Settles O13: the check is the first thing an enabled `PACK` does. -/
theorem packChecksLength : Obligations.PackChecksLength :=
  fun _ running live slot first wrong => exec_pack_of_badLength running live slot first wrong

/-- Settles O12: the checked step is the write of one word followed by the advance of the index. -/
theorem packWritesOneWord : Obligations.PackWritesOneWord := by
  refine ⟨fun imm => decodeSequencer_of_row .pack rfl, rfl, ?_⟩
  rintro s K rfl running live slot wf length inBlock checked inBuf
  refine ⟨rfl, ?_⟩
  have inSamples : s.pidx.toNat / wordsPerSample s.depth32 < s.blk.length := by
    rw [length]
    exact Nat.div_lt_of_lt_mul inBlock
  have hstep := (exec_pack_of_checked running live slot checked).trans
    (packStore_inside inBlock (packWord_eq inSamples) inBuf)
  refine ⟨_, _, hstep, List.getElem?_eq_getElem inSamples, ?_, fun a hlow hhigh => ?_, ?_⟩
  · rw [packAdvance_mem, readWord_writeWord _ _ _ _ wf, if_pos rfl, frameWord_mod]
  · rw [packAdvance_mem, readByte_writeWord _ _ _ _ wf, if_neg hhigh, if_neg hlow]
  · rw [packAdvance_mem]
    exact packAdvance_eq slot

end Sys2Proof.Machine
end

