-- ==== Sys2Proof/Proofs/Handoff.lean ====
section
/-! PROOF. The Buffer Hand-off (43_handoff.md): what a turn of `FG` performs and when it performs
nothing (R144), and each operation on `req` as an equation (R141 to R147). -/

namespace Sys2Proof.Machine

/-! ### A turn of `FG` (R144) -/

/-- A turn of `FG` is the operation that `SEQ_ROM` names. -/
theorem step_fg {s : State} {i : Instr} (turn : nextStimulus s = .fg)
    (h : decodeSequencer (seqRom s.fpc) = .instr i) : step s = exec i (beginTransition s) := by
  rw [step_eq, turn, perform, fgTurn, beginTransition_fpc, h]

theorem inSlot_disabled {slot : BitVec 2} {s : State} (act : Result)
    (h : ¬(s.running = true ∧ s.fault = 0 ∧ s.fpc = slot)) : inSlot slot s act = .next s :=
  if_neg h

/-- An operation of `FG` acts only in a running, live block and at the slot that holds it. -/
theorem exec_fg_disabled {i : Instr} {s : State} (agent : i.agent = .fg)
    (h : ¬(s.running = true ∧ s.fault = 0 ∧ decodeSequencer (seqRom s.fpc) = .instr i)) :
    exec i s = .next s := by
  cases i with
  | poll => exact inSlot_disabled _ fun ⟨running, live, slot⟩ => h ⟨running, live, slot ▸ rfl⟩
  | gen => exact inSlot_disabled _ fun ⟨running, live, slot⟩ => h ⟨running, live, slot ▸ rfl⟩
  | pack => exact inSlot_disabled _ fun ⟨running, live, slot⟩ => h ⟨running, live, slot ▸ rfl⟩
  | clr => exact inSlot_disabled _ fun ⟨running, live, slot⟩ => h ⟨running, live, slot ▸ rfl⟩
  | _ => cases agent

theorem fgTurn_disabled {s : State} (h : s.running = false ∨ s.fault ≠ 0) :
    fgTurn s = .next s := by
  unfold fgTurn
  split
  · next i decoded =>
    obtain ⟨-, agent⟩ := decodeOn_eq_instr_iff.1 decoded
    refine exec_fg_disabled agent fun ⟨running, live, _⟩ => ?_
    rcases h with stopped | halted
    · exact absurd (stopped.symm.trans running) nofun
    · exact halted live
  · rfl

/-! ### The operations in their slots and in a live block -/

section
variable {s : State}

/-- R141 and R142 count an unconsumed request, up to the counter's last value (00_scope.md R8). -/
theorem overwriteCount_eq (s : State) :
    overwriteCount s =
      if s.req ≠ .idle ∧ s.ovrCnt.toNat < 2 ^ 32 - 1 then s.ovrCnt + 1 else s.ovrCnt := by
  unfold overwriteCount satinc
  by_cases idle : s.req = .idle
  · rw [if_pos idle, if_neg fun h => h.1 idle]
  · rw [if_neg idle]
    simp only [ne_eq, idle, not_false_eq_true, true_and]

theorem exec_evtHalf_of_live (live : s.fault = 0) :
    exec .evtHalf s = .next (notify .pendingFirstHalf s) := unlessHalted_live live _

theorem exec_evtFull_of_live (live : s.fault = 0) :
    exec .evtFull s = .next (notify .pendingSecondHalf s) := unlessHalted_live live _

theorem exec_evtErr_of_live (live : s.fault = 0) :
    exec .evtErr s = .next { s with errCnt := satinc s.errCnt } := unlessHalted_live live _

theorem exec_poll_enabled (running : s.running = true) (live : s.fault = 0) (slot : s.fpc = 0) :
    exec .poll s = .next (if s.req = .idle then s else { s with cap := s.req, fpc := 1 }) :=
  (inSlot_enabled running live slot _).trans (apply_ite Host.Outcome.next _ _ _).symm

theorem exec_clr_enabled (running : s.running = true) (live : s.fault = 0) (slot : s.fpc = 3) :
    exec .clr s = .next { s with req := .idle, fpc := 0 } :=
  inSlot_enabled running live slot _

/-- R147: "No other operation writes `req`". -/
theorem Performs.req_eq {i : Instr} {t : State} (h : Performs s i t) (half : i ≠ .evtHalf)
    (full : i ≠ .evtFull) (clr : i ≠ .clr) : t.req = s.req := by
  cases h with
  | requestedFirst => exact absurd rfl half
  | requestedSecond => exact absurd rfl full
  | cleared => exact absurd rfl clr
  | packed => exact packAdvance_req _
  | _ => rfl

end

/-! ### The obligations -/

/-- Settles O4: the notification in a live block. -/
theorem evtHalfRequestsFirstHalf : Obligations.EvtHalfRequestsFirstHalf :=
  ⟨rfl, fun s live => by rw [exec_evtHalf_of_live live, notify, overwriteCount_eq]⟩

/-- Settles O5, as for the first half. -/
theorem evtFullRequestsSecondHalf : Obligations.EvtFullRequestsSecondHalf :=
  ⟨rfl, fun s live => by rw [exec_evtFull_of_live live, notify, overwriteCount_eq]⟩

/-- Settles O6: the saturating count and nothing else. -/
theorem evtErrOnlyCounts : Obligations.EvtErrOnlyCounts :=
  ⟨rfl, fun _ live => exec_evtErr_of_live live⟩

/-- Settles O9, by the row of the word and the enabled operation. -/
theorem pollCapturesPendingRequest : Obligations.PollCapturesPendingRequest :=
  ⟨fun _ => decodeSequencer_of_row .poll rfl, rfl, fun _ => exec_poll_enabled⟩

/-- Settles O10, by the row of the word and the enabled operation. -/
theorem clrWritesIdle : Obligations.ClrWritesIdle :=
  ⟨fun _ => decodeSequencer_of_row .clr rfl, rfl, fun _ => exec_clr_enabled⟩

/-- Settles O15: what `SEQ_ROM` names is an operation of `FG`, and each of these asks for its slot. -/
theorem sequencerNeedsRunningAndSlot : Obligations.SequencerNeedsRunningAndSlot :=
  ⟨fun _ => fgTurn_disabled,
    fun _ _ agent other => exec_fg_disabled agent fun ⟨_, _, named⟩ => other named⟩

/-- Settles O29, slot by slot. -/
theorem stepRunsSequencerSlot : Obligations.StepRunsSequencerSlot := by
  intro s scheduled
  have turn : nextStimulus s = .fg := by
    rcases scheduled with empty | ⟨xs, fg⟩
    · exact nextStimulus_nil empty
    · exact nextStimulus_cons fg
  refine ⟨fun slot => ?_, fun slot => ?_, fun slot => ?_, fun slot => ?_⟩ <;>
    exact step_fg turn (slot ▸ rfl)

/-- Settles O7: the three operations that write `req` by their equations, the others by what an
operation can do. -/
theorem requestTransitionTable : Obligations.RequestTransitionTable := by
  intro i s t live h
  refine ⟨?_, ?_, ?_, ?_, (performs_of_exec h).req_eq⟩
  · rintro rfl
    rw [← next_inj.1 ((exec_evtHalf_of_live live).symm.trans h), notify_req]
  · rintro rfl
    rw [← next_inj.1 ((exec_evtFull_of_live live).symm.trans h), notify_req]
  · rintro rfl running slot
    rw [← next_inj.1 ((exec_clr_enabled running live slot).symm.trans h)]
  · rintro rfl outside
    have ignored : exec .clr s = .next s :=
      inSlot_disabled _ fun ⟨running, _, slot⟩ => outside ⟨running, slot⟩
    rw [next_inj.1 (ignored.symm.trans h)]

end Sys2Proof.Machine
end

