-- ==== Sys2Proof/Proofs/PollPass.lean ====
section
/-! PROOF. The poll pass (43_handoff.md R144, R149, R150): the turns of `FG` from each slot to the end
of the pass, one equation per slot, and the half that the pass writes. -/

namespace Sys2Proof.Machine

/-! ### Consecutive words of `BUF` -/

/-- The words `ws` written one after the other from word `a` on. -/
def writeWords (m : Memory) (a : Nat) : List RawWord → Memory
  | [] => m
  | w :: ws => writeWords (Memory.writeWord m a w) (a + 1) ws

theorem readWord_writeWords {m : Memory} (hm : Memory.wf m = true) (a : Nat) (ws : List RawWord)
    (b : Nat) :
    Memory.readWord (writeWords m a ws) b =
      if a ≤ b ∧ b < a + ws.length then ws[b - a]? else Memory.readWord m b := by
  induction ws generalizing m a with
  | nil => rw [writeWords, if_neg (by simp)]
  | cons w ws ih =>
    rw [writeWords, ih (wf_writeWord _ _ _ hm), readWord_writeWord _ _ _ _ hm, List.length_cons]
    rcases lt_trichotomy b a with below | rfl | above
    · rw [if_neg (by omega), if_neg (by omega), if_neg (by omega)]
    · rw [if_neg (by omega), if_pos rfl, if_pos (by omega), Nat.sub_self, List.getElem?_cons_zero]
    · obtain ⟨k, rfl⟩ := Nat.exists_eq_add_of_lt above
      have hin : a + 1 ≤ a + k + 1 ∧ a + k + 1 < a + 1 + ws.length ↔
          a ≤ a + k + 1 ∧ a + k + 1 < a + (ws.length + 1) := by omega
      have hnext : a + k + 1 - a = a + k + 1 - (a + 1) + 1 := by omega
      simp only [hin, if_neg (Nat.ne_of_gt above), hnext, List.getElem?_cons_succ]

theorem readByte_writeWords {m : Memory} (hm : Memory.wf m = true) {a : Nat} (ws : List RawWord)
    {b : Nat} (outside : b < 2 * a ∨ 2 * (a + ws.length) ≤ b) :
    Memory.readByte (writeWords m a ws) b = Memory.readByte m b := by
  induction ws generalizing m a with
  | nil => rfl
  | cons w ws ih =>
    rw [List.length_cons] at outside
    have hhigh : b ≠ highByteAddr a := by unfold highByteAddr; omega
    have hlow : b ≠ lowByteAddr a := by unfold lowByteAddr; omega
    rw [writeWords, ih (wf_writeWord _ _ _ hm) (by omega), readByte_writeWord _ _ _ _ hm,
      if_neg hhigh, if_neg hlow]

/-! ### Turns of `FG` in a row -/

/-- The next `n` transitions are turns of `FG`, scheduled or with nothing scheduled (log 2). -/
def OnlyFgNext (n : Nat) (s : State) : Prop := ∀ x ∈ s.schedule.take n, x = .fg

theorem onlyFgNext_of_nil {s : State} (h : s.schedule = []) (n : Nat) : OnlyFgNext n s := by
  simp [OnlyFgNext, h]

theorem onlyFgNext_of_replicate {s : State} {n : Nat} {xs : List Stimulus}
    (h : s.schedule = List.replicate n .fg ++ xs) : OnlyFgNext n s := by
  rw [OnlyFgNext, h, List.take_left' List.length_replicate]
  exact fun _ hx => List.eq_of_mem_replicate hx

theorem nextStimulus_of_onlyFgNext {s : State} {n : Nat} (h : OnlyFgNext (n + 1) s) :
    nextStimulus s = .fg := by
  cases hs : s.schedule with
  | nil => exact nextStimulus_nil hs
  | cons x xs => exact (nextStimulus_cons hs).trans (h x (by simp [hs]))

theorem onlyFgNext_tail {s t : State} {n : Nat} (h : OnlyFgNext (n + 1) s)
    (ht : t.schedule = s.schedule.tail) : OnlyFgNext n t := by
  intro x hx
  rw [ht] at hx
  refine h x ?_
  cases hs : s.schedule with
  | nil => simp [hs] at hx
  | cons y ys => rw [hs] at hx; exact List.mem_cons_of_mem y hx

/-! ### What each slot makes of the state -/

/-- A taken `POLL` (R145). -/
def captured (s : State) : State := { s with cap := s.req, fpc := 1 }

/-- `GEN` (41_oscillator.md R102). -/
def generated (s : State) : State :=
  { s with
    blk := genSamples s.wave s.inc s.params.blockSize s.phase
    phase := phaseAfter s.inc s.params.blockSize s.phase
    fpc := 2 }

/-- `BUF` once `PACK` has written the words from index `pidx` on (42_packer.md R124). -/
def packedMem (s : State) : Memory :=
  writeWords s.mem s.packAddr ((packWords s.depth32 s.blk).drop s.pidx.toNat)

/-- All the remaining steps of `PACK`. -/
def packed (s : State) : State := { s with mem := packedMem s, pidx := 0, fpc := 3 }

/-- One step of `PACK` before its last (42_packer.md R124). -/
def packedOne (w : RawWord) (s : State) : State :=
  { s with mem := Memory.writeWord s.mem s.packAddr w, pidx := s.pidx + 1 }

/-- `CLR` (R146) as the last of `n` turns. -/
def passEnd (n : Nat) (s : State) : State :=
  { s with req := .idle, fpc := 0, schedule := s.schedule.drop n, rdata := none }

theorem passEnd_beginTransition (n : Nat) (s : State) :
    passEnd n (beginTransition s) = passEnd (n + 1) s := by
  simp [passEnd, beginTransition]

/-- A state in which a pass goes on to its end when `FG` alone moves. -/
structure PassReady (s : State) : Prop where
  control : ControlInv s
  running : s.running = true
  live : s.fault = 0
  length : s.halflen.toNat = s.halfWords

/-- Any step keeps a pass ready that keeps `running`, `fault` and the length. -/
theorem PassReady.of_step {s t : State} (h : PassReady s) (move : step s = .next t)
    (running : t.running = s.running) (live : t.fault = s.fault)
    (length : t.halflen = s.halflen) (words : t.halfWords = s.halfWords) : PassReady t where
  control := stepKeepsControlInvariant s t h.control move
  running := running.trans h.running
  live := live.trans h.live
  length := by rw [length, words, h.length]

theorem passReady_captured {s : State} (h : PassReady s) (slot : s.fpc = 0)
    (pending : s.req ≠ .idle) : PassReady (captured s) :=
  { h with control := controlInv_poll h.control h.running slot pending }

theorem passReady_generated {s : State} (h : PassReady s) (slot : s.fpc = 1) :
    PassReady (generated s) :=
  { h with control := controlInv_gen h.control slot }

/-! ### The memory of a packed half -/

section
variable {s : State}

theorem packedMem_eq_writeWord {w : RawWord}
    (word : packWord s.blk s.depth32 s.pidx.toNat = some w) :
    packedMem s = writeWords (Memory.writeWord s.mem s.packAddr w) (s.packAddr + 1)
      ((packWords s.depth32 s.blk).drop (s.pidx.toNat + 1)) := by
  rw [← packWords_getElem?] at word
  obtain ⟨inList, rfl⟩ := List.getElem?_eq_some_iff.1 word
  rw [packedMem, List.drop_eq_getElem_cons inList, writeWords]

/-- After one word the words still to be written are the rest of what was to be written before. -/
theorem packed_packedOne {w : RawWord} (word : packWord s.blk s.depth32 s.pidx.toNat = some w)
    (next : (s.pidx + 1).toNat = s.pidx.toNat + 1) : packed (packedOne w s) = packed s := by
  have address : (packedOne w s).packAddr = s.packAddr + 1 := congrArg (s.packBase + ·) next
  have index : (packedOne w s).pidx.toNat = s.pidx.toNat + 1 := next
  have hmem : packedMem (packedOne w s) = packedMem s := by
    rw [packedMem_eq_writeWord word, packedMem, address, index]
    rfl
  rw [packed, hmem]
  rfl

theorem PassReady.length_packWords (h : PassReady s) (slot : s.fpc = 2) :
    (packWords s.depth32 s.blk).length = s.halfWords := by
  rw [packWords_length, h.control.blk_length slot, State.halfWords]

/-- Packing touches no byte outside the half that `cap` names. -/
theorem readByte_packedMem_outside (h : PassReady s) (slot : s.fpc = 2) {a : Nat}
    (outside : a < 2 * s.packBase ∨ 2 * (s.packBase + s.halfWords) ≤ a) :
    Memory.readByte (packedMem s) a = Memory.readByte s.mem a := by
  refine readByte_writeWords h.control.mem_wf _ ?_
  have := h.control.pidx_lt
  rw [List.length_drop, h.length_packWords slot, State.packAddr]
  omega

/-- Packed from the start, the half holds `pack_words` of the block. -/
theorem readWord_packedMem (h : PassReady s) (slot : s.fpc = 2) (first : s.pidx = 0) {n : Nat}
    (inHalf : n < s.halfWords) :
    Memory.readWord (packedMem s) (s.packBase + n) = packWord s.blk s.depth32 n := by
  have base : s.packAddr = s.packBase := by rw [State.packAddr, first]; rfl
  have whole : (packWords s.depth32 s.blk).drop s.pidx.toNat = packWords s.depth32 s.blk := by
    rw [first]; rfl
  rw [packedMem, readWord_writeWords h.control.mem_wf, base, whole, h.length_packWords slot,
    if_pos (by omega), Nat.add_sub_cancel_left, packWords_getElem?]

/-! ### One turn in each slot -/

theorem step_poll (turn : nextStimulus s = .fg) (running : s.running = true) (live : s.fault = 0)
    (slot : s.fpc = 0) (pending : s.req ≠ .idle) :
    step s = .next (beginTransition (captured s)) :=
  (step_fg (i := .poll) turn (slot ▸ rfl)).trans
    ((exec_poll_enabled (s := beginTransition s) running live slot).trans
      (congrArg _ (if_neg pending)))

theorem step_gen (turn : nextStimulus s = .fg) (running : s.running = true) (live : s.fault = 0)
    (slot : s.fpc = 1) : step s = .next (beginTransition (generated s)) :=
  (step_fg (i := .gen) turn (slot ▸ rfl)).trans
    (exec_gen_enabled (s := beginTransition s) running live slot)

theorem step_clr (turn : nextStimulus s = .fg) (running : s.running = true) (live : s.fault = 0)
    (slot : s.fpc = 3) : step s = .next (passEnd 1 s) := by
  rw [step_fg (i := .clr) turn (slot ▸ rfl),
    exec_clr_enabled (s := beginTransition s) running live slot, passEnd, List.drop_one]
  rfl

/-- One word of a ready pass is written. -/
theorem step_pack (turn : nextStimulus s = .fg) (h : PassReady s) (slot : s.fpc = 2) :
    ∃ w, packWord s.blk s.depth32 s.pidx.toNat = some w ∧
      step s = .next
        (packAdvance { beginTransition s with mem := Memory.writeWord s.mem s.packAddr w }) := by
  obtain ⟨w, word⟩ := h.control.exists_packWord slot
  refine ⟨w, word, ?_⟩
  calc step s
      = exec .pack (beginTransition s) := step_fg (i := .pack) turn (slot ▸ rfl)
    _ = packStore (beginTransition s) :=
        exec_pack_of_checked (s := beginTransition s) h.running h.live slot fun _ => h.length
    _ = _ := packStore_inside (s := beginTransition s) h.control.pidx_lt word
        (packAddr_lt_bufWords h.length h.control.pidx_lt)

theorem step_pack_last (turn : nextStimulus s = .fg) (h : PassReady s) (slot : s.fpc = 2)
    (last : s.pidx.toNat + 1 = s.halfWords) : step s = .next (beginTransition (packed s)) := by
  obtain ⟨w, word, e⟩ := step_pack turn h slot
  have hmem : packedMem s = Memory.writeWord s.mem s.packAddr w := by
    rw [packedMem_eq_writeWord word, last, ← h.length_packWords slot, List.drop_length, writeWords]
  rw [packed, hmem]
  exact e.trans (congrArg _ (packAdvance_last last))

theorem step_pack_more (turn : nextStimulus s = .fg) (h : PassReady s) (slot : s.fpc = 2)
    (more : s.pidx.toNat + 1 < s.halfWords) :
    ∃ w, step s = .next (beginTransition (packedOne w s)) ∧
      (s.pidx + 1).toNat = s.pidx.toNat + 1 ∧ packed (packedOne w s) = packed s := by
  obtain ⟨w, word, e⟩ := step_pack turn h slot
  have bound := s.halflen.isLt
  have length := h.length
  have next : (s.pidx + 1).toNat = s.pidx.toNat + 1 := by
    rw [BitVec.toNat_add_of_lt (by simp; omega)]; rfl
  exact ⟨w, e.trans (congrArg _ (packAdvance_more (ne_of_lt more))), next,
    packed_packedOne word next⟩

/-! ### The rest of a pass from each slot -/

theorem run_from_clr (turns : OnlyFgNext 1 s) (running : s.running = true) (live : s.fault = 0)
    (slot : s.fpc = 3) : Host.Core.run Sys2Proof.core 1 s = .next (passEnd 1 s) :=
  run_next 0 (step_clr (nextStimulus_of_onlyFgNext turns) running live slot)

end

/-- With `n + 1` words left, the turns are these and the `CLR`. -/
theorem run_from_pack {s : State} {n : Nat} (turns : OnlyFgNext (n + 2) s) (h : PassReady s)
    (slot : s.fpc = 2) (left : s.pidx.toNat + (n + 1) = s.halfWords) :
    Host.Core.run Sys2Proof.core (n + 2) s = .next (passEnd (n + 2) (packed s)) := by
  induction n generalizing s with
  | zero =>
    have turn := nextStimulus_of_onlyFgNext turns
    calc Host.Core.run Sys2Proof.core 2 s
        = Host.Core.run Sys2Proof.core 1 (beginTransition (packed s)) :=
          run_next 1 (step_pack_last turn h slot left)
      _ = .next (passEnd 1 (beginTransition (packed s))) :=
          run_from_clr (onlyFgNext_tail turns rfl) h.running h.live rfl
      _ = .next (passEnd 2 (packed s)) := by rw [passEnd_beginTransition]
  | succ n ih =>
    have turn := nextStimulus_of_onlyFgNext turns
    obtain ⟨w, move, next, same⟩ := step_pack_more turn h slot (by omega)
    have rest : OnlyFgNext (n + 2) (beginTransition (packedOne w s)) := onlyFgNext_tail turns rfl
    have left' : (s.pidx + 1).toNat + (n + 1) = s.halfWords := by omega
    calc Host.Core.run Sys2Proof.core (n + 3) s
        = Host.Core.run Sys2Proof.core (n + 2) (beginTransition (packedOne w s)) :=
          run_next _ move
      _ = .next (passEnd (n + 2) (beginTransition (packed (packedOne w s)))) :=
          ih rest (h.of_step move rfl rfl rfl rfl) slot left'
      _ = .next (passEnd (n + 3) (packed s)) := by rw [passEnd_beginTransition, same]

section
variable {s : State} (h : PassReady s)
include h

theorem run_from_gen (turns : OnlyFgNext (s.halfWords + 2) s) (slot : s.fpc = 1) :
    Host.Core.run Sys2Proof.core (s.halfWords + 2) s =
      .next (passEnd (s.halfWords + 2) (packed (generated s))) := by
  have move := step_gen (nextStimulus_of_onlyFgNext turns) h.running h.live slot
  obtain ⟨n, words⟩ := Nat.exists_eq_succ_of_ne_zero (halfWords_pos h.control.params_ok).ne'
  have first : s.pidx = 0 := h.control.pidx_zero (by rw [slot]; decide)
  have left : s.pidx.toNat + (n + 1) = s.halfWords := by rw [first, words]; exact Nat.zero_add _
  rw [words] at turns ⊢
  rw [run_next _ move,
    run_from_pack (onlyFgNext_tail turns rfl) (h.of_step move rfl rfl rfl rfl) rfl left]
  exact congrArg _ (passEnd_beginTransition _ (packed (generated s)))

theorem run_from_poll (turns : OnlyFgNext (s.halfWords + 3) s) (slot : s.fpc = 0)
    (pending : s.req ≠ .idle) :
    Host.Core.run Sys2Proof.core (s.halfWords + 3) s =
      .next (passEnd (s.halfWords + 3) (packed (generated (captured s)))) := by
  have move := step_poll (nextStimulus_of_onlyFgNext turns) h.running h.live slot pending
  have rest : OnlyFgNext (s.halfWords + 2) (beginTransition (captured s)) :=
    onlyFgNext_tail turns rfl
  rw [run_next _ move]
  refine (run_from_gen (h.of_step move rfl rfl rfl rfl) rest rfl).trans ?_
  exact congrArg _ (passEnd_beginTransition _ (packed (generated (captured s))))

end

/-! ### A notification during the pass (R149) -/

/-- The state after a completion code (R141, R142), `xs` being scheduled after it. -/
def notified (ev : EventCode) (xs : List Stimulus) (s : State) : State :=
  notify (if ev = 0b01 then .pendingFirstHalf else .pendingSecondHalf)
    { s with schedule := xs, rdata := none, engine := s.engine.afterEvent ev }

theorem step_completion {s : State} {ev : EventCode} {xs : List Stimulus}
    (presented : s.schedule = .event ev :: xs) (live : s.fault = 0) (code : ev = 0b01 ∨ ev = 0b10) :
    step s = .next (notified ev xs s) := by
  rcases code with rfl | rfl
  · exact (step_event presented rfl).trans (exec_evtHalf_of_live live)
  · exact (step_event presented rfl).trans (exec_evtFull_of_live live)

section
variable {s : State}

theorem turnsLeft_of_gen (slot : s.fpc = 1) : turnsLeft s = s.halfWords + 2 := if_pos slot

theorem turnsLeft_of_pack (slot : s.fpc = 2) :
    turnsLeft s = s.halfWords - s.pidx.toNat + 1 := by
  rw [turnsLeft, slot]; rfl

theorem turnsLeft_of_clr (slot : s.fpc = 3) : turnsLeft s = 1 := by
  rw [turnsLeft, slot]; rfl

/-- The turns left of a pass under way bring it to its end, whatever `req` holds; what they leave of the
state before the `CLR` has the capture and the counter of now, and `BUF` outside the captured half. -/
theorem run_turnsLeft (busy : s.fpc ≠ 0) (running : s.running = true) (live : s.fault = 0)
    (ready : s.fpc ≠ 3 → PassReady s) (turns : OnlyFgNext (turnsLeft s) s) :
    ∃ u, Host.Core.run Sys2Proof.core (turnsLeft s) s = .next (passEnd (turnsLeft s) u) ∧
      u.cap = s.cap ∧ u.ovrCnt = s.ovrCnt ∧ u.schedule = s.schedule ∧
      ∀ a, a < 2 * s.packBase ∨ 2 * (s.packBase + s.halfWords) ≤ a →
        Memory.readByte u.mem a = Memory.readByte s.mem a := by
  have slots : s.fpc = 1 ∨ s.fpc = 2 ∨ s.fpc = 3 := by bv_omega
  rcases slots with slot | slot | slot
  · have h := ready (by rw [slot]; decide)
    rw [turnsLeft_of_gen slot] at turns ⊢
    exact ⟨packed (generated s), run_from_gen h turns slot, rfl, rfl, rfl,
      fun _ => readByte_packedMem_outside (passReady_generated h slot) rfl⟩
  · have h := ready (by rw [slot]; decide)
    have inHalf := h.control.pidx_lt
    obtain ⟨n, left⟩ : ∃ n, s.pidx.toNat + (n + 1) = s.halfWords :=
      ⟨s.halfWords - s.pidx.toNat - 1, by omega⟩
    have count : turnsLeft s = n + 2 := by rw [turnsLeft_of_pack slot]; omega
    rw [count] at turns ⊢
    exact ⟨packed s, run_from_pack turns h slot left, rfl, rfl, rfl,
      fun _ => readByte_packedMem_outside h slot⟩
  · rw [turnsLeft_of_clr slot] at turns ⊢
    exact ⟨s, run_from_clr turns running live slot, rfl, rfl, rfl, fun _ _ => rfl⟩

end

/-! ### The obligations -/

/-- Settles O16: the run through the four slots, its memory read half by half. -/
theorem pollPassRefillsHalf : Obligations.PollPassRefillsHalf := by
  intro s control running live slot pending length empty
  have h : PassReady s := ⟨control, running, live, length⟩
  have ready : PassReady (generated (captured s)) := 
    passReady_generated (passReady_captured h slot pending) rfl
  have first : s.pidx = 0 := control.pidx_zero (by rw [slot]; decide)
  refine ⟨_, run_from_poll h (onlyFgNext_of_nil empty _) slot pending, ?_,
    fun _ => readWord_packedMem ready rfl first, fun _ => readByte_packedMem_outside ready rfl⟩
  simp only [passEnd, packed, generated, captured, empty, slot, first, List.drop_nil]
  rfl

/-- Settles O8: the event writes `req` and its counter alone, and the turns left of the pass read
neither; the last of them is the `CLR`. -/
theorem notificationDuringRefillIsLost : Obligations.NotificationDuringRefillIsLost := by
  intro s ev xs running live busy pending ready code presented
  generalize rest : List.replicate (turnsLeft s) .fg ++ xs = ys at presented
  have move := step_completion presented live code
  have onlyFg : OnlyFgNext (turnsLeft s) (notified ev ys s) := onlyFgNext_of_replicate rest.symm
  have packs (slot : s.fpc ≠ 3) : PassReady (notified ev ys s) :=
    have h : PassReady s := ⟨(ready slot).1, running, live, (ready slot).2⟩
    h.of_step move rfl rfl rfl rfl
  obtain ⟨u, run, cap, count, schedule, outside⟩ :=
    run_turnsLeft (s := notified ev ys s) busy running live packs onlyFg
  refine ⟨_, _, move, run, rfl, rfl, ?_, rfl, cap, rfl, count, ?_, outside⟩
  · rw [notified, notify_ovrCnt, overwriteCount, if_neg pending, satinc]
  · calc u.schedule.drop (turnsLeft s)
        = (List.replicate (turnsLeft s) Stimulus.fg ++ xs).drop (turnsLeft s) := by
          rw [schedule, rest]; rfl
      _ = xs := List.drop_left' List.length_replicate

end Sys2Proof.Machine
end

