-- ==== Sys2Proof/Proofs/Faults.lean ====
section
/-! PROOF. Faults and the halted block (60_exceptions.md R170, R171): which operations raise which
cause and what they leave as it was, and what is ignored once a cause is raised. -/

namespace Sys2Proof.Machine

/-! ### A fault is taken (R170, R171) -/

/-- The only way an operation changes `fault`: a live block raises a cause, and nothing else
changes. -/
theorem Performs.raises_of_fault_ne {s t : State} {i : Instr} (h : Performs s i t)
    (changed : t.fault ≠ s.fault) :
    ∃ c, s.fault = 0 ∧ Raises s i c ∧ t = { s with fault := c.code } := by
  cases h with
  | raised _ c live cause => exact ⟨c, live, cause, rfl⟩
  | packed => exact absurd (packAdvance_fault _) changed
  | _ => exact absurd rfl changed

/-! ### The halted block (R171) -/

/-- `0x14` is `RDREG`'s alone (30_encoding.md R64). -/
theorem op_of_wordRow_rdreg {op : BitVec 8} {imm : Word} {r : RegNum}
    (row : WordRow imm op (.rdreg r)) : op = 0x14 := by
  cases row
  rfl

section
variable {s : State} (halted : s.fault ≠ 0)
include halted

theorem exec_of_halted {i : Instr} (other : ∀ r, i ≠ .rdreg r) : exec i s = .next s := by
  cases i with
  | rdreg r => exact absurd rfl (other r)
  | poll | gen | pack | clr => exact exec_fg_disabled rfl fun ⟨_, live, _⟩ => halted live
  | _ => exact unlessHalted_halted halted _

theorem irqTurn_of_halted (ev : EventCode) : irqTurn ev s = .next s := by
  rcases irqTurn_cases ev s with ⟨-, e⟩ | ⟨-, e⟩ | ⟨-, e⟩ | ⟨-, e⟩
  · exact e
  all_goals exact e.trans (unlessHalted_halted halted _)

theorem configTurn_of_halted {w : OpWord} (other : opField w ≠ 0x14) :
    configTurn w s = .next s := by
  rcases configTurn_cases w s with ⟨i, decoded, e⟩ | ⟨-, e⟩
  · obtain ⟨row, -⟩ := decodeOn_eq_instr_iff.1 decoded
    have notRead : ∀ r, i ≠ .rdreg r := by
      rintro r rfl
      exact other (op_of_wordRow_rdreg row)
    exact e.trans (exec_of_halted halted notRead)
  · exact e.trans (unlessHalted_halted halted _)

end

/-! ### The obligations -/

/-- Settles O23, port by port. -/
theorem haltedBlockIgnoresOperations : Obligations.HaltedBlockIgnoresOperations :=
  fun _ halted => ⟨fun _ => exec_of_halted halted, irqTurn_of_halted halted,
    fun _ => configTurn_of_halted halted, fgTurn_disabled (.inr halted)⟩

/-- Settles O24, by the cause that was raised. -/
theorem faultsArePreciseAndByTable : Obligations.FaultsArePreciseAndByTable := by
  intro i s t h changed
  obtain ⟨c, live, cause, rfl⟩ := (performs_of_exec h).raises_of_fault_ne changed
  refine ⟨live, rfl, ?_⟩
  cases cause with
  | startNoRow m stopped absent =>
    exact .inl ⟨rfl, m, rfl, stopped, List.getElem?_eq_none_iff.1 absent⟩
  | packLength slot first wrong => exact .inr (.inl ⟨rfl, rfl, slot, first, wrong⟩)
  | incIllegal x illegal =>
    exact .inr (.inr (.inl ⟨rfl, x, rfl, fun legal =>
      ne_true_of_eq_false illegal (Bool.and_eq_true_iff.2 legal)⟩))
  | startRunning m running => exact .inr (.inr (.inr ⟨rfl, running, .inl ⟨m, rfl⟩⟩))
  | halflenRunning n running => exact .inr (.inr (.inr ⟨rfl, running, .inr ⟨n, rfl⟩⟩))

end Sys2Proof.Machine
end

