-- ==== Sys2Proof/Proofs/Engine.lean ====
section
/-! PROOF. The Streaming Engine (60_exceptions.md R185, R186): its start by `START`, the word and the
event of one `ENG.tx` (log 11), and the words of one half with the event that completes it. -/

namespace Sys2Proof.Machine

/-! ### The start (R185) -/

section
variable {s : State} {m : Word} {row : ModeConfig}

/-- The block right after a first `START` with `halflen = K*B`, no request having come before. -/
theorem safeRun_latchMode (control : ControlInv s) (live : s.fault = 0)
    (stopped : s.running = false) (idle : s.req = .idle) (unserved : s.cap = .idle)
    (uncounted : s.ovrCnt = 0)
    (length : s.halflen.toNat = wordsPerSample row.depth32 * s.params.blockSize) :
    SafeRun (latchMode m row s) where
  control := controlInv_latchMode control stopped m row
  streaming := Engine.started_streaming s.engine length
  live := live
  no_overwrite := uncounted
  first_free first := absurd (idle.symm.trans first) nofun
  second_free second := absurd (idle.symm.trans second) nofun
  pass_serves busy := absurd (control.slot_of_stopped stopped) busy
  waiting_follows _ pending := absurd idle pending
  served_follows _ := by
    have words : 0 < s.halflen.toNat := by
      rw [length]
      exact Nat.mul_pos (wordsPerSample_pos _) (blockSize_pos control.params_ok)
    have first : (latchMode m row s).txHalf = .first := if_pos words
    rw [latchMode_cap, unserved]
    exact iff_of_true first rfl

/-- Nothing is sent yet, and no block is asked for. -/
theorem streamInv_latchMode (slot : s.fpc = 0) (idle : s.req = .idle) :
    StreamInv s.engine.stream.length [] (latchMode m row s) where
  started := le_refl s.engine.stream.length
  position := by simp [Engine.started]
  counted := by simp [halvesSent, Engine.started, idle]
  full := nofun
  current packing := absurd (slot.symm.trans packing) nofun
  sent := by simp [Engine.started]
  sending := nofun
  refilled := nofun

end

/-! ### One word (R186) -/

/-- The engine follows R186 with both halves inside `BUF` and its pointer in one of them. -/
structure FollowsContract (s : State) : Prop where
  streaming : s.engine.mode = .streaming
  inBuf : 2 * s.halflen.toNat ≤ bufWords s.params
  inHalves : s.engine.txPtr < 2 * s.halflen.toNat

section
variable {s : State} (turn : nextStimulus s = .tx) (h : FollowsContract s)
include turn h

theorem step_tx :
    step s =
      irqTurn (boundaryEvent s.halflen.toNat ((s.engine.txPtr + 1) % (2 * s.halflen.toNat)))
        (txAdvance (beginTransition s)) := by
  have inBuf : s.engine.txPtr < bufWords s.params := h.inHalves.trans_le h.inBuf
  rw [step_eq, turn, perform, txTurn, beginTransition_engine, h.streaming]
  exact if_pos inBuf

theorem step_tx_half (half : (s.engine.txPtr + 1) % (2 * s.halflen.toNat) = s.halflen.toNat) :
    step s = exec .evtHalf (txAdvance (beginTransition s)) := by
  rw [step_tx turn h, boundaryEvent, if_pos half]
  rfl

theorem step_tx_full (full : (s.engine.txPtr + 1) % (2 * s.halflen.toNat) = 0) :
    step s = exec .evtFull (txAdvance (beginTransition s)) := by
  have inHalves := h.inHalves
  rw [step_tx turn h, boundaryEvent, full, if_neg (by omega), if_pos rfl]
  rfl

theorem step_tx_inside
    (notHalf : (s.engine.txPtr + 1) % (2 * s.halflen.toNat) ≠ s.halflen.toNat)
    (notFull : (s.engine.txPtr + 1) % (2 * s.halflen.toNat) ≠ 0) :
    step s = .next (txAdvance (beginTransition s)) := by
  rw [step_tx turn h, boundaryEvent, if_neg notHalf, if_neg notFull]
  rfl

end

/-- A written word is what goes out (20_memory.md R50 (c)). -/
theorem transmitWord_of_readWord {s : State} {a : Nat} {v : RawWord}
    (written : Memory.readWord s.mem a = some v) : s.transmitWord a = v := by
  rw [State.transmitWord, written, Option.getD_some]

/-! ### The words of one half (R186) -/

/-- The state after `n` turns of the engine, but for what its events do. -/
def afterWords (n : Nat) (s : State) : State :=
  { s with
    schedule := s.schedule.drop n
    rdata := if n = 0 then s.rdata else none
    engine :=
      { s.engine with
        txPtr := (s.engine.txPtr + n) % (2 * s.halflen.toNat)
        stream := s.engine.stream ++
          (List.range n).map fun k =>
            s.transmitWord ((s.engine.txPtr + k) % (2 * s.halflen.toNat)) } }

theorem length_stream_afterWords (n : Nat) (s : State) :
    (afterWords n s).engine.stream.length = s.engine.stream.length + n := by
  simp [afterWords]

theorem txPtr_afterWords {s : State} {n : Nat} (below : s.engine.txPtr + n < 2 * s.halflen.toNat) :
    (afterWords n s).engine.txPtr = s.engine.txPtr + n :=
  Nat.mod_eq_of_lt below

section
variable {s : State} (h : FollowsContract s)
include h

theorem afterWords_zero : afterWords 0 s = s := by
  simp [afterWords, Nat.mod_eq_of_lt h.inHalves]

theorem afterWords_one : afterWords 1 s = txAdvance (beginTransition s) := by
  simp [afterWords, txAdvance, beginTransition, State.transmitWord, Nat.mod_eq_of_lt h.inHalves]

theorem FollowsContract.afterWords (n : Nat) : FollowsContract (afterWords n s) where
  streaming := h.streaming
  inBuf := h.inBuf
  inHalves := Nat.mod_lt _ (Nat.zero_lt_of_lt h.inHalves)

end

/-- The pointer's turns round the halves add up. -/
theorem afterWords_afterWords (m n : Nat) (s : State) :
    afterWords m (afterWords n s) = afterWords (n + m) s := by
  have rdata : (if m = 0 then if n = 0 then s.rdata else none else none) =
      if n + m = 0 then s.rdata else none := by
    cases m with
    | zero => rfl
    | succ m => rfl
  simp [afterWords, State.transmitWord, List.range_add, Nat.add_assoc, rdata, Function.comp_def]

/-- Turns of the engine that complete no half: all that they do is send their words. -/
theorem run_words_inside {s : State} {n : Nat} {xs : List Stimulus} (h : FollowsContract s)
    (turns : s.schedule = List.replicate n .tx ++ xs)
    (inside : s.engine.txPtr + n < s.halflen.toNat ∨
      s.halflen.toNat ≤ s.engine.txPtr ∧ s.engine.txPtr + n < 2 * s.halflen.toNat) (k : Nat) :
    Host.Core.run Sys2Proof.core (n + k) s = Host.Core.run Sys2Proof.core k (afterWords n s) := by
  induction n generalizing s with
  | zero => rw [afterWords_zero h, Nat.zero_add]
  | succ n ih =>
    have turn : nextStimulus s = .tx := nextStimulus_cons turns
    have ptr : (afterWords 1 s).engine.txPtr = s.engine.txPtr + 1 := txPtr_afterWords (by omega)
    have notHalf : (afterWords 1 s).engine.txPtr ≠ s.halflen.toNat := by omega
    have notFull : (afterWords 1 s).engine.txPtr ≠ 0 := by omega
    have move : step s = .next (afterWords 1 s) := by
      rw [step_tx_inside turn h notHalf notFull, afterWords_one h]
    have rest : (afterWords 1 s).schedule = List.replicate n .tx ++ xs := by
      rw [afterWords, turns]
      rfl
    have inside' : (afterWords 1 s).engine.txPtr + n < s.halflen.toNat ∨
        s.halflen.toNat ≤ (afterWords 1 s).engine.txPtr ∧
          (afterWords 1 s).engine.txPtr + n < 2 * s.halflen.toNat := by omega
    rw [Nat.add_right_comm, run_next _ move, ih (h.afterWords 1) rest inside',
      afterWords_afterWords, Nat.add_comm 1]

/-- The request that the completion of a half makes, told by the half's first word. -/
def completionRequest (head : Nat) : Request :=
  if head = 0 then .pendingFirstHalf else .pendingSecondHalf

/-- The last word of a half, and the event that comes with it (log 11). -/
theorem step_tx_last {s : State} {head : Nat} (turn : nextStimulus s = .tx) (h : FollowsContract s)
    (live : s.fault = 0) (last : s.engine.txPtr + 1 = head + s.halflen.toNat)
    (ofHalf : head = 0 ∨ head = s.halflen.toNat) :
    step s = .next (notify (completionRequest head) (afterWords 1 s)) := by
  rw [afterWords_one h]
  have inHalves := h.inHalves
  rcases ofHalf with rfl | rfl
  · rw [step_tx_half turn h (by rw [last, Nat.zero_add]; exact Nat.mod_eq_of_lt (by omega))]
    exact exec_evtHalf_of_live live
  · rw [step_tx_full turn h (by rw [last, ← Nat.two_mul, Nat.mod_self]), completionRequest,
      if_neg (by omega)]
    exact exec_evtFull_of_live live

section
variable {s : State} {xs : List Stimulus} (h : FollowsContract s)
  (turns : s.schedule = List.replicate s.halflen.toNat .tx ++ xs)
  (head : s.engine.txPtr = 0 ∨ s.engine.txPtr = s.halflen.toNat)
include h turns head

/-- From the head of a half, short of its last word. -/
theorem run_half_inside {n : Nat} (short : n < s.halflen.toNat) (k : Nat) :
    Host.Core.run Sys2Proof.core (n + k) s = Host.Core.run Sys2Proof.core k (afterWords n s) := by
  refine run_words_inside (xs := List.replicate (s.halflen.toNat - n) .tx ++ xs) h ?_ (by omega) k
  rw [turns, ← List.append_assoc, List.replicate_append_replicate, Nat.add_sub_of_le short.le]

/-- The whole half. -/
theorem run_half (live : s.fault = 0) :
    Host.Core.run Sys2Proof.core s.halflen.toNat s =
      .next (notify (completionRequest s.engine.txPtr) (afterWords s.halflen.toNat s)) := by
  have inHalves := h.inHalves
  obtain ⟨n, words⟩ : ∃ n, s.halflen.toNat = n + 1 := ⟨s.halflen.toNat - 1, by omega⟩
  have turn : nextStimulus (afterWords n s) = .tx := by
    refine nextStimulus_cons (xs := xs) ?_
    rw [afterWords, turns, words, List.replicate_succ']
    simp
  have last : (afterWords n s).engine.txPtr + 1 = s.engine.txPtr + s.halflen.toNat := by
    rw [txPtr_afterWords (by omega), words, Nat.add_assoc]
  have move := step_tx_last turn (h.afterWords n) live last head
  calc Host.Core.run Sys2Proof.core s.halflen.toNat s
      = Host.Core.run Sys2Proof.core 1 (afterWords n s) := by
        rw [words]
        exact run_half_inside h turns head (by omega) 1
    _ = .next (notify (completionRequest s.engine.txPtr) (afterWords 1 (afterWords n s))) :=
        run_next 0 move
    _ = _ := by rw [afterWords_afterWords, ← words]

end

/-! ### The obligations -/

/-- Settles O44: the mode latched, nothing else has begun. -/
theorem startBeginsSafeRun : Obligations.StartBeginsSafeRun := by
  intro s m row control live stopped idle unserved uncounted present length
  refine ⟨latchMode m row s, exec_start_of_row live stopped present, ?_,
    streamInv_latchMode (control.slot_of_stopped stopped) idle⟩
  exact
    { safe := safeRun_latchMode control live stopped idle unserved uncounted length
      nothing_requested := idle
      nothing_served := unserved
      at_first_word := rfl }

/-- Settles O49, by where the pointer goes. -/
theorem engineTransmitsAndNotifies : Obligations.EngineTransmitsAndNotifies := by
  intro s xs scheduled streaming _ inHalves inBuf
  have turn := nextStimulus_cons scheduled
  have h : FollowsContract s := ⟨streaming, inBuf, inHalves⟩
  refine ⟨s.transmitWord s.engine.txPtr, txAdvance (beginTransition s),
    fun _ written => transmitWord_of_readWord written, ?_,
    step_tx_half turn h, step_tx_full turn h, step_tx_inside turn h⟩
  rw [txAdvance, beginTransition, scheduled, ← streaming]
  rfl

/-- Settles O50: no event falls inside a half, and its last word brings one. -/
theorem oneEventPerHalfTransmitted : Obligations.OneEventPerHalfTransmitted := by
  intro s xs streaming live positive inBuf turns head
  have h : FollowsContract s := ⟨streaming, inBuf, by omega⟩
  refine ⟨fun n short => ?_, _, run_half h turns head live, ?_, length_stream_afterWords _ s,
    overwriteCount_eq _, fun first => ?_, fun second => ?_⟩
  · exact ⟨afterWords n s, run_half_inside h turns head short 0, rfl, rfl, rfl,
      txPtr_afterWords (by omega), length_stream_afterWords n s⟩
  · rw [notify_schedule, afterWords, turns]
    exact List.drop_left' List.length_replicate
  · refine ⟨if_pos first, (txPtr_afterWords (by omega)).trans ?_⟩
    rw [first, Nat.zero_add]
  · refine ⟨if_neg (by omega), ?_⟩
    show (s.engine.txPtr + s.halflen.toNat) % (2 * s.halflen.toNat) = 0
    rw [second, ← Nat.two_mul, Nat.mod_self]

end Sys2Proof.Machine
end

