-- ==== Sys2Proof/Proofs/Reset.lean ====
section
/-! PROOF. Reset (70_reset_and_hazards.md R200): the registers hold their reset values after power-up
and after a reset that the platform asserts. -/

namespace Sys2Proof.Machine

/-- 10_state.md R24: after reset the register view reads 0 at every register. -/
theorem readReg_resetWith (p : Params) (r : RegNum) : (State.resetWith p).readReg r = 0 := by
  cases r with
  | ctrl => exact show ctrlWord false false false = 0 by decide
  | _ => rfl

theorem step_reset {s : State} {xs : List Stimulus} (asserted : s.schedule = .reset :: xs) :
    step s = .next (platformReset { s with schedule := xs, rdata := none }) :=
  step_of_schedule asserted

/-- Settles O1: the spec's reset values are the fields of `State.resetWith`. -/
theorem resetRegistersHoldSpecValues : Obligations.ResetRegistersHoldSpecValues :=
  ⟨fun p => ⟨rfl, rfl, rfl, rfl, rfl, rfl, rfl, rfl, rfl, rfl, rfl, rfl, rfl, rfl, rfl, rfl,
      fun _ => readReg_resetWith p _⟩,
    Config.defaultParams, paramsOk_defaultParams, rfl⟩

/-- Settles O2: the step is `platformReset`, which takes nothing from the old registers. -/
theorem platformResetRestoresRegisters : Obligations.PlatformResetRestoresRegisters :=
  fun _ _ asserted =>
    ⟨_, step_reset asserted, rfl, rfl, rfl, rfl, rfl, rfl, rfl, rfl, rfl, rfl, rfl, rfl, rfl, rfl,
      rfl, rfl, rfl, rfl, fun a => readByte_nil a⟩

end Sys2Proof.Machine
end

