-- ==== Sys2Proof/Proofs/SafeRun.lean ====
section
/-! PROOF. The safe run (70_reset_and_hazards.md R213 (a) to (d)): what a transition on time can be, and
that each keeps the flag, the capture and the half being transmitted in step. -/

namespace Sys2Proof.Machine

/-! ### What a safe state grants -/

section
variable {s : State} (h : SafeRun s)
include h

theorem SafeRun.running : s.running = true := (h.control.engine_ok h.streaming).1

theorem SafeRun.length : s.halflen.toNat = s.halfWords := (h.control.engine_ok h.streaming).2.1

theorem SafeRun.txPtr_lt : s.engine.txPtr < 2 * s.halflen.toNat :=
  (h.control.engine_ok h.streaming).2.2

theorem SafeRun.halflen_pos : 0 < s.halflen.toNat := by
  have := h.txPtr_lt
  omega

theorem SafeRun.passReady : PassReady s := ⟨h.control, h.running, h.live, h.length⟩

theorem SafeRun.followsContract : FollowsContract s where
  streaming := h.streaming
  inBuf := h.length ▸ two_halfWords_le_bufWords s
  inHalves := h.txPtr_lt

/-- With every request served no pass is under way. -/
theorem SafeRun.slot_of_idle (idle : s.req = .idle) : s.fpc = 0 :=
  by_contra fun busy => h.control.busy_pending busy idle

/-- The half being transmitted is not the one that a pending request names (10_state.md R11). -/
theorem SafeRun.txHalf_of_pending (pending : s.req ≠ .idle) :
    s.txHalf = if s.req = .pendingFirstHalf then .second else .first := by
  cases hreq : s.req with
  | idle => exact absurd hreq pending
  | pendingFirstHalf => exact h.first_free hreq
  | pendingSecondHalf => exact h.second_free hreq

/-- R213 (b), (c): `PACK` writes the half that is not being transmitted. -/
theorem SafeRun.packBase_eq (busy : s.fpc ≠ 0) :
    s.packBase = if s.txHalf = .first then s.halflen.toNat else 0 := by
  have pending := h.control.busy_pending busy
  rw [State.packBase, h.pass_serves busy, h.txHalf_of_pending pending]
  split <;> rfl

end

/-! ### The transitions on time -/

/-- 60_exceptions.md R186: a word completes a half where the pointer comes to `halflen` or to 0. -/
theorem crossesBoundary_iff {s : State} :
    crossesBoundary s ↔
      (s.engine.txPtr + 1) % (2 * s.halflen.toNat) = s.halflen.toNat ∨
        (s.engine.txPtr + 1) % (2 * s.halflen.toNat) = 0 := by
  show boundaryEvent s.halflen.toNat ((s.engine.txPtr + 1) % (2 * s.halflen.toNat)) ≠ 0b00 ↔ _
  unfold boundaryEvent
  split_ifs with half full
  · exact iff_of_true (by decide) (.inl half)
  · exact iff_of_true (by decide) (.inr full)
  · exact iff_of_false (absurd rfl) (not_or.2 ⟨half, full⟩)

theorem completionRequest_ne_idle (head : Nat) : completionRequest head ≠ .idle := by
  unfold completionRequest
  split <;> nofun

/-- The last step of `PACK` (42_packer.md R124); `packedOne` is a step before it. -/
def packedLast (w : RawWord) (s : State) : State :=
  { s with mem := Memory.writeWord s.mem s.packAddr w, pidx := 0, fpc := 3 }

/-- What a transition on time of a safe run can make of the state, if it raises no fault. `aside` is all
that touches neither the hand-off nor the stream: the configuration port, and a `POLL` not taken. -/
inductive OnTimeMove (s : State) : State → Prop
  | aside (x : F32) (w : Waveform) (r : Option Word) (xs : List Stimulus)
      (untaken : nextStimulus s = .fg → s.fpc = 0 ∧ s.req = .idle) :
      OnTimeMove s { s with inc := x, wave := w, rdata := r, schedule := xs }
  | sent (turn : nextStimulus s = .tx) (notHalf : s.engine.txPtr + 1 ≠ s.halflen.toNat)
      (notFull : s.engine.txPtr + 1 ≠ 2 * s.halflen.toNat) :
      OnTimeMove s (txAdvance (beginTransition s))
  | completed (head : Nat) (turn : nextStimulus s = .tx) (idle : s.req = .idle)
      (last : s.engine.txPtr + 1 = head + s.halflen.toNat)
      (ofHalf : head = 0 ∨ head = s.halflen.toNat) :
      OnTimeMove s (notify (completionRequest head) (txAdvance (beginTransition s)))
  | captured (turn : nextStimulus s = .fg) (slot : s.fpc = 0) (pending : s.req ≠ .idle) :
      OnTimeMove s (beginTransition (captured s))
  | generated (turn : nextStimulus s = .fg) (slot : s.fpc = 1) :
      OnTimeMove s (beginTransition (generated s))
  | packedOne (w : RawWord) (slot : s.fpc = 2)
      (word : packWord s.blk s.depth32 s.pidx.toNat = some w) :
      OnTimeMove s (beginTransition (packedOne w s))
  | packedLast (w : RawWord) (slot : s.fpc = 2)
      (word : packWord s.blk s.depth32 s.pidx.toNat = some w)
      (last : s.pidx.toNat + 1 = s.halfWords) :
      OnTimeMove s (beginTransition (packedLast w s))
  | cleared (slot : s.fpc = 3) : OnTimeMove s (passEnd 1 s)

section
variable {s t : State} (h : SafeRun s)
include h

theorem OnTimeMove.of_fg (turn : nextStimulus s = .fg) (move : step s = .next t) :
    OnTimeMove s t := by
  have slots : s.fpc = 0 ∨ s.fpc = 1 ∨ s.fpc = 2 ∨ s.fpc = 3 := by bv_omega
  rcases slots with slot | slot | slot | slot
  · by_cases idle : s.req = .idle
    · have untaken : step s = .next (beginTransition s) :=
        (step_fg (i := .poll) turn (slot ▸ rfl)).trans
          ((exec_poll_enabled (s := beginTransition s) h.running h.live slot).trans
            (congrArg _ (if_pos idle)))
      exact next_inj.1 (untaken.symm.trans move) ▸ .aside _ _ _ _ fun _ => ⟨slot, idle⟩
    · have taken := step_poll turn h.running h.live slot idle
      exact next_inj.1 (taken.symm.trans move) ▸ .captured turn slot idle
  · exact next_inj.1 ((step_gen turn h.running h.live slot).symm.trans move) ▸ .generated turn slot
  · obtain ⟨w, word, e⟩ := step_pack turn h.passReady slot
    obtain rfl := next_inj.1 (e.symm.trans move)
    rcases packAdvance_cases { beginTransition s with mem := Memory.writeWord s.mem s.packAddr w }
      with ⟨last, e⟩ | ⟨-, e⟩ <;> rw [e]
    · exact .packedLast w slot word last
    · exact .packedOne w slot word
  · exact next_inj.1 ((step_clr turn h.running h.live slot).symm.trans move) ▸ .cleared slot

theorem OnTimeMove.of_tx (turn : nextStimulus s = .tx) (timely : crossesBoundary s → s.req = .idle)
    (move : step s = .next t) : OnTimeMove s t := by
  have contract := h.followsContract
  have ptr := h.txPtr_lt
  have completes (head : Nat) (last : s.engine.txPtr + 1 = head + s.halflen.toNat)
      (ofHalf : head = 0 ∨ head = s.halflen.toNat) (crosses : crossesBoundary s) :
      OnTimeMove s t := by
    have e := step_tx_last turn contract h.live last ofHalf
    rw [afterWords_one contract] at e
    exact next_inj.1 (e.symm.trans move) ▸ .completed head turn (timely crosses) last ofHalf
  by_cases half : s.engine.txPtr + 1 = s.halflen.toNat
  · refine completes 0 (by omega) (.inl rfl) (crossesBoundary_iff.2 (.inl ?_))
    rw [half]
    exact Nat.mod_eq_of_lt (by omega)
  by_cases full : s.engine.txPtr + 1 = 2 * s.halflen.toNat
  · refine completes s.halflen.toNat (by omega) (.inr rfl) (crossesBoundary_iff.2 (.inr ?_))
    rw [full, Nat.mod_self]
  · have next := Nat.mod_eq_of_lt (show s.engine.txPtr + 1 < 2 * s.halflen.toNat by omega)
    have e := step_tx_inside turn contract (by rwa [next]) (by rw [next]; exact Nat.succ_ne_zero _)
    exact next_inj.1 (e.symm.trans move) ▸ .sent turn half full

theorem OnTimeMove.of_config {w : OpWord} (turn : nextStimulus s = .config w)
    (move : step s = .next t) (live : t.fault = 0) : OnTimeMove s t := by
  have notFg : nextStimulus s ≠ .fg := by rw [turn]; nofun
  rw [step_eq, turn] at move
  rcases configTurn_performs move with rfl | ⟨-, rfl⟩ | ⟨i, agent, act⟩
  · exact .aside _ _ _ _ fun fg => absurd fg notFg
  · exact absurd live (code_pos .illegalOp).1
  · cases act with
    | ignored => exact .aside _ _ _ _ fun fg => absurd fg notFg
    | wroteInc => exact .aside _ _ _ _ fun fg => absurd fg notFg
    | wroteWave => exact .aside _ _ _ _ fun fg => absurd fg notFg
    | read => exact .aside _ _ _ _ fun fg => absurd fg notFg
    | raised _ c => exact absurd live (code_pos c).1
    | latched _ _ _ stopped => exact absurd (stopped.symm.trans h.running) nofun
    | wroteHalflen _ _ stopped => exact absurd (stopped.symm.trans h.running) nofun
    | _ => cases agent

/-- All that a transition on time can be. -/
theorem onTimeMove_of_step (timely : onTime s) (move : step s = .next t) (live : t.fault = 0) :
    OnTimeMove s t := by
  unfold onTime at timely
  cases turn : nextStimulus s with
  | fg => exact .of_fg h turn move
  | tx => rw [turn] at timely; exact .of_tx h turn timely move
  | config w => exact .of_config h turn move live
  | event ev =>
    rw [turn] at timely
    obtain rfl : ev = 0b00 := timely
    rw [step_eq, turn] at move
    have quiet : t = beginTransition s := next_inj.1 move.symm
    exact quiet ▸ .aside _ _ _ _ fun fg => absurd (turn.symm.trans fg) nofun
  | txAt p =>
    rw [step_eq, turn, perform, txAtTurn, beginTransition_engine, h.streaming] at move
    cases move
  | reset => rw [turn] at timely; exact timely.elim

end

/-! ### Every transition on time keeps the run safe -/

/-- Inside a half the pointer's move does not change which half is being transmitted. -/
theorem txHalf_txAdvance_inside {s : State} (below : s.engine.txPtr < 2 * s.halflen.toNat)
    (notHalf : s.engine.txPtr + 1 ≠ s.halflen.toNat)
    (notFull : s.engine.txPtr + 1 ≠ 2 * s.halflen.toNat) :
    (txAdvance (beginTransition s)).txHalf = s.txHalf := by
  have next : (s.engine.txPtr + 1) % (2 * s.halflen.toNat) = s.engine.txPtr + 1 :=
    Nat.mod_eq_of_lt (by omega)
  have side : s.engine.txPtr + 1 < s.halflen.toNat ↔ s.engine.txPtr < s.halflen.toNat := by omega
  show (if (s.engine.txPtr + 1) % (2 * s.halflen.toNat) < s.halflen.toNat then Half.first
    else .second) = if s.engine.txPtr < s.halflen.toNat then .first else .second
  rw [next]
  simp only [side]

section
variable {s : State} (h : SafeRun s)
include h

/-- With every request served, the half being transmitted tells the half to be asked for next. -/
theorem SafeRun.successor_eq (idle : s.req = .idle) :
    s.cap.successor = if s.txHalf = .first then .pendingFirstHalf else .pendingSecondHalf := by
  by_cases first : s.txHalf = .first
  · rw [if_pos first, (h.served_follows idle).1 first]
  · rw [if_neg first]
    have other := mt (h.served_follows idle).2 first
    cases hcap : s.cap with
    | pendingFirstHalf => rfl
    | idle => exact absurd (congrArg Request.successor hcap) other
    | pendingSecondHalf => exact absurd (congrArg Request.successor hcap) other

section
variable {head : Nat} (last : s.engine.txPtr + 1 = head + s.halflen.toNat)
include last

/-- R213 (d): a completion asks for the half after the last one captured. -/
theorem SafeRun.completionRequest_eq (idle : s.req = .idle) :
    completionRequest head = s.cap.successor := by
  have positive := h.halflen_pos
  have side : head = 0 ↔ s.txHalf = .first := by
    unfold State.txHalf
    split_ifs with below
    · exact iff_of_true (by omega) rfl
    · exact iff_of_false (by omega) nofun
  simp only [completionRequest, h.successor_eq idle, side]

/-- With the last word of a half the engine goes on to the other one (60_exceptions.md R186). -/
theorem SafeRun.txHalf_completed (ofHalf : head = 0 ∨ head = s.halflen.toNat) :
    (txAdvance (beginTransition s)).txHalf =
      if completionRequest head = .pendingFirstHalf then .second else .first := by
  have positive := h.halflen_pos
  rcases ofHalf with rfl | rfl
  · have next : (s.engine.txPtr + 1) % (2 * s.halflen.toNat) = s.halflen.toNat := by
      rw [last, Nat.zero_add]
      exact Nat.mod_eq_of_lt (by omega)
    exact if_neg next.not_lt
  · have next : (s.engine.txPtr + 1) % (2 * s.halflen.toNat) = 0 := by
      rw [last, ← Nat.two_mul, Nat.mod_self]
    have second : completionRequest s.halflen.toNat = .pendingSecondHalf := if_neg positive.ne'
    rw [second]
    exact if_pos (next.trans_lt positive)

/-- R213 (a): the completion finds the request before it served. -/
theorem safeRun_completed (ofHalf : head = 0 ∨ head = s.halflen.toNat)
    (control : ControlInv (notify (completionRequest head) (txAdvance (beginTransition s))))
    (idle : s.req = .idle) :
    SafeRun (notify (completionRequest head) (txAdvance (beginTransition s))) :=
  have slot := h.slot_of_idle idle
  have half := h.txHalf_completed last ofHalf
  have follows := h.completionRequest_eq last idle
  { control := control
    streaming := h.streaming
    live := h.live
    no_overwrite := (if_pos idle).trans h.no_overwrite
    first_free := fun first => half.trans (if_pos first)
    second_free := fun second => half.trans (if_neg fun first => nomatch first.symm.trans second)
    pass_serves := fun busy => absurd slot busy
    waiting_follows := fun _ _ => follows
    served_follows := fun idle' => absurd idle' (completionRequest_ne_idle head) }

end

/-- R213 (d): after `CLR` the half being transmitted is the one to be asked for next but one. -/
theorem safeRun_cleared (control : ControlInv (passEnd 1 s)) (slot : s.fpc = 3) :
    SafeRun (passEnd 1 s) :=
  have busy : s.fpc ≠ 0 := by rw [slot]; decide
  { control := control
    streaming := h.streaming
    live := h.live
    no_overwrite := h.no_overwrite
    first_free := nofun
    second_free := nofun
    pass_serves := absurd rfl
    waiting_follows := fun _ pending => absurd rfl pending
    served_follows := fun _ => by
      show s.txHalf = .first ↔ s.cap.successor = .pendingFirstHalf
      rw [h.pass_serves busy]
      cases hreq : s.req with
      | idle => exact absurd hreq (h.control.busy_pending busy)
      | pendingFirstHalf => exact iff_of_false (by rw [h.first_free hreq]; nofun) nofun
      | pendingSecondHalf => exact iff_of_true (h.second_free hreq) rfl }

theorem safeRun_captured (control : ControlInv (beginTransition (captured s)))
    (pending : s.req ≠ .idle) : SafeRun (beginTransition (captured s)) :=
  { h with
    control := control
    pass_serves := fun _ => rfl
    waiting_follows := nofun
    served_follows := fun idle => absurd idle pending }

/-- A later slot of the pass under way changes nothing that the hand-off depends on. -/
theorem safeRun_of_busy {t : State} (control : ControlInv t) (busy : s.fpc ≠ 0) (busy' : t.fpc ≠ 0)
    (hand : t.req = s.req ∧ t.cap = s.cap ∧ t.ovrCnt = s.ovrCnt)
    (rest : t.fault = s.fault ∧ t.engine = s.engine ∧ t.halflen = s.halflen) : SafeRun t := by
  obtain ⟨req, cap, ovrCnt⟩ := hand
  obtain ⟨fault, engine, halflen⟩ := rest
  have half : t.txHalf = s.txHalf := by unfold State.txHalf; rw [engine, halflen]
  exact
    { control := control
      streaming := by rw [engine]; exact h.streaming
      live := by rw [fault]; exact h.live
      no_overwrite := by rw [ovrCnt]; exact h.no_overwrite
      first_free := by rw [req, half]; exact h.first_free
      second_free := by rw [req, half]; exact h.second_free
      pass_serves := fun _ => by rw [cap, req]; exact h.pass_serves busy
      waiting_follows := fun slot => absurd slot busy'
      served_follows := fun idle => absurd idle (control.busy_pending busy') }

theorem safeRun_sent (control : ControlInv (txAdvance (beginTransition s)))
    (half : (txAdvance (beginTransition s)).txHalf = s.txHalf) :
    SafeRun (txAdvance (beginTransition s)) :=
  { h with
    control := control
    first_free := by rw [half]; exact h.first_free
    second_free := by rw [half]; exact h.second_free
    served_follows := by rw [half]; exact h.served_follows }

theorem safeRun_of_move {t : State} (control : ControlInv t) (move : OnTimeMove s t) :
    SafeRun t := by
  cases move with
  | aside => exact { h with control := control }
  | sent _ notHalf notFull =>
    exact safeRun_sent h control (txHalf_txAdvance_inside h.txPtr_lt notHalf notFull)
  | completed head _ idle last ofHalf => exact safeRun_completed h last ofHalf control idle
  | captured _ _ pending => exact safeRun_captured h control pending
  | generated _ slot =>
    exact safeRun_of_busy h control (by rw [slot]; decide) (show (2 : BitVec 2) ≠ 0 by decide)
      ⟨rfl, rfl, rfl⟩ ⟨rfl, rfl, rfl⟩
  | packedOne w slot =>
    exact safeRun_of_busy h control (by rw [slot]; decide) (show s.fpc ≠ 0 by rw [slot]; decide)
      ⟨rfl, rfl, rfl⟩ ⟨rfl, rfl, rfl⟩
  | packedLast w slot =>
    exact safeRun_of_busy h control (by rw [slot]; decide) (show (3 : BitVec 2) ≠ 0 by decide)
      ⟨rfl, rfl, rfl⟩ ⟨rfl, rfl, rfl⟩
  | cleared slot => exact safeRun_cleared h control slot

end

/-! ### The obligations -/

/-- Settles O42, by what a transition on time can be. -/
theorem onTimeStepKeepsSafeRun : Obligations.OnTimeStepKeepsSafeRun := fun s t h timely move live =>
  safeRun_of_move h (stepKeepsControlInvariant s t h.control move)
    (onTimeMove_of_step h timely move live)

/-- Settles O43: the one word that `PACK` writes lies in the other half. -/
theorem safePackSparesTransmittedHalf : Obligations.SafePackSparesTransmittedHalf := by
  intro s t h slot move a inHalf
  cases performs_of_exec move with
  | ignored => rfl
  | raised => rfl
  | packed w _ _ _ _ inBlock =>
    have elsewhere : a ≠ s.packAddr := by
      rw [State.packAddr, h.packBase_eq (by rw [slot]; decide)]
      rw [← h.length] at inBlock
      split_ifs at inHalf ⊢ <;> omega
    rw [packAdvance_mem, readWord_writeWord _ _ _ _ h.control.mem_wf, if_neg elsewhere]

end Sys2Proof.Machine
end

