-- ==== Sys2Proof/Proofs/Stream.lean ====
section
/-! PROOF. The transmit stream of a safe run (70_reset_and_hazards.md R213 (e), 20_memory.md R58): every
transition on time keeps the stream, `BUF` and the blocks tied together as `StreamInv` says. -/

namespace Sys2Proof.Machine

/-! ### What the history records -/

theorem fgPerforms_eq_false {slot : BitVec 2} {s : State}
    (other : nextStimulus s = .fg → s.fpc ≠ slot) : fgPerforms slot s = false :=
  decide_eq_false fun ⟨turn, _, _, same⟩ => other turn same

theorem SafeRun.fgPerforms_eq_true {slot : BitVec 2} {s : State} (h : SafeRun s)
    (turn : nextStimulus s = .fg) (same : s.fpc = slot) : fgPerforms slot s = true :=
  decide_eq_true ⟨turn, h.running, h.live, same⟩

/-! ### The next element, the next multiple -/

/-- The beginning of a list goes on with the element that stands next. -/
theorem isPrefix_concat {α : Type} {l m : List α} {w : α} (h : l <+: m)
    (next : m[l.length]? = some w) : l ++ [w] <+: m := by
  obtain ⟨r, rfl⟩ := h
  rw [List.getElem?_append_right le_rfl, Nat.sub_self] at next
  cases r with
  | nil => cases next
  | cons x r =>
    obtain rfl : x = w := Option.some.inj next
    exact ⟨r, by simp⟩

theorem dvd_succ_iff {l n : Nat} (positive : 0 < l) : l ∣ n + 1 ↔ n % l + 1 = l := by
  have split : n + 1 = l * (n / l) + (n % l + 1) := by rw [← Nat.add_assoc, Nat.div_add_mod]
  rw [split, Nat.dvd_add_right (Nat.dvd_mul_right _ _)]
  exact ⟨fun dvd => le_antisymm (Nat.mod_lt n positive) (Nat.le_of_dvd (Nat.succ_pos _) dvd),
    fun same => same.symm.dvd⟩

/-! ### Where the engine and `PACK` stand -/

/-- The index of a pass is below `halflen`, a 32-bit number, and so goes up without wrapping. -/
theorem SafeRun.toNat_pidx_succ {s : State} (safe : SafeRun s) :
    (s.pidx + 1).toNat = s.pidx.toNat + 1 := by
  have inBlock := safe.control.pidx_lt
  have bound := s.halflen.isLt
  rw [← safe.length] at inBlock
  rw [BitVec.toNat_add_of_lt (by simp; omega)]
  rfl

/-- A request whose block `GEN` has not made yet, as `StreamInv.counted` counts it. -/
abbrev Waiting (s : State) : Prop := s.req ≠ .idle ∧ (s.fpc = 0 ∨ s.fpc = 1)

theorem not_waiting_of_idle {s : State} (idle : s.req = .idle) : ¬Waiting s :=
  fun waiting => waiting.1 idle

theorem not_waiting_of_packing {s : State} (packing : s.fpc ≠ 0 ∧ s.fpc ≠ 1) : ¬Waiting s :=
  fun waiting => waiting.2.elim packing.1 packing.2

/-- The words sent of the third half on: whole blocks, and the beginning of the one being sent. -/
theorem length_drop_stream {start k : Nat} {s : State}
    (sending : k + 2 = halvesSent start s) :
    (s.engine.stream.drop (start + 2 * s.halflen.toNat)).length =
      k * s.halflen.toNat + (s.engine.stream.length - start) % s.halflen.toNat := by
  have whole := Nat.div_add_mod' (s.engine.stream.length - start) s.halflen.toNat
  change halvesSent start s * _ + _ = _ at whole
  rw [← sending, Nat.add_mul] at whole
  rw [List.length_drop]
  omega

section
variable {start : Nat} {blocks : List (List F32)} {s : State} (h : StreamInv start blocks s)
include h

theorem StreamInv.counted_of_waiting (waiting : Waiting s) :
    blocks.length + 1 = halvesSent start s :=
  (congrArg (_ + ·) (if_pos waiting).symm).trans h.counted

theorem StreamInv.counted_of_not_waiting (notWaiting : ¬Waiting s) :
    blocks.length = halvesSent start s :=
  (congrArg (_ + ·) (if_neg notWaiting).symm).trans h.counted

/-- The engine stands `(words sent) mod halflen` words into its half. -/
theorem StreamInv.txPtr_eq :
    s.engine.txPtr =
      halfBase (halvesSent start s) s + (s.engine.stream.length - start) % s.halflen.toNat := by
  rw [h.position, mod_two_mul, halfBase]
  change halvesSent start s % 2 * _ + _ = _
  rcases Nat.mod_two_eq_zero_or_one (halvesSent start s) with even | odd
  · rw [if_pos even, even, Nat.zero_mul]
  · rw [if_neg (by omega), odd, Nat.one_mul]

theorem StreamInv.words_txAdvance :
    (txAdvance s).engine.stream.length - start = s.engine.stream.length - start + 1 := by
  have started := h.started
  simp only [txAdvance, List.length_append, List.length_singleton]
  omega

theorem StreamInv.position_txAdvance :
    (txAdvance s).engine.txPtr =
      ((txAdvance s).engine.stream.length - start) % (2 * s.halflen.toNat) := by
  rw [h.words_txAdvance, ← Nat.mod_add_mod, ← h.position]
  rfl

theorem streamInv_captured (slot : s.fpc = 0) (pending : s.req ≠ .idle) :
    StreamInv start blocks (beginTransition (captured s)) :=
  streamInv_of_eq h rfl rfl rfl rfl rfl
    ((if_pos ⟨pending, .inr rfl⟩).trans (if_pos ⟨pending, .inl slot⟩).symm) nofun
    (by rw [slot]; rfl)

theorem streamInv_cleared (slot : s.fpc = 3) : StreamInv start blocks (passEnd 1 s) :=
  streamInv_of_eq h rfl rfl rfl rfl rfl
    ((if_neg (not_waiting_of_idle (s := passEnd 1 s) rfl)).trans
      (if_neg (not_waiting_of_packing (by rw [slot]; decide))).symm)
    nofun (by rw [slot]; rfl)

variable (safe : SafeRun s)
include safe

/-- A pass packs into the half of the last block requested, which the engine has just left. -/
theorem StreamInv.packBase_eq (busy : s.fpc ≠ 0) {k : Nat} (last : k + 1 = halvesSent start s) :
    s.packBase = halfBase k s := by
  rw [safe.packBase_eq busy, txHalf_of_streamInv h safe.halflen_pos, halfBase, ← last]
  rcases Nat.mod_two_eq_zero_or_one k with even | odd
  · rw [if_neg (by rw [if_neg (by omega)]; nofun), if_pos even]
  · rw [if_pos (by rw [if_pos (by omega)]), if_neg (by omega)]

theorem StreamInv.length_packWords {b : List F32} (made : b ∈ blocks) :
    (packWords s.depth32 b).length = s.halflen.toNat := by
  rw [packWords_length, h.full b made, safe.length, State.halfWords]

/-- What goes out next is the word of the block in the half being transmitted. -/
theorem StreamInv.getElem?_packWords_sending {k : Nat} {b : List F32}
    (sending : k + 2 = halvesSent start s) (block : blocks[k]? = some b) :
    (packWords s.depth32 b)[(s.engine.stream.length - start) % s.halflen.toNat]? =
      some (s.transmitWord s.engine.txPtr) := by
  have inHalf := Nat.mod_lt (s.engine.stream.length - start) safe.halflen_pos
  have base : halfBase (halvesSent start s) s = halfBase k s := by
    rw [← sending, halfBase, Nat.add_mod_right, halfBase]
  have inBlock := inHalf.trans_eq (h.length_packWords safe (List.mem_of_getElem? block)).symm
  have held := h.sending k b sending block _ inHalf
  rw [List.getElem?_eq_getElem inBlock] at held ⊢
  rw [h.txPtr_eq, base, transmitWord_of_readWord held]

/-- R213 (e): from the third half on, the word that goes out next is the next word of the blocks. -/
theorem StreamInv.sent_txAdvance :
    (txAdvance s).engine.stream.drop (start + 2 * s.halflen.toNat) <+:
      blocks.flatMap (packWords s.depth32) := by
  have started := h.started
  have positive := safe.halflen_pos
  show (s.engine.stream ++ [s.transmitWord s.engine.txPtr]).drop _ <+: _
  by_cases early : s.engine.stream.length < start + 2 * s.halflen.toNat
  · rw [List.drop_eq_nil_of_le (by simp; omega)]
    exact List.nil_prefix
  · have two : 2 ≤ halvesSent start s := (Nat.le_div_iff_mul_le positive).2 (by omega)
    obtain ⟨k, sending⟩ : ∃ k, k + 2 = halvesSent start s := ⟨_, Nat.sub_add_cancel two⟩
    have requested : k < blocks.length := by
      have := h.counted
      split at this <;> omega
    have inHalf := Nat.mod_lt (s.engine.stream.length - start) positive
    have block := List.getElem?_eq_getElem requested
    rw [List.drop_append_of_le_length (by omega)]
    refine isPrefix_concat h.sent ?_
    rw [length_drop_stream sending, getElem?_flatMap_of_length _ _ _
      (fun b made => h.length_packWords safe made) k _ inHalf _ block]
    exact h.getElem?_packWords_sending safe sending block

/-! ### A word goes out -/

/-- The halves sent, after one more word. -/
theorem StreamInv.halvesSent_txAdvance :
    halvesSent start (txAdvance s) =
      halvesSent start s + (if s.engine.txPtr + 1 = s.halflen.toNat ∨
        s.engine.txPtr + 1 = 2 * s.halflen.toNat then 1 else 0) := by
  have positive := safe.halflen_pos
  have inHalf := Nat.mod_lt (s.engine.stream.length - start) positive
  have boundary : s.halflen.toNat ∣ s.engine.stream.length - start + 1 ↔
      s.engine.txPtr + 1 = s.halflen.toNat ∨ s.engine.txPtr + 1 = 2 * s.halflen.toNat := by
    rw [dvd_succ_iff positive, h.txPtr_eq, halfBase]
    split_ifs <;> omega
  simp only [halvesSent, h.words_txAdvance, txAdvance_halflen, Nat.succ_div, boundary]

/-- A word inside a half completes nothing. -/
theorem streamInv_sent (notHalf : s.engine.txPtr + 1 ≠ s.halflen.toNat)
    (notFull : s.engine.txPtr + 1 ≠ 2 * s.halflen.toNat) :
    StreamInv start blocks (txAdvance (beginTransition s)) := by
  have halves : halvesSent start (txAdvance (beginTransition s)) = halvesSent start s :=
    (h.halvesSent_txAdvance safe).trans
      (congrArg (_ + ·) (if_neg (not_or.2 ⟨notHalf, notFull⟩)))
  exact
    { h with
      started := h.started.trans (by simp [txAdvance])
      position := h.position_txAdvance
      counted := h.counted.trans halves.symm
      sent := h.sent_txAdvance safe
      sending := fun k b sending => h.sending k b (sending.trans halves)
      refilled := fun k b last => h.refilled k b (last.trans halves) }

/-- The last word of a half: the half last packed becomes the one that goes out, and the other waits for
a block that is not yet made. -/
theorem streamInv_completed {head : Nat} (idle : s.req = .idle)
    (last : s.engine.txPtr + 1 = head + s.halflen.toNat)
    (ofHalf : head = 0 ∨ head = s.halflen.toNat) :
    StreamInv start blocks
      (notify (completionRequest head) (txAdvance (beginTransition s))) := by
  have slot := safe.slot_of_idle idle
  have halves : halvesSent start (txAdvance (beginTransition s)) = halvesSent start s + 1 :=
    (h.halvesSent_txAdvance safe).trans (congrArg (_ + ·) (if_pos (by omega)))
  have made := h.counted_of_not_waiting (not_waiting_of_idle idle)
  exact
    { h with
      started := h.started.trans (by simp [txAdvance])
      position := h.position_txAdvance
      counted := by
        rw [if_pos ⟨completionRequest_ne_idle head, .inl slot⟩, made]
        exact halves.symm
      sent := h.sent_txAdvance safe
      sending := fun k b sending block j inHalf => by
        refine h.refilled k b (Nat.succ.inj (sending.trans halves)) block j ?_
        rw [slot]
        exact inHalf
      refilled := fun k b requested block => by
        have absent : blocks[k]? = none := by
          rw [List.getElem?_eq_none_iff, made]
          exact (Nat.succ.inj (requested.trans halves)).ge
        exact absurd (absent.symm.trans block) nofun }

/-! ### A pass -/

/-- `GEN` adds the block that was waited for; `PACK` has written none of it. -/
theorem streamInv_generated (slot : s.fpc = 1) :
    StreamInv start (blocks ++ [(generated s).blk]) (beginTransition (generated s)) := by
  have counted := h.counted_of_waiting
    ⟨safe.control.busy_pending (by rw [slot]; decide), .inr slot⟩
  exact
    { h with
      counted := by
        rw [if_neg (not_waiting_of_packing
          (show (2 : BitVec 2) ≠ 0 ∧ (2 : BitVec 2) ≠ 1 by decide)), List.length_append]
        exact counted
      full := fun b made => by
        rcases List.mem_append.1 made with old | new
        · exact h.full b old
        · rw [List.mem_singleton.1 new]
          exact genSamples_length _ _ _ _
      current := fun _ => List.getLast?_concat
      sent := by
        rw [List.flatMap_append]
        exact h.sent.trans (List.prefix_append _ _)
      sending := fun k b sending block j inHalf => by
        change k + 2 = halvesSent start s at sending
        rw [List.getElem?_append_left (by omega)] at block
        exact h.sending k b sending block j inHalf
      refilled := fun k b last block j written => by
        have first : s.pidx = 0 := safe.control.pidx_zero (by rw [slot]; decide)
        change j < s.pidx.toNat at written
        rw [first] at written
        exact absurd written (Nat.not_lt_zero j) }

section
variable {w : RawWord} (slot : s.fpc = 2)
include slot

/-- R213 (b): a `PACK` step leaves the half that goes out as it was. -/
theorem StreamInv.sending_packed {k : Nat} {b : List F32} (sending : k + 2 = halvesSent start s)
    (block : blocks[k]? = some b) {j : Nat} (inHalf : j < s.halflen.toNat) :
    Memory.readWord (Memory.writeWord s.mem s.packAddr w) (halfBase k s + j) =
      (packWords s.depth32 b)[j]? := by
  have elsewhere : halfBase k s + j ≠ s.packAddr := by
    have inBlock := safe.control.pidx_lt
    rw [← safe.length] at inBlock
    rw [State.packAddr, h.packBase_eq safe (by rw [slot]; decide) (k := k + 1) sending]
    unfold halfBase
    split_ifs <;> omega
  rw [readWord_writeWord _ _ _ _ safe.control.mem_wf, if_neg elsewhere]
  exact h.sending k b sending block j inHalf

/-- The other half has one more word of the last block. -/
theorem StreamInv.refilled_packed (word : packWord s.blk s.depth32 s.pidx.toNat = some w)
    {k : Nat} {b : List F32} (last : k + 1 = halvesSent start s)
    (block : blocks[k]? = some b) {j : Nat} (written : j < s.pidx.toNat + 1) :
    Memory.readWord (Memory.writeWord s.mem s.packAddr w) (halfBase k s + j) =
      (packWords s.depth32 b)[j]? := by
  have made := h.counted_of_not_waiting (not_waiting_of_packing (by rw [slot]; decide))
  have current : b = s.blk := by
    have newest := h.current slot
    rw [List.getLast?_eq_getElem?, made, ← last, Nat.add_sub_cancel, block] at newest
    exact Option.some.inj newest
  rw [readWord_writeWord _ _ _ _ safe.control.mem_wf, State.packAddr,
    h.packBase_eq safe (by rw [slot]; decide) last]
  by_cases newest : j = s.pidx.toNat
  · rw [newest, if_pos rfl, current, packWords_getElem?, word]
  · rw [if_neg (by omega)]
    refine h.refilled k b last block j ?_
    rw [if_pos slot]
    omega

variable (word : packWord s.blk s.depth32 s.pidx.toNat = some w)
include word

theorem streamInv_packedOne : StreamInv start blocks (beginTransition (packedOne w s)) :=
  { h with
    sending := fun _ _ sending block _ inHalf => h.sending_packed safe slot sending block inHalf
    refilled := fun _ _ last block j written => by
      have limit : (if (beginTransition (packedOne w s)).fpc = 2 then (s.pidx + 1).toNat
          else s.halflen.toNat) = s.pidx.toNat + 1 := (if_pos slot).trans safe.toNat_pidx_succ
      exact h.refilled_packed safe slot word last block (limit ▸ written) }

theorem streamInv_packedLast (last : s.pidx.toNat + 1 = s.halfWords) :
    StreamInv start blocks (beginTransition (packedLast w s)) :=
  have packed : Waiting (beginTransition (packedLast w s)) → False :=
    not_waiting_of_packing (show (3 : BitVec 2) ≠ 0 ∧ (3 : BitVec 2) ≠ 1 by decide)
  { h with
    counted := (congrArg (_ + ·) (if_neg packed)).trans
      (h.counted_of_not_waiting (not_waiting_of_packing (by rw [slot]; decide)))
    current := nofun
    sending := fun _ _ sending block _ inHalf => h.sending_packed safe slot sending block inHalf
    refilled := fun _ _ newest block j inHalf =>
      have written : j < s.pidx.toNat + 1 := by
        rw [last, ← safe.length]
        exact inHalf
      h.refilled_packed safe slot word newest block written }

end

end

/-! ### Every transition on time -/

/-- Of the transitions on time only `GEN` adds a block. -/
theorem streamInv_of_move {start : Nat} {h : History} {s t : State} (safe : SafeRun s)
    (inv : StreamInv start h.blocks s) (move : OnTimeMove s t) :
    StreamInv start (h.record s t).blocks t := by
  have other (elsewhere : nextStimulus s = .fg → s.fpc ≠ 1) :
      (h.record s t).blocks = h.blocks :=
    record_blocks_of_not_gen (fgPerforms_eq_false elsewhere)
  cases move with
  | aside _ _ _ _ untaken =>
    rw [other fun fg => by rw [(untaken fg).1]; decide]
    exact streamInv_of_eq inv rfl rfl rfl rfl rfl rfl (fun slot => ⟨slot, rfl⟩) rfl
  | sent turn notHalf notFull =>
    rw [other fun fg => absurd (turn.symm.trans fg) nofun]
    exact streamInv_sent inv safe notHalf notFull
  | completed _ turn idle last ofHalf =>
    rw [other fun fg => absurd (turn.symm.trans fg) nofun]
    exact streamInv_completed inv safe idle last ofHalf
  | captured _ slot pending =>
    rw [other fun _ => by rw [slot]; decide]
    exact streamInv_captured inv slot pending
  | generated turn slot =>
    rw [record_blocks_of_gen (safe.fgPerforms_eq_true turn slot)]
    exact streamInv_generated inv safe slot
  | packedOne w slot word =>
    rw [other fun _ => by rw [slot]; decide]
    exact streamInv_packedOne inv safe slot word
  | packedLast w slot word last =>
    rw [other fun _ => by rw [slot]; decide]
    exact streamInv_packedLast inv safe slot word last
  | cleared slot =>
    rw [other fun _ => by rw [slot]; decide]
    exact streamInv_cleared inv slot

/-- Settles O46, by what a transition on time can be. -/
theorem onTimeStepKeepsStreamInvariant : Obligations.OnTimeStepKeepsStreamInvariant :=
  fun _ _ _ _ safe inv timely move live =>
    streamInv_of_move safe inv (onTimeMove_of_step safe timely move live)

end Sys2Proof.Machine
end

