-- ==== Sys2Proof/Proofs/SafeRuns.lean ====
section
/-! PROOF. Whole runs of transitions on time (70_reset_and_hazards.md R213 (d), (e)): the refills
alternate and the stream is the blocks in order; and what one late refill does to a safe run. -/

namespace Sys2Proof.Machine

/-! ### Runs on time -/

/-- The induction over a run: what holds of its start, and is kept by each transition of a safe state,
holds all along. -/
theorem onTimeRun_induction {s : State} {P : History → State → Prop} (safe : SafeRun s)
    (base : P .empty s)
    (keep : ∀ h t u, SafeRun t → P h t → OnTimeMove t u → P (h.record t u) u)
    {h : History} {t : State} (run : OnTimeRun s h t) : P h t := by
  suffices both : SafeRun t ∧ P h t from both.2
  induction run with
  | start => exact ⟨safe, base⟩
  | step _ timely move live ih =>
    exact ⟨onTimeStepKeepsSafeRun _ _ ih.1 timely move live,
      keep _ _ _ ih.1 ih.2 (onTimeMove_of_step ih.1 timely move live)⟩

/-! ### The refills (R213 (d)) -/

/-- The half that refill `n` of a run is for. -/
def refillRequest (n : Nat) : Request :=
  if n % 2 = 0 then .pendingFirstHalf else .pendingSecondHalf

theorem successor_refillRequest (n : Nat) :
    (refillRequest n).successor = refillRequest (n + 1) := by
  unfold refillRequest
  rcases Nat.mod_two_eq_zero_or_one n with even | odd
  · rw [if_pos even, if_neg (by omega)]
    rfl
  · rw [if_neg (by omega), if_pos (by omega)]
    rfl

/-- The refills so far alternate, and the next one is due for the half after the last one captured. -/
structure Alternating (refills : List Request) (s : State) : Prop where
  alternate : ∀ i r, refills[i]? = some r → r = refillRequest i
  next : s.cap.successor = refillRequest refills.length

/-- Of the transitions on time only a taken `POLL` captures, and it is the one recorded. -/
theorem OnTimeMove.captures {s t : State} (move : OnTimeMove s t) :
    (nextStimulus s = .fg ∧ s.fpc = 0 ∧ s.req ≠ .idle ∧ t.cap = s.req) ∨
      (t.cap = s.cap ∧ ∀ h : History, (h.record s t).refills = h.refills) := by
  have spares (cap : t.cap = s.cap)
      (untaken : nextStimulus s = .fg → s.fpc ≠ 0 ∨ s.req = .idle) :
      t.cap = s.cap ∧ ∀ h : History, (h.record s t).refills = h.refills := by
    refine ⟨cap, fun h => record_refills_of_not_taken ?_⟩
    by_cases idle : s.req = .idle
    · exact .inr idle
    · exact .inl (fgPerforms_eq_false fun fg => (untaken fg).resolve_right idle)
  cases move with
  | aside _ _ _ _ untaken => exact .inr (spares rfl fun fg => .inr (untaken fg).2)
  | sent turn => exact .inr (spares rfl fun fg => absurd (turn.symm.trans fg) nofun)
  | completed _ _ idle => exact .inr (spares rfl fun _ => .inr idle)
  | captured turn slot pending => exact .inl ⟨turn, slot, pending, rfl⟩
  | generated _ slot => exact .inr (spares rfl fun _ => .inl (by rw [slot]; decide))
  | packedOne _ slot => exact .inr (spares rfl fun _ => .inl (by rw [slot]; decide))
  | packedLast _ slot => exact .inr (spares rfl fun _ => .inl (by rw [slot]; decide))
  | cleared slot => exact .inr (spares rfl fun _ => .inl (by rw [slot]; decide))

theorem alternating_of_move {h : History} {s t : State} (safe : SafeRun s)
    (alternating : Alternating h.refills s) (move : OnTimeMove s t) :
    Alternating (h.record s t).refills t := by
  rcases move.captures with ⟨turn, slot, pending, cap⟩ | ⟨cap, refills⟩
  · have due : t.cap = refillRequest h.refills.length := by
      rw [cap, safe.waiting_follows slot pending, alternating.next]
    rw [record_refills_of_taken (safe.fgPerforms_eq_true turn slot) pending]
    constructor
    · intro i r captured
      rcases lt_trichotomy i h.refills.length with old | rfl | beyond
      · rw [List.getElem?_append_left old] at captured
        exact alternating.alternate i r captured
      · rw [List.getElem?_concat_length] at captured
        rw [← due]
        exact (Option.some.inj captured).symm
      · rw [List.getElem?_eq_none (by simp; omega)] at captured
        cases captured
    · rw [due, successor_refillRequest, List.length_append, List.length_singleton]
  · rw [refills]
    exact ⟨alternating.alternate, by rw [cap]; exact alternating.next⟩

/-- Settles O45, by induction over the run. -/
theorem refillsAlternateInSafeRun : Obligations.RefillsAlternateInSafeRun := by
  intro s t h started run
  have first : Alternating History.empty.refills s := ⟨nofun, by rw [started.nothing_served]; rfl⟩
  exact (onTimeRun_induction (P := fun h t => Alternating h.refills t) started.safe first
    (fun _ _ _ => alternating_of_move) run).alternate

/-! ### The stream (R213 (e)) -/

theorem streamInv_of_justStarted {s : State} (started : JustStarted s) :
    StreamInv s.engine.stream.length [] s where
  started := le_rfl
  position := by rw [started.at_first_word, Nat.sub_self, Nat.zero_mod]
  counted := by
    rw [if_neg (not_waiting_of_idle started.nothing_requested), halvesSent, Nat.sub_self,
      Nat.zero_div]
    rfl
  full := nofun
  current packing := by
    rw [started.safe.slot_of_idle started.nothing_requested] at packing
    cases packing
  sent := by rw [List.drop_eq_nil_of_le (by omega)]; exact List.nil_prefix
  sending := nofun
  refilled := nofun

/-- No transition on time changes the half's length or the bit depth. -/
theorem OnTimeMove.format_eq {s t : State} (move : OnTimeMove s t) :
    t.halflen = s.halflen ∧ t.depth32 = s.depth32 := by
  cases move <;> exact ⟨rfl, rfl⟩

/-- Settles O47, by induction over the run. -/
theorem safeRunStreamsConsecutiveBlocks : Obligations.SafeRunStreamsConsecutiveBlocks := by
  intro s t h started run
  obtain ⟨inv, halflen, depth⟩ := onTimeRun_induction
    (P := fun h t => StreamInv s.engine.stream.length h.blocks t ∧
      t.halflen = s.halflen ∧ t.depth32 = s.depth32)
    started.safe ⟨streamInv_of_justStarted started, rfl, rfl⟩
    (fun _ _ _ safe ⟨inv, halflen, depth⟩ move =>
      ⟨streamInv_of_move safe inv move, move.format_eq.1.trans halflen,
        move.format_eq.2.trans depth⟩) run
  rw [← halflen, ← depth]
  exact inv.sent

/-! ### A late refill (R210, R211) -/

/-- A block of one 16-bit sample: a pass for FirstHalf at its first `PACK`, the engine about to send the
last word of SecondHalf. -/
def lateRefill : State :=
  { State.resetWith { blockSize := 1, modeTable := Config.testTable } with
    running := true
    halflen := 2
    req := .pendingFirstHalf
    cap := .pendingFirstHalf
    fpc := 2
    blk := [F32.negOne]
    engine := { mode := .streaming, txPtr := 3, stream := [] }
    schedule := [.tx, .fg] }

theorem safeRun_lateRefill : SafeRun lateRefill where
  control := by constructor <;> decide +kernel
  streaming := rfl
  live := rfl
  no_overwrite := rfl
  first_free _ := rfl
  second_free := nofun
  pass_serves _ := rfl
  waiting_follows := nofun
  served_follows := nofun

theorem crossesBoundary_lateRefill : crossesBoundary lateRefill := crossesBoundary_iff.2 (.inr rfl)

/-- The completion finds its request not yet served. -/
theorem not_onTime_lateRefill : ¬onTime lateRefill := fun timely =>
  have served : crossesBoundary lateRefill → lateRefill.req = .idle := timely
  nomatch served crossesBoundary_lateRefill

/-- The engine crosses its boundary with the pass still at `PACK`. -/
def crossed : State := notify .pendingSecondHalf (afterWords 1 lateRefill)

theorem step_lateRefill : step lateRefill = .next crossed :=
  step_tx_last (head := 2) rfl safeRun_lateRefill.followsContract rfl rfl (.inr rfl)

/-- Settles O48: the word at `packAddr` was not written before, and `PACK` writes it. -/
theorem lateRefillBreaksSafeRun : Obligations.LateRefillBreaksSafeRun := by
  have ready : PassReady crossed :=
    safeRun_lateRefill.passReady.of_step step_lateRefill rfl rfl rfl rfl
  obtain ⟨w, -, move⟩ := step_pack (s := crossed) rfl ready rfl
  refine ⟨lateRefill, crossed, _, safeRun_lateRefill, rfl, rfl, crossesBoundary_lateRefill,
    not_onTime_lateRefill, step_lateRefill, rfl, rfl, rfl, rfl, rfl, by decide, move,
    packAdvance_fault _, ?_⟩
  rw [packAdvance_mem, readWord_writeWord _ _ _ _ ready.control.mem_wf, if_pos rfl]
  nofun

end Sys2Proof.Machine
end
